-- ==== Sys2Proof/Word.lean ====
section
/-! DEFINITION. The two widths of the machine: the 8-bit byte of a memory location and the
16-bit word of a register, an instruction word, an immediate and a word access
(00_scope.md R7). -/

namespace Sys2Proof

/-- An 8-bit memory location (R34). -/
abbrev Byte := BitVec 8

/-- A 16-bit register, opcode word, immediate or address (R7). -/
abbrev Word := BitVec 16

end Sys2Proof
end

