-- ==== Sys2Proof/Config.lean ====
section
/-! DEFINITION. What the platform or the implementer fixes: the parameters of 00_scope.md R8 as
plain data, and the one opaque source of free values. -/

namespace Sys2Proof

/-- The parameter VARIANT (R2): the full architecture or the reduced one without interrupts. -/
inductive Variant where
  | markII
  | markIIL
deriving DecidableEq, Repr

/-- The parameter MUL_CARRY_PRODUCT (R202, decision D6): which 32-bit product sets C after MUL. -/
inductive MulCarry where
  | signed
  | unsigned
deriving DecidableEq, Repr

/-- The parameter DIVMOD_CONVENTION (R203, R204, decision D7). -/
inductive DivMod where
  | truncate
  | floor
  | euclid
  | unspecified
deriving DecidableEq, Repr

/-- What stands at a byte address (MEMORY_MAP, R70, R74). -/
inductive RegionKind where
  | ram
  | rom
  | device
  | unmapped
deriving DecidableEq, Repr

/-- The kind of an access (R16, R71): `fetch` is the code access, `read` and `write` are data. -/
inductive AccessKind where
  | fetch
  | read
  | write
deriving DecidableEq, Repr

/-- The width of an access; there is no other (R60). -/
inductive Width where
  | byte
  | word
deriving DecidableEq, Repr

/-- One range of MEMORY_MAP: `size` bytes from `base` are of kind `kind`. -/
structure Region where
  base : Nat
  size : Nat
  kind : RegionKind
deriving DecidableEq, Repr

/-- One range of BUS_ERROR (R264, decision D16): an access of this width and kind whose address is
one of the `size` addresses from `base` is answered with the BUS signal. -/
structure BusRule where
  base : Nat
  size : Nat
  width : Width
  access : AccessKind
deriving DecidableEq, Repr

/-- The environment's signals at one instruction boundary (PIN_EVENTS, decision D15). -/
structure Pins where
  rst : Bool
  nmi : Bool
  irq : Bool
deriving DecidableEq, Repr

/-- The parameters of R8 that stay fixed while a machine runs. PIN_EVENTS and INITIAL_MEMORY are
fields of the state instead: the rest of the schedule, and the memory at power-on. -/
structure Platform where
  variant : Variant
  mulCarry : MulCarry
  divMod : DivMod
  /-- MEMORY_MAP: the first region that holds an address decides; an address in none is RAM. -/
  map : List Region
  /-- BUS_ERROR: true of an access when some rule of the list is. -/
  busErrors : List BusRule
deriving DecidableEq, Repr

/-- The defaults of R8 (the variant is the model's choice, log 4). -/
def Platform.default : Platform :=
  { variant := .markII, mulCarry := .signed, divMod := .truncate, map := [], busErrors := [] }

/-- The free values (93_implementation_defined.md, treatment `any value`): the n-th value drawn is
`freeWord n`. It has no body, so no proof can use what it is (log 30). -/
opaque Config.freeWord : Nat → Word

end Sys2Proof
end

