-- ==== Sys2Proof/Syntax.lean ====
section
/-! DEFINITION. The instruction set as syntax: the configuration that every instruction carries
(30_encoding.md R90 to R96) and one constructor per row of spec/opcode_table.json. An immediate
word is no part of the syntax: it stands behind the opcode word in memory and is fetched when the
input is taken (40_execution_model.md R130, log 32). -/

namespace Sys2Proof

/-- `cond`, bits [2:0] (R93). -/
inductive Cond where
  | always
  | zero
  | nonzero
  | greater
  | less
  | gequal
  | lequal
  | overflow
deriving DecidableEq, Repr

/-- `in0` and `in1`, bits [4:3] and [6:5] (R94). -/
inductive Input where
  | zero
  | imm
  | peek
  | pop
deriving DecidableEq, Repr

/-- The configuration part of an instruction, bits [8:0] of the opcode word (R90). -/
structure Cfg where
  /-- Execution Conditional (R93). -/
  cond : Cond
  /-- Input 0 Behaviour (R94). -/
  in0 : Input
  /-- Input 1 Behaviour (R94). -/
  in1 : Input
  /-- Flag Modification: `true` is Yes (R95). -/
  flg : Bool
  /-- Output Behaviour: `true` is Push (R96). -/
  out : Bool
deriving DecidableEq, Repr

/-- An instruction: its command and its configuration. The 34 defined commands are those of R100,
the `reserved<n>` ones are the reserved command values of R101. -/
inductive Instr where
  | copy (c : Cfg)
  | reserved1 (c : Cfg)
  | get (c : Cfg)
  | set (c : Cfg)
  | store8 (c : Cfg)
  | store16 (c : Cfg)
  | load8 (c : Cfg)
  | load16 (c : Cfg)
  | cpuid (c : Cfg)
  | halt (c : Cfg)
  | frget (c : Cfg)
  | frset (c : Cfg)
  | bpget (c : Cfg)
  | bpset (c : Cfg)
  | spget (c : Cfg)
  | spset (c : Cfg)
  | add (c : Cfg)
  | sub (c : Cfg)
  | mul (c : Cfg)
  | div (c : Cfg)
  | mod (c : Cfg)
  | and (c : Cfg)
  | or (c : Cfg)
  | xor (c : Cfg)
  | not (c : Cfg)
  | signext (c : Cfg)
  | rol (c : Cfg)
  | ror (c : Cfg)
  | bswap (c : Cfg)
  | asr (c : Cfg)
  | lsl (c : Cfg)
  | lsr (c : Cfg)
  | setip (c : Cfg)
  | addip (c : Cfg)
  | intr (c : Cfg)
  | reserved35 (c : Cfg)
  | reserved36 (c : Cfg)
  | reserved37 (c : Cfg)
  | reserved38 (c : Cfg)
  | reserved39 (c : Cfg)
  | reserved40 (c : Cfg)
  | reserved41 (c : Cfg)
  | reserved42 (c : Cfg)
  | reserved43 (c : Cfg)
  | reserved44 (c : Cfg)
  | reserved45 (c : Cfg)
  | reserved46 (c : Cfg)
  | reserved47 (c : Cfg)
  | reserved48 (c : Cfg)
  | reserved49 (c : Cfg)
  | reserved50 (c : Cfg)
  | reserved51 (c : Cfg)
  | reserved52 (c : Cfg)
  | reserved53 (c : Cfg)
  | reserved54 (c : Cfg)
  | reserved55 (c : Cfg)
  | reserved56 (c : Cfg)
  | reserved57 (c : Cfg)
  | reserved58 (c : Cfg)
  | reserved59 (c : Cfg)
  | reserved60 (c : Cfg)
  | reserved61 (c : Cfg)
  | reserved62 (c : Cfg)
  | reserved63 (c : Cfg)
deriving DecidableEq, Repr

/-- The configuration of an instruction. -/
def Instr.cfg : Instr → Cfg
  | .copy c => c
  | .reserved1 c => c
  | .get c => c
  | .set c => c
  | .store8 c => c
  | .store16 c => c
  | .load8 c => c
  | .load16 c => c
  | .cpuid c => c
  | .halt c => c
  | .frget c => c
  | .frset c => c
  | .bpget c => c
  | .bpset c => c
  | .spget c => c
  | .spset c => c
  | .add c => c
  | .sub c => c
  | .mul c => c
  | .div c => c
  | .mod c => c
  | .and c => c
  | .or c => c
  | .xor c => c
  | .not c => c
  | .signext c => c
  | .rol c => c
  | .ror c => c
  | .bswap c => c
  | .asr c => c
  | .lsl c => c
  | .lsr c => c
  | .setip c => c
  | .addip c => c
  | .intr c => c
  | .reserved35 c => c
  | .reserved36 c => c
  | .reserved37 c => c
  | .reserved38 c => c
  | .reserved39 c => c
  | .reserved40 c => c
  | .reserved41 c => c
  | .reserved42 c => c
  | .reserved43 c => c
  | .reserved44 c => c
  | .reserved45 c => c
  | .reserved46 c => c
  | .reserved47 c => c
  | .reserved48 c => c
  | .reserved49 c => c
  | .reserved50 c => c
  | .reserved51 c => c
  | .reserved52 c => c
  | .reserved53 c => c
  | .reserved54 c => c
  | .reserved55 c => c
  | .reserved56 c => c
  | .reserved57 c => c
  | .reserved58 c => c
  | .reserved59 c => c
  | .reserved60 c => c
  | .reserved61 c => c
  | .reserved62 c => c
  | .reserved63 c => c

end Sys2Proof
end

