-- ==== Sys2Proof/WellFormed.lean ====
section
/-! DEFINITION. Which instructions a program may execute on a variant. The syntax admits exactly
the words of R104 with bit 15 = 0, so two checks remain: the command is one of the 34 defined ones
(R101, R104) and it exists on the variant (decision D27, log 15). -/

namespace Sys2Proof

/-- The command is defined (R100), not reserved (R101): command values 0 and 2 to 34. -/
def Instr.defined : Instr → Bool
  | .copy _ => true
  | .reserved1 _ => false
  | .get _ => true
  | .set _ => true
  | .store8 _ => true
  | .store16 _ => true
  | .load8 _ => true
  | .load16 _ => true
  | .cpuid _ => true
  | .halt _ => true
  | .frget _ => true
  | .frset _ => true
  | .bpget _ => true
  | .bpset _ => true
  | .spget _ => true
  | .spset _ => true
  | .add _ => true
  | .sub _ => true
  | .mul _ => true
  | .div _ => true
  | .mod _ => true
  | .and _ => true
  | .or _ => true
  | .xor _ => true
  | .not _ => true
  | .signext _ => true
  | .rol _ => true
  | .ror _ => true
  | .bswap _ => true
  | .asr _ => true
  | .lsl _ => true
  | .lsr _ => true
  | .setip _ => true
  | .addip _ => true
  | .intr _ => true
  | .reserved35 _ => false
  | .reserved36 _ => false
  | .reserved37 _ => false
  | .reserved38 _ => false
  | .reserved39 _ => false
  | .reserved40 _ => false
  | .reserved41 _ => false
  | .reserved42 _ => false
  | .reserved43 _ => false
  | .reserved44 _ => false
  | .reserved45 _ => false
  | .reserved46 _ => false
  | .reserved47 _ => false
  | .reserved48 _ => false
  | .reserved49 _ => false
  | .reserved50 _ => false
  | .reserved51 _ => false
  | .reserved52 _ => false
  | .reserved53 _ => false
  | .reserved54 _ => false
  | .reserved55 _ => false
  | .reserved56 _ => false
  | .reserved57 _ => false
  | .reserved58 _ => false
  | .reserved59 _ => false
  | .reserved60 _ => false
  | .reserved61 _ => false
  | .reserved62 _ => false
  | .reserved63 _ => false

/-- The command exists on the variant: INTR is not available on `MarkII_L` (R104, R242). -/
def Instr.available (v : Variant) : Instr → Bool
  | .copy _ => true
  | .reserved1 _ => true
  | .get _ => true
  | .set _ => true
  | .store8 _ => true
  | .store16 _ => true
  | .load8 _ => true
  | .load16 _ => true
  | .cpuid _ => true
  | .halt _ => true
  | .frget _ => true
  | .frset _ => true
  | .bpget _ => true
  | .bpset _ => true
  | .spget _ => true
  | .spset _ => true
  | .add _ => true
  | .sub _ => true
  | .mul _ => true
  | .div _ => true
  | .mod _ => true
  | .and _ => true
  | .or _ => true
  | .xor _ => true
  | .not _ => true
  | .signext _ => true
  | .rol _ => true
  | .ror _ => true
  | .bswap _ => true
  | .asr _ => true
  | .lsl _ => true
  | .lsr _ => true
  | .setip _ => true
  | .addip _ => true
  | .intr _ => v == .markII
  | .reserved35 _ => true
  | .reserved36 _ => true
  | .reserved37 _ => true
  | .reserved38 _ => true
  | .reserved39 _ => true
  | .reserved40 _ => true
  | .reserved41 _ => true
  | .reserved42 _ => true
  | .reserved43 _ => true
  | .reserved44 _ => true
  | .reserved45 _ => true
  | .reserved46 _ => true
  | .reserved47 _ => true
  | .reserved48 _ => true
  | .reserved49 _ => true
  | .reserved50 _ => true
  | .reserved51 _ => true
  | .reserved52 _ => true
  | .reserved53 _ => true
  | .reserved54 _ => true
  | .reserved55 _ => true
  | .reserved56 _ => true
  | .reserved57 _ => true
  | .reserved58 _ => true
  | .reserved59 _ => true
  | .reserved60 _ => true
  | .reserved61 _ => true
  | .reserved62 _ => true
  | .reserved63 _ => true

/-- An instruction a program for variant `v` may execute. -/
def Instr.wellFormed (v : Variant) (i : Instr) : Bool :=
  i.defined && i.available v

end Sys2Proof
end

