-- ==== Sys2Proof/Decode.lean ====
section
/-! DEFINITION. Decoding and encoding (30_encoding.md R90 to R99; 20_memory.md R64): the opcode
word's fields, the decoder on a word and on bytes, the encoder, and the layout of an instruction
with its immediates in memory. -/

namespace Sys2Proof

/-! ## Byte order (20_memory.md R61, R62) -/

/-- The less significant byte, the one at the lower address. -/
def lowByte (w : Word) : Byte := w.extractLsb' 0 8

/-- The more significant byte, the one at the higher address. -/
def highByte (w : Word) : Byte := w.extractLsb' 8 8

/-- The word whose high byte is `hi` and whose low byte is `lo`. -/
def joinBytes (hi lo : Byte) : Word := hi ++ lo

/-- Words as their bytes in memory order, the first word at the lowest address. -/
def wordsBytes : List Word → List Byte
  | [] => []
  | w :: ws => lowByte w :: highByte w :: wordsBytes ws

/-! ## The fields of the opcode word (R90, R91, R93, R94) -/

/-- The condition a value of bits [2:0] stands for (R93). -/
def Cond.ofBits (b : BitVec 3) : Cond :=
  match b.toNat with
  | 0 => .always
  | 1 => .zero
  | 2 => .nonzero
  | 3 => .greater
  | 4 => .less
  | 5 => .gequal
  | 6 => .lequal
  | _ => .overflow

/-- The value of bits [2:0] for a condition (R93). -/
def Cond.toBits : Cond → BitVec 3
  | .always => 0#3
  | .zero => 1#3
  | .nonzero => 2#3
  | .greater => 3#3
  | .less => 4#3
  | .gequal => 5#3
  | .lequal => 6#3
  | .overflow => 7#3

/-- The input behaviour a value of an input field stands for (R94). -/
def Input.ofBits (b : BitVec 2) : Input :=
  match b.toNat with
  | 0 => .zero
  | 1 => .imm
  | 2 => .peek
  | _ => .pop

/-- The value of an input field (R94). -/
def Input.toBits : Input → BitVec 2
  | .zero => 0#2
  | .imm => 1#2
  | .peek => 2#2
  | .pop => 3#2

/-- The configuration bits [8:0] of an opcode word (R91). -/
def Cfg.ofWord (w : Word) : Cfg :=
  { cond := Cond.ofBits (w.extractLsb' 0 3)
    in0 := Input.ofBits (w.extractLsb' 3 2)
    in1 := Input.ofBits (w.extractLsb' 5 2)
    flg := w.getLsbD 7
    out := w.getLsbD 8 }

/-- The configuration bits [8:0] of an instruction (R91). -/
def Cfg.toBits (c : Cfg) : BitVec 9 :=
  BitVec.ofBool c.out ++ BitVec.ofBool c.flg ++ c.in1.toBits ++ c.in0.toBits ++ c.cond.toBits

/-! ## The command field (R100, R101) -/

/-- The value of the command field `cmd`, bits [14:9] (R100, R101). -/
def Instr.cmd : Instr → BitVec 6
  | .copy _ => 0#6
  | .reserved1 _ => 1#6
  | .get _ => 2#6
  | .set _ => 3#6
  | .store8 _ => 4#6
  | .store16 _ => 5#6
  | .load8 _ => 6#6
  | .load16 _ => 7#6
  | .cpuid _ => 8#6
  | .halt _ => 9#6
  | .frget _ => 10#6
  | .frset _ => 11#6
  | .bpget _ => 12#6
  | .bpset _ => 13#6
  | .spget _ => 14#6
  | .spset _ => 15#6
  | .add _ => 16#6
  | .sub _ => 17#6
  | .mul _ => 18#6
  | .div _ => 19#6
  | .mod _ => 20#6
  | .and _ => 21#6
  | .or _ => 22#6
  | .xor _ => 23#6
  | .not _ => 24#6
  | .signext _ => 25#6
  | .rol _ => 26#6
  | .ror _ => 27#6
  | .bswap _ => 28#6
  | .asr _ => 29#6
  | .lsl _ => 30#6
  | .lsr _ => 31#6
  | .setip _ => 32#6
  | .addip _ => 33#6
  | .intr _ => 34#6
  | .reserved35 _ => 35#6
  | .reserved36 _ => 36#6
  | .reserved37 _ => 37#6
  | .reserved38 _ => 38#6
  | .reserved39 _ => 39#6
  | .reserved40 _ => 40#6
  | .reserved41 _ => 41#6
  | .reserved42 _ => 42#6
  | .reserved43 _ => 43#6
  | .reserved44 _ => 44#6
  | .reserved45 _ => 45#6
  | .reserved46 _ => 46#6
  | .reserved47 _ => 47#6
  | .reserved48 _ => 48#6
  | .reserved49 _ => 49#6
  | .reserved50 _ => 50#6
  | .reserved51 _ => 51#6
  | .reserved52 _ => 52#6
  | .reserved53 _ => 53#6
  | .reserved54 _ => 54#6
  | .reserved55 _ => 55#6
  | .reserved56 _ => 56#6
  | .reserved57 _ => 57#6
  | .reserved58 _ => 58#6
  | .reserved59 _ => 59#6
  | .reserved60 _ => 60#6
  | .reserved61 _ => 61#6
  | .reserved62 _ => 62#6
  | .reserved63 _ => 63#6

/-- An instruction from the value of its command field and its configuration (R100, R101). -/
def Instr.ofCmd (cmd : BitVec 6) (c : Cfg) : Instr :=
  match cmd.toNat with
  | 0 => .copy c
  | 1 => .reserved1 c
  | 2 => .get c
  | 3 => .set c
  | 4 => .store8 c
  | 5 => .store16 c
  | 6 => .load8 c
  | 7 => .load16 c
  | 8 => .cpuid c
  | 9 => .halt c
  | 10 => .frget c
  | 11 => .frset c
  | 12 => .bpget c
  | 13 => .bpset c
  | 14 => .spget c
  | 15 => .spset c
  | 16 => .add c
  | 17 => .sub c
  | 18 => .mul c
  | 19 => .div c
  | 20 => .mod c
  | 21 => .and c
  | 22 => .or c
  | 23 => .xor c
  | 24 => .not c
  | 25 => .signext c
  | 26 => .rol c
  | 27 => .ror c
  | 28 => .bswap c
  | 29 => .asr c
  | 30 => .lsl c
  | 31 => .lsr c
  | 32 => .setip c
  | 33 => .addip c
  | 34 => .intr c
  | 35 => .reserved35 c
  | 36 => .reserved36 c
  | 37 => .reserved37 c
  | 38 => .reserved38 c
  | 39 => .reserved39 c
  | 40 => .reserved40 c
  | 41 => .reserved41 c
  | 42 => .reserved42 c
  | 43 => .reserved43 c
  | 44 => .reserved44 c
  | 45 => .reserved45 c
  | 46 => .reserved46 c
  | 47 => .reserved47 c
  | 48 => .reserved48 c
  | 49 => .reserved49 c
  | 50 => .reserved50 c
  | 51 => .reserved51 c
  | 52 => .reserved52 c
  | 53 => .reserved53 c
  | 54 => .reserved54 c
  | 55 => .reserved55 c
  | 56 => .reserved56 c
  | 57 => .reserved57 c
  | 58 => .reserved58 c
  | 59 => .reserved59 c
  | 60 => .reserved60 c
  | 61 => .reserved61 c
  | 62 => .reserved62 c
  | _ => .reserved63 c

/-! ## Decoding -/

/-- Why bytes are no instruction. -/
inductive DecodeError where
  /-- Bit 15 of the opcode word is 1, "Reserved for future use (must be 0)" (R92). -/
  | reservedBit15
  /-- There are not enough bytes for the opcode word and the immediates it announces. -/
  | truncated
deriving DecidableEq, Repr

/-- The decoder on an opcode word (R91, R92, R104): every word with bit 15 = 0 is an instruction. -/
def decodeWord (w : Word) : Except DecodeError Instr :=
  if w.getLsbD 15 then .error .reservedBit15
  else .ok (Instr.ofCmd (w.extractLsb' 9 6) (Cfg.ofWord w))

/-- How many immediate words an input field announces (R98). -/
def Input.immWords : Input → Nat
  | .imm => 1
  | _ => 0

/-- How many immediate words follow the opcode word (R98, R99). -/
def Cfg.immWords (c : Cfg) : Nat := c.in0.immWords + c.in1.immWords

/-- The length of an instruction in bytes (R99); it depends on the input fields alone. -/
def Instr.length (i : Instr) : Nat := 2 + 2 * i.cfg.immWords

/-- Take `n` words off the front of a byte list. -/
def takeWords : Nat → List Byte → Option (List Word × List Byte)
  | 0, bs => some ([], bs)
  | n + 1, lo :: hi :: bs =>
    match takeWords n bs with
    | some (ws, rest) => some (joinBytes hi lo :: ws, rest)
    | none => none
  | _ + 1, _ => none

/-- The decoder on bytes in memory order: an instruction, its immediates in the order they stand
(that of input0 first, R98), and the bytes behind it. -/
def decode (bs : List Byte) : Except DecodeError (Instr × List Word × List Byte) :=
  match bs with
  | lo :: hi :: rest =>
    match decodeWord (joinBytes hi lo) with
    | .ok i =>
      match takeWords i.cfg.immWords rest with
      | some (imms, rest') => .ok (i, imms, rest')
      | none => .error .truncated
    | .error e => .error e
  | _ => .error .truncated

/-! ## Encoding -/

/-- The opcode word of an instruction (R91). -/
def encodeWord (i : Instr) : Word := 0#1 ++ i.cmd ++ i.cfg.toBits

/-- The words of an instruction: the opcode word, then its immediates (R98). -/
def encode (i : Instr) (imms : List Word) : List Word := encodeWord i :: imms

/-- The bytes of an instruction in memory order (R64). -/
def encodeBytes (i : Instr) (imms : List Word) : List Byte := wordsBytes (encode i imms)

/-! ## The opcode table's numbering -/

/-- The longest instruction in bytes (R99). -/
def maxLength : Nat := 6

/-- The bytes, as the hardware stores them, of an instruction whose bits the opcode table numbers
`w`: `nbits` bits of it, zero above, up to the longest instruction. A later word's bits count on
from bit 16, and each word is stored low byte first, so byte k holds bits 8k+7 to 8k. -/
def tableBytes (nbits w : Nat) : List Byte :=
  (List.range maxLength).map fun k => BitVec.ofNat 8 (w % 2 ^ nbits / 2 ^ (8 * k))

/-- The instruction the decoder reads from a word of the opcode table. -/
def decodeTableWord (nbits w : Nat) : Option Instr :=
  match decode (tableBytes nbits w) with
  | .ok (i, _, _) => some i
  | .error _ => none

end Sys2Proof
end

