-- ==== Sys2Proof/Machine/State.lean ====
section
/-! DEFINITION. The state of the machine as plain data (10_state.md R20), the reasons a step can
stop, the result of an operation inside a step, and the state at power-on (R38, R324). -/

namespace Sys2Proof.Machine

/-- Memory: (address, byte) pairs, addresses strictly rising. An address that is not listed holds
no value: nobody has written it and INITIAL_MEMORY gives it none (R11, R38, decision D22, log 3). -/
abbrev Memory := List Host.Cell

/-- One access that touched a device address (R69, R74): the value read from the environment or
the value handed to it. -/
structure DeviceAccess where
  addr : Word
  width : Width
  access : AccessKind
  value : Word
deriving DecidableEq, Repr

/-- The state. The first seven fields are the architecture's (R20), `platform` holds the parameters
of R8, the last three are the model's own. -/
structure State where
  /-- Stack pointer (R21, R22). -/
  sp : Word
  /-- Base pointer (R23). -/
  bp : Word
  /-- Instruction pointer (R24, R25). -/
  ip : Word
  /-- Flag register (R26, R27). -/
  fr : Word
  /-- Interrupt register (R30); on `MarkII_L`, which has none, 0 and unused (log 33). -/
  ir : Word
  /-- The hidden halt bit (R36). -/
  halted : Bool
  /-- Memory (R34). -/
  mem : Memory
  /-- VARIANT, MUL_CARRY_PRODUCT, DIVMOD_CONVENTION, MEMORY_MAP and BUS_ERROR (R8). -/
  platform : Platform
  /-- PIN_EVENTS: the signals of the coming boundaries, the next one first (decision D15). -/
  pins : List Pins
  /-- How many free values have been drawn (log 30). -/
  draws : Nat
  /-- The accesses made to device addresses, the newest first (R69, log 10). -/
  device : List DeviceAccess
deriving DecidableEq, Repr

/-! ## Updates of one field -/

/-- The state with `sp` replaced. -/
def State.setSp (s : State) (v : Word) : State := { s with sp := v }

/-- The state with `bp` replaced. -/
def State.setBp (s : State) (v : Word) : State := { s with bp := v }

/-- The state with `ip` replaced. -/
def State.setIp (s : State) (v : Word) : State := { s with ip := v }

/-- The state with `fr` replaced. -/
def State.setFr (s : State) (v : Word) : State := { s with fr := v }

/-- The state with `ir` replaced. -/
def State.setIr (s : State) (v : Word) : State := { s with ir := v }

/-- The state with `halted` replaced. -/
def State.setHalted (s : State) (v : Bool) : State := { s with halted := v }

/-- The state with `mem` replaced. -/
def State.setMem (s : State) (v : Memory) : State := { s with mem := v }

/-- The state with `pins` replaced. -/
def State.setPins (s : State) (v : List Pins) : State := { s with pins := v }

/-- The state with `draws` replaced. -/
def State.setDraws (s : State) (v : Nat) : State := { s with draws := v }

/-- The state with `device` replaced. -/
def State.setDevice (s : State) (v : List DeviceAccess) : State := { s with device := v }

/-! ## Why a step stops -/

/-- The faults. Each ends the run and leaves no state (R12). A fault is safe where the spec calls
the behaviour undefined: the model says nothing of what the hardware then does. -/
inductive Fault where
  /-- A word access or fetch at an odd address (R65, U2). Safe. -/
  | unaligned
  /-- An executed instruction whose command value is reserved (R101, U3). Safe. -/
  | reservedCommand
  /-- An opcode word with bit 15 = 1, at its fetch (R92, U4). Safe. -/
  | reservedBit15
  /-- An odd value written to SP, BP or IP (R22 to R24, R245, U5). Safe. -/
  | oddPointer
  /-- A reserved bit of FR left at 1 by FRSET, SETIP or ADDIP (R28, U6). Safe. -/
  | frReservedBits
  /-- INTR with a reserved bit of IR (R32, U7). Safe. -/
  | irReservedBits
  /-- CPUID with an input that is not zero (R180, U9). Safe. -/
  | cpuidNonzeroInput
  /-- INTR executed on `MarkII_L` (R242, U10). Safe. -/
  | intrOnMark2L
  /-- DIV or MOD by zero on `MarkII_L` (R205, U11). Safe. -/
  | divideByZero
  /-- A read or fetch of a byte that holds no value (R11, U1, log 3). Safe. -/
  | undefinedMemory
  /-- A write to a ROM byte that BUS_ERROR does not answer (R74, U20). Safe. -/
  | romWrite
  /-- An access to an unmapped byte that BUS_ERROR does not answer (R74, U20). Safe. -/
  | unmapped
  /-- A BUS signal during an interrupt entry or the reset-vector fetch (R264, U18). Safe. -/
  | busDuringEntry
deriving DecidableEq, Repr

/-- The refusals. -/
inductive Refusal where
  /-- Raised by an arm of exec for an instruction without a meaning; no arm does. Safe. -/
  | notModelled (mnemonic : String)
deriving DecidableEq, Repr

/-- What an operation inside a step answers. -/
inductive Res (α : Type) where
  /-- It completed. -/
  | ok (a : α) (s : State)
  /-- The platform answered one of its accesses with the BUS signal; the state is the one at that
  access (R264). -/
  | bus (s : State)
  /-- It met undefined behaviour or a model fault. -/
  | stop (f : Fault)
deriving DecidableEq, Repr

/-- One operation after another. -/
def Res.andThen {α β : Type} (r : Res α) (k : α → State → Res β) : Res β :=
  match r with
  | .ok a s => k a s
  | .bus s => .bus s
  | .stop f => .stop f

/-! ## Power-on -/

/-- The state at power-on of a machine with these parameters and this INITIAL_MEMORY (R38, R324).
SP, BP and IP are "Undefined" in the source: 0 is the model's choice (log 1). IR starts at 0x0001
on `MarkII`; on `MarkII_L` the run begins with RST signalled at the first boundary instead. -/
def State.powerOn (p : Platform) (image : Memory) : State :=
  { sp := 0#16
    bp := 0#16
    ip := 0#16
    fr := 0x0000#16
    ir := if p.variant = .markII then 0x0001#16 else 0x0000#16
    halted := false
    mem := image
    platform := p
    pins := if p.variant = .markII then [] else [{ rst := true, nmi := false, irq := false }]
    draws := 0
    device := [] }

/-- The machine right after power-on: a `MarkII` with the default parameters (R8, log 4, log 5) and
no byte of memory given a value. -/
def State.reset : State := State.powerOn Platform.default []

end Sys2Proof.Machine
end

