-- ==== Sys2Proof/Machine/Memory.lean ====
section
/-! DEFINITION. The memory as a list of cells in one canonical form: reading a byte, writing a
byte, the two bytes of a word (20_memory.md R60 to R63). -/

namespace Sys2Proof.Machine

/-- The byte at an address; none where no value stands (log 3). -/
def memByte : Memory → Nat → Option Byte
  | [], _ => none
  | (k, b) :: rest, a => if a = k then some b else memByte rest a

/-- The memory with the byte at one address replaced. -/
def memSetByte : Memory → Nat → Byte → Memory
  | [], a, v => [(a, v)]
  | (k, b) :: rest, a, v =>
    if a < k then (a, v) :: (k, b) :: rest
    else if a = k then (a, v) :: rest
    else (k, b) :: memSetByte rest a v

/-- The word whose low byte stands at `a` and whose high byte stands at the next address (R62). -/
def memWord (m : Memory) (a : Word) : Option Word :=
  match memByte m a.toNat, memByte m (a + 1#16).toNat with
  | some lo, some hi => some (joinBytes hi lo)
  | _, _ => none

/-- The memory with the word at `a` replaced, low byte first (R62). -/
def memSetWord (m : Memory) (a : Word) (v : Word) : Memory :=
  memSetByte (memSetByte m a.toNat (lowByte v)) (a + 1#16).toNat (highByte v)

/-- Bytes stored one after another from an address, modulo 65536 (R72). -/
def memSetBytes : Memory → Word → List Byte → Memory
  | m, _, [] => m
  | m, a, b :: bs => memSetBytes (memSetByte m a.toNat b) (a + 1#16) bs

/-- The addresses rise strictly, start at `lo` or above, and lie in the 64 KiB space (R34). -/
def memRising : Nat → Memory → Bool
  | _, [] => true
  | lo, (k, _) :: rest => decide (lo ≤ k) && decide (k < 65536) && memRising (k + 1) rest

/-- The canonical form. An unlisted address holds no value, so no entry can repeat it. -/
def Memory.wf (m : Memory) : Bool := memRising 0 m

end Sys2Proof.Machine
end

