-- ==== Sys2Proof/Machine/Flags.lean ====
section
/-! DEFINITION. Every flag computation of the machine: single bits of FR and IR, the execution
conditions (40_execution_model.md R125), the flag modification step (R140), the carries of ADD, SUB
and MUL (43_arithmetic.md R200 to R202), and the reserved bits of FR and IR (10_state.md R28, R32). -/

namespace Sys2Proof.Machine

/-! ## Single bits -/

/-- Bit 0 is set: no address of a word access (R65), no legal value of SP, BP or IP (R22 to R24). -/
def isOdd (a : Word) : Bool := a.getLsbD 0

/-- The word with bit `n` alone set: the source's `1 << n`. -/
def bitWord (n : Nat) : Word := 1#16 <<< n

/-- The word with bit `n` set or cleared. -/
def setBit (w : Word) (n : Nat) (b : Bool) : Word :=
  if b then w ||| bitWord n else w &&& ~~~bitWord n

/-- FR[0] (R26). -/
def zFlag (fr : Word) : Bool := fr.getLsbD 0

/-- FR[1] (R26). -/
def nFlag (fr : Word) : Bool := fr.getLsbD 1

/-- FR[2] (R26). -/
def cFlag (fr : Word) : Bool := fr.getLsbD 2

/-- FR[3] (R26). -/
def ceFlag (fr : Word) : Bool := fr.getLsbD 3

/-- FR with the carry replaced. -/
def setC (fr : Word) (b : Bool) : Word := setBit fr 2 b

/-! ## Conditions and flag modification -/

/-- `isExecuted` (R93, R125, R126). -/
def condHolds (c : Cond) (fr : Word) : Bool :=
  match c with
  | .always => true
  | .zero => zFlag fr
  | .nonzero => !zFlag fr
  | .greater => !zFlag fr && !nFlag fr
  | .less => nFlag fr
  | .gequal => zFlag fr || !nFlag fr
  | .lequal => zFlag fr || nFlag fr
  | .overflow => cFlag fr

/-- The flag modification step (R140): Z and N from the output, nothing else. -/
def modifyFlags (flg : Bool) (output fr : Word) : Word :=
  if flg then setBit (setBit fr 0 (output == 0#16)) 1 (output.getLsbD 15) else fr

/-! ## The arithmetic of ADD, SUB and MUL -/

/-- The carry-in of ADD and SUB, `C & CE` (R207). -/
def carryIn (fr : Word) : Nat := if cFlag fr && ceFlag fr then 1 else 0

/-- The unbounded sum of ADD (R200). -/
def addSum (a b fr : Word) : Nat := a.toNat + b.toNat + carryIn fr

/-- C after ADD: bit 16 of the sum (R200). -/
def addCarry (a b fr : Word) : Bool := decide (65536 ≤ addSum a b fr)

/-- The unbounded difference of SUB (R201). -/
def subDiff (a b fr : Word) : Int := (a.toNat : Int) - (b.toNat : Int) - (carryIn fr : Int)

/-- C after SUB: the borrow (R201, decision D5). -/
def subBorrow (a b fr : Word) : Bool := decide (subDiff a b fr < 0)

/-- The virtual 32-bit result of MUL (R202, decision D6). -/
def mulProduct (m : MulCarry) (a b : Word) : BitVec 32 :=
  match m with
  | .signed => BitVec.ofInt 32 (a.toInt * b.toInt)
  | .unsigned => BitVec.ofNat 32 (a.toNat * b.toNat)

/-- C after MUL: some bit of the upper half of the 32-bit result is set (R202, R207). -/
def mulCarryOut (m : MulCarry) (a b : Word) : Bool :=
  (mulProduct m a b).extractLsb' 16 16 != 0#16

/-! ## Reserved bits -/

/-- The reserved bits of FR: [15:8], and on `MarkII_L` [7:4] too (R28). -/
def frReserved (v : Variant) : Word :=
  match v with
  | .markII => 0xFF00#16
  | .markIIL => 0xFFF0#16

/-- The reserved bits of IR: [3] and [15:8] (R32). -/
def irReserved : Word := 0xFF08#16

end Sys2Proof.Machine
end

