-- ==== Sys2Proof/Machine/Ops.lean ====
section
/-! DEFINITION. The named operations over memory, stack and registers: free values, the access
primitives with MEMORY_MAP and BUS_ERROR (20_memory.md R60 to R74; 60_exceptions.md R264), push, pop
and peek (10_state.md R21), `trigger` (R266), taking an interrupt (R270, R271) and the transfer that
returns from one (R240, R275), reset (R321, R323), and the boundary phase (R270). -/

namespace Sys2Proof.Machine

/-! ## Free values -/

/-- Draw the next free value (log 30). -/
def draw (s : State) : Res Word := .ok (Config.freeWord s.draws) (s.setDraws (s.draws + 1))

/-! ## The platform's answers -/

/-- What stands at an address: the first region that holds it decides, RAM where none does (R8). -/
def kindIn : List Region → Nat → RegionKind
  | [], _ => .ram
  | r :: rs, a => if r.base ≤ a ∧ a < r.base + r.size then r.kind else kindIn rs a

/-- What stands at an address of this machine. -/
def kindAt (s : State) (a : Nat) : RegionKind := kindIn s.platform.map a

/-- One rule of BUS_ERROR holds for an access. -/
def busRuleHolds (a : Word) (w : Width) (k : AccessKind) (r : BusRule) : Bool :=
  decide (r.base ≤ a.toNat) && decide (a.toNat < r.base + r.size) && r.width == w && r.access == k

/-- The platform answers this access with the BUS signal (R264). `MarkII_L` has no BUS interrupt
(R260), so nothing is signalled there (log 7). DESIGN CHOICE: an access that is answered so reaches no
device, so the four primitives below make no draw and no record for it (log 34). -/
def busSignalled (s : State) (a : Word) (w : Width) (k : AccessKind) : Bool :=
  s.platform.variant == .markII && s.platform.busErrors.any (busRuleHolds a w k)

/-- An access that touched a device and was not answered with BUS is recorded (R69, log 10, log 34). -/
def note (s : State) (a : Word) (w : Width) (k : AccessKind) (v : Word) : State :=
  s.setDevice ({ addr := a, width := w, access := k, value := v } :: s.device)

/-! ## Access primitives -/

/-- The byte a read finds at an address: the environment's on a device, the memory's on RAM and ROM;
none where the byte holds no value. -/
def cellRead (s : State) (fromDevice : Byte) (a : Word) : Option Byte :=
  match kindAt s a.toNat with
  | .device => some fromDevice
  | .ram => memByte s.mem a.toNat
  | .rom => memByte s.mem a.toNat
  | .unmapped => none

/-- `MemRead(a, 1)`, the data read of LOAD8 (R63, R66, R69, R74; answered with BUS: log 34). -/
def readByte (a : Word) (s : State) : Res Byte :=
  if busSignalled s a .byte .read then .bus s
  else
    match kindAt s a.toNat with
    | .unmapped => .stop .unmapped
    | .device =>
      let b := lowByte (Config.freeWord s.draws)
      .ok b (note (s.setDraws (s.draws + 1)) a .byte .read (b.zeroExtend 16))
    | .ram | .rom =>
      match memByte s.mem a.toNat with
      | some b => .ok b s
      | none => .stop .undefinedMemory

/-- One of the two bytes of a word at `a` is of this kind. -/
def wordTouches (s : State) (a : Word) (k : RegionKind) : Bool :=
  kindAt s a.toNat == k || kindAt s (a + 1#16).toNat == k

/-- `MemRead(a, 2)` as a data read, or `Fetch(a)` (R62, R64, R65, R69, R74): one access, and one
draw for it if a byte of it is a device's; none if it is answered with BUS (log 34). -/
def readWord (k : AccessKind) (a : Word) (s : State) : Res Word :=
  if isOdd a then .stop .unaligned
  else if busSignalled s a .word k then .bus s
  else if wordTouches s a .unmapped then .stop .unmapped
  else
    let d := Config.freeWord s.draws
    match cellRead s (lowByte d) a, cellRead s (highByte d) (a + 1#16) with
    | some lo, some hi =>
      if wordTouches s a .device then
        .ok (joinBytes hi lo) (note (s.setDraws (s.draws + 1)) a .word k (joinBytes hi lo))
      else .ok (joinBytes hi lo) s
    | _, _ => .stop .undefinedMemory

/-- The memory after a byte is stored at an address that is neither ROM nor unmapped: a device keeps
no byte of its own in memory. -/
def cellWrite (s : State) (m : Memory) (a : Word) (b : Byte) : Memory :=
  if kindAt s a.toNat = .ram then memSetByte m a.toNat b else m

/-- `MemWrite(a, 1, b)` (R63, R66, R69, R74; answered with BUS: log 34). -/
def writeByte (a : Word) (b : Byte) (s : State) : Res Unit :=
  if busSignalled s a .byte .write then .bus s
  else
    match kindAt s a.toNat with
    | .unmapped => .stop .unmapped
    | .rom => .stop .romWrite
    | .device => .ok () (note s a .byte .write (b.zeroExtend 16))
    | .ram => .ok () (s.setMem (memSetByte s.mem a.toNat b))

/-- `MemWrite(a, 2, v)` (R62, R65, R69, R74): low byte at `a`, high byte at the next address. A device
is not told of a write that is answered with BUS (log 34). -/
def writeWord (a : Word) (v : Word) (s : State) : Res Unit :=
  if isOdd a then .stop .unaligned
  else if busSignalled s a .word .write then .bus s
  else if wordTouches s a .unmapped then .stop .unmapped
  else if wordTouches s a .rom then .stop .romWrite
  else
    let m := cellWrite s (cellWrite s s.mem a (lowByte v)) (a + 1#16) (highByte v)
    if wordTouches s a .device then .ok () (note (s.setMem m) a .word .write v)
    else .ok () (s.setMem m)

/-! ## The stack (R21) -/

/-- `push(v)`: SP goes down by 2, then the word is stored there. -/
def push (v : Word) (s : State) : Res Unit :=
  writeWord (s.sp - 2#16) v (s.setSp (s.sp - 2#16))

/-- `peek()`: the word at SP. -/
def peek (s : State) : Res Word := readWord .read s.sp s

/-- `pop()`: the word at SP, then SP goes up by 2. -/
def pop (s : State) : Res Word :=
  (readWord .read s.sp s).andThen fun v t => .ok v (t.setSp (t.sp + 2#16))

/-! ## Pointer and flag register writes -/

/-- IP is written; an odd value is undefined behaviour (R24, R245, decision D11). -/
def writeIp (v : Word) (s : State) : Res Unit :=
  if isOdd v then .stop .oddPointer else .ok () (s.setIp v)

/-- SP is written; an odd value is undefined behaviour (R22, decision D11). -/
def writeSp (v : Word) (s : State) : Res Unit :=
  if isOdd v then .stop .oddPointer else .ok () (s.setSp v)

/-- BP is written; an odd value is undefined behaviour (R23, decision D11). -/
def writeBp (v : Word) (s : State) : Res Unit :=
  if isOdd v then .stop .oddPointer else .ok () (s.setBp v)

/-- FR is written as data; leaving a reserved bit at 1 is undefined behaviour (R28, D12). -/
def writeFr (v : Word) (s : State) : Res Unit :=
  if v &&& frReserved s.platform.variant = 0#16 then .ok () (s.setFr v) else .stop .frReservedBits

/-! ## Interrupts (`MarkII` only, R260) -/

/-- `trigger(n)`: a hardware source sets its pending bit unless it is masked (R266). -/
def trigger (n : Nat) (s : State) : State :=
  if n < 4 ∨ s.fr.getLsbD n = true then s.setIr (setBit s.ir n true) else s

/-- Taking interrupt `n` (R270, R271): `1 << n` and IP are pushed, IP becomes the table entry at
2n, a maskable interrupt is masked, and the halt ends. -/
def enterInterrupt (n : Nat) (s : State) : Res Unit :=
  (push (bitWord n) s).andThen fun _ s1 =>
  (push s1.ip s1).andThen fun _ s2 =>
  (readWord .fetch (BitVec.ofNat 16 (2 * n)) s2).andThen fun v s3 =>
  (writeIp v s3).andThen fun _ s4 =>
  .ok () ((s4.setFr (if 4 ≤ n then setBit s4.fr n false else s4.fr)).setHalted false)

/-- The transfer of SETIP and ADDIP (R240, R241): IP is set and FR is or-ed; with the two words an
entry pushed it is the return from an interrupt (R275). -/
def transfer (target frBits : Word) (s : State) : Res Unit :=
  (writeIp target s).andThen fun _ t => writeFr (t.fr ||| frBits) t

/-- One turn of the dispatch loop for interrupt `n` (R270): a pending bit is cleared, and the
interrupt is entered unless it is masked. -/
def serve (n : Nat) (s : State) : Res Unit :=
  if s.ir.getLsbD n then
    let t := s.setIr (setBit s.ir n false)
    if n < 4 ∨ t.fr.getLsbD n = true then enterInterrupt n t else .ok () t
  else .ok () s

/-- The dispatch loop over the interrupts `n` to 1, the highest first (R270, R272). Nothing inside
it sets a pending bit, so going down once over the bits is the source's `while IR != 0`. -/
def dispatchDown : Nat → State → Res Unit
  | 0, s => .ok () s
  | n + 1, s => (serve (n + 1) s).andThen fun _ t => dispatchDown n t

/-! ## Reset -/

/-- What both reset sequences do besides choosing IP (R321, R323): FR and the halt are cleared. SP and
BP become undefined in the source; the model names 0 for them, as at power-on (log 1, log 2). -/
def resetRegisters (s : State) : State :=
  (((s.setFr 0#16).setHalted false).setSp 0#16).setBp 0#16

/-- The reset sequence of the `MarkII` (R321): IP from the word at 0x0000, IR cleared. -/
def resetMarkII (s : State) : Res Unit :=
  (readWord .fetch 0#16 s).andThen fun v t =>
  (writeIp v t).andThen fun _ u => .ok () ((resetRegisters u).setIr 0#16)

/-- The reset sequence of the `MarkII_L` (R323): IP becomes 0x0000 itself. -/
def resetMarkIIL (s : State) : State := (resetRegisters s).setIp 0#16

/-! ## The boundary phase (R120, R270) -/

/-- No signal at a boundary. -/
def noPins : Pins := { rst := false, nmi := false, irq := false }

/-- The signals of this boundary (PIN_EVENTS, decision D15). -/
def pinsNow (s : State) : Pins := s.pins.headD noPins

/-- The environment's part of a boundary of the `MarkII` (R262, R263, R267). -/
def samplePins (p : Pins) (s : State) : State :=
  let s1 := if p.rst then trigger 0 s else s
  let s2 := if p.nmi then trigger 1 s1 else s1
  if p.irq then trigger 7 s2 else s2

/-- A BUS signal during the boundary phase has no defined outcome (R264, U18). -/
def noBus {α : Type} (r : Res α) : Res α :=
  match r with
  | .bus _ => .stop .busDuringEntry
  | r => r

/-- The boundary phase after the environment has acted: reset first, then the dispatch loop. -/
def boundaryMarkII (s : State) : Res Unit :=
  (if s.ir.getLsbD 0 then resetMarkII s else .ok () s).andThen fun _ t => dispatchDown 15 t

/-- The boundary phase of a step (R120 (1), R270, R323). -/
def boundary (s : State) : Res Unit :=
  let t := s.setPins s.pins.tail
  match s.platform.variant with
  | .markII => noBus (boundaryMarkII (samplePins (pinsNow s) t))
  | .markIIL => .ok () (if (pinsNow s).rst then resetMarkIIL t else t)

/-! ## BUS (R264) -/

/-- The BUS signal cancels the instruction that began in `start` (R264, decision D16): registers,
halt and memory are as they were then, and IR[2] is set. What the environment has already been asked
and told stays (log 8). -/
def cancel (start now : State) : State :=
  ((start.setIr (setBit start.ir 2 true)).setDraws now.draws).setDevice now.device

/-! ## The opcode fetch (R123, R124) -/

/-- The opcode word at IP, decoded. IP is advanced by the instruction itself. -/
def fetchOpcode (s : State) : Res Instr :=
  (readWord .fetch s.ip s).andThen fun w t =>
  match decodeWord w with
  | .ok i => .ok i t
  | .error _ => .stop .reservedBit15

/-! ## Placing an instruction where the next step fetches it -/

/-- Where `placeNext` puts an instruction when a `MarkII` is about to be reset: the address it then
stores as the reset vector. -/
def placedEntry : Word := 0x0100#16

/-- The state with bytes stored where the next step fetches its instruction. A pending reset is left
pending: the `MarkII` gets a reset vector that names them, the `MarkII_L` gets them at 0x0000. With
no reset pending, whatever would keep the step from fetching at IP (a halt, a pending interrupt, a
signal at this boundary, an odd IP) is taken away. -/
def placeNext (s : State) (bytes : List Byte) : State :=
  match s.platform.variant with
  | .markII =>
    if s.ir.getLsbD 0 || (pinsNow s).rst then
      s.setMem (memSetBytes (memSetWord s.mem 0#16 placedEntry) placedEntry bytes)
    else
      let at0 := setBit s.ip 0 false
      ((((s.setIp at0).setHalted false).setIr 0#16).setPins
        (match s.pins with | [] => [] | _ :: ps => noPins :: ps)).setMem
        (memSetBytes s.mem at0 bytes)
  | .markIIL =>
    if (pinsNow s).rst then s.setMem (memSetBytes s.mem 0#16 bytes)
    else
      let at0 := setBit s.ip 0 false
      ((s.setIp at0).setHalted false).setMem (memSetBytes s.mem at0 bytes)

end Sys2Proof.Machine
end

