-- ==== Sys2Proof/Machine/Operands.lean ====
section
/-! DEFINITION. The operand forms and the course of one instruction: taking the inputs
(40_execution_model.md R130 to R133), the effective addresses of GET and SET (41_data_movement.md
R167), the output (R138), the skip (R127), and the sequence every instruction follows (R121). -/

namespace Sys2Proof.Machine

/-! ## Inputs -/

/-- `fetchInput` (R130). -/
def fetchInput (k : Input) (s : State) : Res Word :=
  match k with
  | .zero => .ok 0#16 s
  | .imm => (readWord .fetch s.ip s).andThen fun v t => .ok v (t.setIp (t.ip + 2#16))
  | .peek => peek s
  | .pop => pop s

/-- The frame address `BP + 2 * input0` of GET and SET, modulo 65536 (R161, R162, R72). -/
def frameAddr (bp index : Word) : Word := bp + 2#16 * index

/-! ## Output and skip -/

/-- The output behaviour (R138). -/
def handleOutput (out : Bool) (output : Word) (s : State) : Res Unit :=
  if out then push output s else .ok () s

/-- The immediates of a skipped instruction are stepped over, not read (R127). -/
def skipImmediates (c : Cfg) (s : State) : State :=
  s.setIp (s.ip + BitVec.ofNat 16 (2 * c.immWords))

/-! ## One instruction -/

/-- A command (R136): from `input0`, `input1` and the state after they were taken to the output and
the state it leaves. -/
abbrev Command := Word → Word → State → Res Word

/-- A command that only computes its output. -/
def pureCommand (f : Word → Word → Word) : Command := fun a b s => .ok (f a b) s

/-- The executed instruction after its opcode word (R120 (5)): inputs, command, output, flags. -/
def runBody (c : Cfg) (cmd : Command) (s : State) : Res Unit :=
  (fetchInput c.in0 s).andThen fun a s0 =>
  (fetchInput c.in1 s0).andThen fun b s1 =>
  (cmd a b s1).andThen fun o s2 =>
  (handleOutput c.out o s2).andThen fun _ s3 =>
  .ok () (s3.setFr (modifyFlags c.flg o s3.fr))

/-- The instruction after its opcode word: executed or skipped (R125, R127). -/
def runOrSkip (c : Cfg) (cmd : Command) (s : State) : Res Unit :=
  if condHolds c.cond s.fr then runBody c cmd s else .ok () (skipImmediates c s)

/-- The outcome of an instruction that began in `start`: complete, cancelled by BUS (R264), or
stopped. -/
def settle (start : State) (r : Res Unit) : Host.Outcome State Fault Refusal :=
  match r with
  | .ok _ t => .next t
  | .bus t => .next (cancel start t)
  | .stop f => .fault f

/-- One instruction whose opcode word stands at IP and has been fetched (R121): IP moves past it,
then it is executed or skipped. -/
def instruction (c : Cfg) (cmd : Command) (s : State) : Host.Outcome State Fault Refusal :=
  settle s (runOrSkip c cmd (s.setIp (s.ip + 2#16)))

end Sys2Proof.Machine
end

