-- ==== Sys2Proof/Machine/Arithmetic.lean ====
section
/-! DEFINITION. Arithmetic (43_arithmetic.md): ADD, SUB, MUL, DIV, MOD and the division by zero (R205). -/

namespace Sys2Proof.Machine

/-- ADD: the low 16 bits of the sum with carry-in; C is bit 16 (R200). -/
def cmdAdd : Command := fun a b s =>
  .ok (BitVec.ofNat 16 (addSum a b s.fr)) (s.setFr (setC s.fr (addCarry a b s.fr)))

/-- SUB: the difference modulo 65536; C is the borrow (R201). -/
def cmdSub : Command := fun a b s =>
  .ok (BitVec.ofInt 16 (subDiff a b s.fr)) (s.setFr (setC s.fr (subBorrow a b s.fr)))

/-- MUL: the low 16 bits of the product; C by MUL_CARRY_PRODUCT (R202). -/
def cmdMul : Command := fun a b s =>
  .ok (a * b) (s.setFr (setC s.fr (mulCarryOut s.platform.mulCarry a b)))

/-- The quotient of DIVMOD_CONVENTION (R203, decision D7); none where it leaves it unspecified. -/
def quotient (d : DivMod) (a b : Int) : Option Int :=
  match d with
  | .truncate => some (a.tdiv b)
  | .floor => some (a.fdiv b)
  | .euclid => some (a / b)
  | .unspecified => if a < 0 ∨ b < 0 then none else some (a / b)

/-- `divide_by_zero()` (R205, decision D9): ARITH is triggered and the output is a free value; on
`MarkII_L`, which has no interrupt to take, undefined behaviour. -/
def divideByZero (s : State) : Res Word :=
  match s.platform.variant with
  | .markII => draw (trigger 4 s)
  | .markIIL => .stop .divideByZero

/-- DIV and MOD outside division by zero: `f` gives the result from dividend, divisor and quotient;
-32768 by -1 and an unspecified quotient give a free value (R203, R204, D8). -/
def divideWith (f : Int → Int → Int → Int) (a b : Word) (s : State) : Res Word :=
  if b = 0#16 then divideByZero s
  else if a = 0x8000#16 ∧ b = 0xFFFF#16 then draw s
  else
    match quotient s.platform.divMod a.toInt b.toInt with
    | some q => .ok (BitVec.ofInt 16 (f a.toInt b.toInt q)) s
    | none => draw s

/-- DIV: the quotient (R203). -/
def cmdDiv : Command := fun a b s => divideWith (fun _ _ q => q) a b s

/-- MOD: the remainder that goes with DIV's quotient (R204). -/
def cmdMod : Command := fun a b s => divideWith (fun x y q => x - y * q) a b s

/-- ADD (R200). -/
def execAdd (c : Cfg) (s : State) : Host.Outcome State Fault Refusal :=
  instruction c cmdAdd s

/-- SUB (R201). -/
def execSub (c : Cfg) (s : State) : Host.Outcome State Fault Refusal :=
  instruction c cmdSub s

/-- MUL (R202). -/
def execMul (c : Cfg) (s : State) : Host.Outcome State Fault Refusal :=
  instruction c cmdMul s

/-- DIV (R203). -/
def execDiv (c : Cfg) (s : State) : Host.Outcome State Fault Refusal :=
  instruction c cmdDiv s

/-- MOD (R204). -/
def execMod (c : Cfg) (s : State) : Host.Outcome State Fault Refusal :=
  instruction c cmdMod s

end Sys2Proof.Machine
end

