-- ==== Sys2Proof/Machine/Control.lean ====
section
/-! DEFINITION. Control transfer and interrupt request (45_control.md): SETIP, ADDIP, INTR. At the command IP is the
address of the next instruction in memory (R136). -/

namespace Sys2Proof.Machine

/-- SETIP: IP becomes `input0`, FR is or-ed with `input1`, the output is the old IP (R240). -/
def cmdSetip : Command := fun a b s => (transfer a b s).andThen fun _ t => .ok s.ip t

/-- ADDIP: IP becomes IP plus `input0` modulo 65536, the rest as SETIP (R241). -/
def cmdAddip : Command := fun a b s => (transfer (s.ip + a) b s).andThen fun _ t => .ok s.ip t

/-- INTR: IR is or-ed with `input0`, which is the output; there is no IR on `MarkII_L`, and the
reserved bits must be 0 (R242, decisions D23, D27). -/
def cmdIntr : Command := fun a _ s =>
  match s.platform.variant with
  | .markIIL => .stop .intrOnMark2L
  | .markII =>
    if a &&& irReserved = 0#16 then .ok a (s.setIr (s.ir ||| a)) else .stop .irReservedBits

/-- SETIP (R240). -/
def execSetip (c : Cfg) (s : State) : Host.Outcome State Fault Refusal :=
  instruction c cmdSetip s

/-- ADDIP (R241). -/
def execAddip (c : Cfg) (s : State) : Host.Outcome State Fault Refusal :=
  instruction c cmdAddip s

/-- INTR (R242). -/
def execIntr (c : Cfg) (s : State) : Host.Outcome State Fault Refusal :=
  instruction c cmdIntr s

end Sys2Proof.Machine
end

