-- ==== Sys2Proof/Machine/DataMovement.lean ====
section
/-! DEFINITION. Data movement (41_data_movement.md): COPY, GET, SET, STORE8, STORE16, LOAD8, LOAD16. -/

namespace Sys2Proof.Machine

/-- GET: the word at `BP + 2 * input0` (R161). -/
def cmdGet : Command := fun a _ s => readWord .read (frameAddr s.bp a) s

/-- SET: `input1` is stored at `BP + 2 * input0` and is the output (R162). -/
def cmdSet : Command := fun a b s =>
  (writeWord (frameAddr s.bp a) b s).andThen fun _ t => .ok b t

/-- STORE8: the low byte of `input0` is stored at `input1` and is the output (R163, D4). -/
def cmdStore8 : Command := fun a b s =>
  (writeByte b (lowByte a) s).andThen fun _ t => .ok (a &&& 0x00FF#16) t

/-- STORE16: `input0` is stored at `input1` and is the output (R164). -/
def cmdStore16 : Command := fun a b s =>
  (writeWord b a s).andThen fun _ t => .ok a t

/-- LOAD8: the byte at `input0`, widened with zeros (R165, D4). -/
def cmdLoad8 : Command := fun a _ s =>
  (readByte a s).andThen fun v t => .ok (v.zeroExtend 16) t

/-- LOAD16: the word at `input0` (R166). -/
def cmdLoad16 : Command := fun a _ s => readWord .read a s

/-- COPY (R160): the output is `input0`. -/
def execCopy (c : Cfg) (s : State) : Host.Outcome State Fault Refusal :=
  instruction c (pureCommand fun a _ => a) s

/-- GET (R161). -/
def execGet (c : Cfg) (s : State) : Host.Outcome State Fault Refusal :=
  instruction c cmdGet s

/-- SET (R162). -/
def execSet (c : Cfg) (s : State) : Host.Outcome State Fault Refusal :=
  instruction c cmdSet s

/-- STORE8 (R163). -/
def execStore8 (c : Cfg) (s : State) : Host.Outcome State Fault Refusal :=
  instruction c cmdStore8 s

/-- STORE16 (R164). -/
def execStore16 (c : Cfg) (s : State) : Host.Outcome State Fault Refusal :=
  instruction c cmdStore16 s

/-- LOAD8 (R165). -/
def execLoad8 (c : Cfg) (s : State) : Host.Outcome State Fault Refusal :=
  instruction c cmdLoad8 s

/-- LOAD16 (R166). -/
def execLoad16 (c : Cfg) (s : State) : Host.Outcome State Fault Refusal :=
  instruction c cmdLoad16 s

end Sys2Proof.Machine
end

