-- ==== Sys2Proof/Machine/Logic.lean ====
section
/-! DEFINITION. Logic, sign extension, rotates, byte swap and shifts (44_logic_shift.md): AND, OR, XOR, NOT,
SIGNEXT, ROL, ROR, BSWAP, ASR, LSL, LSR. Pure functions of the inputs; none touches C. -/

namespace Sys2Proof.Machine

/-- SIGNEXT: the low byte, its top bit copied upward (R224). -/
def signExtByte (a : Word) : Word :=
  if a.getLsbD 7 then 0xFF00#16 ||| a else a &&& 0x00FF#16

/-- ROL: `concat(input0[14:0], input0[15])` (R225). -/
def rotateLeft1 (a : Word) : Word := a.extractLsb' 0 15 ++ a.extractLsb' 15 1

/-- ROR: `concat(input0[0], input0[15:1])` (R226). -/
def rotateRight1 (a : Word) : Word := a.extractLsb' 0 1 ++ a.extractLsb' 1 15

/-- BSWAP: `concat(input0[7:0], input0[15:8])` (R227). -/
def swapBytes (a : Word) : Word := a.extractLsb' 0 8 ++ a.extractLsb' 8 8

/-- ASR: `concat(input0[15], input0[15:1])` (R228). -/
def shiftRightArith1 (a : Word) : Word := a.extractLsb' 15 1 ++ a.extractLsb' 1 15

/-- LSL: `concat(input0[14:0], '0')` (R229). -/
def shiftLeft1 (a : Word) : Word := a.extractLsb' 0 15 ++ 0#1

/-- LSR: `concat('0', input0[15:1])` (R230). -/
def shiftRight1 (a : Word) : Word := 0#1 ++ a.extractLsb' 1 15

/-- AND (R220). -/
def execAnd (c : Cfg) (s : State) : Host.Outcome State Fault Refusal :=
  instruction c (pureCommand fun a b => a &&& b) s

/-- OR (R221). -/
def execOr (c : Cfg) (s : State) : Host.Outcome State Fault Refusal :=
  instruction c (pureCommand fun a b => a ||| b) s

/-- XOR (R222). -/
def execXor (c : Cfg) (s : State) : Host.Outcome State Fault Refusal :=
  instruction c (pureCommand fun a b => a ^^^ b) s

/-- NOT (R223). -/
def execNot (c : Cfg) (s : State) : Host.Outcome State Fault Refusal :=
  instruction c (pureCommand fun a _ => ~~~a) s

/-- SIGNEXT (R224). -/
def execSignext (c : Cfg) (s : State) : Host.Outcome State Fault Refusal :=
  instruction c (pureCommand fun a _ => signExtByte a) s

/-- ROL (R225). -/
def execRol (c : Cfg) (s : State) : Host.Outcome State Fault Refusal :=
  instruction c (pureCommand fun a _ => rotateLeft1 a) s

/-- ROR (R226). -/
def execRor (c : Cfg) (s : State) : Host.Outcome State Fault Refusal :=
  instruction c (pureCommand fun a _ => rotateRight1 a) s

/-- BSWAP (R227). -/
def execBswap (c : Cfg) (s : State) : Host.Outcome State Fault Refusal :=
  instruction c (pureCommand fun a _ => swapBytes a) s

/-- ASR (R228). -/
def execAsr (c : Cfg) (s : State) : Host.Outcome State Fault Refusal :=
  instruction c (pureCommand fun a _ => shiftRightArith1 a) s

/-- LSL (R229). -/
def execLsl (c : Cfg) (s : State) : Host.Outcome State Fault Refusal :=
  instruction c (pureCommand fun a _ => shiftLeft1 a) s

/-- LSR (R230). -/
def execLsr (c : Cfg) (s : State) : Host.Outcome State Fault Refusal :=
  instruction c (pureCommand fun a _ => shiftRight1 a) s

end Sys2Proof.Machine
end

