-- ==== Sys2Proof/Machine/Reserved.lean ====
section
/-! DEFINITION. The 30 reserved command values 1 and 35 to 63 (30_encoding.md R101). Executing one is undefined
behaviour, met after the inputs have been taken (R136, R144); one whose condition is false is skipped
like any other instruction (R127, decision D10). -/

namespace Sys2Proof.Machine

/-- An executed reserved command (R101, R136). -/
def cmdReserved : Command := fun _ _ _ => .stop .reservedCommand

/-- Reserved command value 1 (R101). -/
def execReserved1 (c : Cfg) (s : State) : Host.Outcome State Fault Refusal :=
  instruction c cmdReserved s

/-- Reserved command value 35 (R101). -/
def execReserved35 (c : Cfg) (s : State) : Host.Outcome State Fault Refusal :=
  instruction c cmdReserved s

/-- Reserved command value 36 (R101). -/
def execReserved36 (c : Cfg) (s : State) : Host.Outcome State Fault Refusal :=
  instruction c cmdReserved s

/-- Reserved command value 37 (R101). -/
def execReserved37 (c : Cfg) (s : State) : Host.Outcome State Fault Refusal :=
  instruction c cmdReserved s

/-- Reserved command value 38 (R101). -/
def execReserved38 (c : Cfg) (s : State) : Host.Outcome State Fault Refusal :=
  instruction c cmdReserved s

/-- Reserved command value 39 (R101). -/
def execReserved39 (c : Cfg) (s : State) : Host.Outcome State Fault Refusal :=
  instruction c cmdReserved s

/-- Reserved command value 40 (R101). -/
def execReserved40 (c : Cfg) (s : State) : Host.Outcome State Fault Refusal :=
  instruction c cmdReserved s

/-- Reserved command value 41 (R101). -/
def execReserved41 (c : Cfg) (s : State) : Host.Outcome State Fault Refusal :=
  instruction c cmdReserved s

/-- Reserved command value 42 (R101). -/
def execReserved42 (c : Cfg) (s : State) : Host.Outcome State Fault Refusal :=
  instruction c cmdReserved s

/-- Reserved command value 43 (R101). -/
def execReserved43 (c : Cfg) (s : State) : Host.Outcome State Fault Refusal :=
  instruction c cmdReserved s

/-- Reserved command value 44 (R101). -/
def execReserved44 (c : Cfg) (s : State) : Host.Outcome State Fault Refusal :=
  instruction c cmdReserved s

/-- Reserved command value 45 (R101). -/
def execReserved45 (c : Cfg) (s : State) : Host.Outcome State Fault Refusal :=
  instruction c cmdReserved s

/-- Reserved command value 46 (R101). -/
def execReserved46 (c : Cfg) (s : State) : Host.Outcome State Fault Refusal :=
  instruction c cmdReserved s

/-- Reserved command value 47 (R101). -/
def execReserved47 (c : Cfg) (s : State) : Host.Outcome State Fault Refusal :=
  instruction c cmdReserved s

/-- Reserved command value 48 (R101). -/
def execReserved48 (c : Cfg) (s : State) : Host.Outcome State Fault Refusal :=
  instruction c cmdReserved s

/-- Reserved command value 49 (R101). -/
def execReserved49 (c : Cfg) (s : State) : Host.Outcome State Fault Refusal :=
  instruction c cmdReserved s

/-- Reserved command value 50 (R101). -/
def execReserved50 (c : Cfg) (s : State) : Host.Outcome State Fault Refusal :=
  instruction c cmdReserved s

/-- Reserved command value 51 (R101). -/
def execReserved51 (c : Cfg) (s : State) : Host.Outcome State Fault Refusal :=
  instruction c cmdReserved s

/-- Reserved command value 52 (R101). -/
def execReserved52 (c : Cfg) (s : State) : Host.Outcome State Fault Refusal :=
  instruction c cmdReserved s

/-- Reserved command value 53 (R101). -/
def execReserved53 (c : Cfg) (s : State) : Host.Outcome State Fault Refusal :=
  instruction c cmdReserved s

/-- Reserved command value 54 (R101). -/
def execReserved54 (c : Cfg) (s : State) : Host.Outcome State Fault Refusal :=
  instruction c cmdReserved s

/-- Reserved command value 55 (R101). -/
def execReserved55 (c : Cfg) (s : State) : Host.Outcome State Fault Refusal :=
  instruction c cmdReserved s

/-- Reserved command value 56 (R101). -/
def execReserved56 (c : Cfg) (s : State) : Host.Outcome State Fault Refusal :=
  instruction c cmdReserved s

/-- Reserved command value 57 (R101). -/
def execReserved57 (c : Cfg) (s : State) : Host.Outcome State Fault Refusal :=
  instruction c cmdReserved s

/-- Reserved command value 58 (R101). -/
def execReserved58 (c : Cfg) (s : State) : Host.Outcome State Fault Refusal :=
  instruction c cmdReserved s

/-- Reserved command value 59 (R101). -/
def execReserved59 (c : Cfg) (s : State) : Host.Outcome State Fault Refusal :=
  instruction c cmdReserved s

/-- Reserved command value 60 (R101). -/
def execReserved60 (c : Cfg) (s : State) : Host.Outcome State Fault Refusal :=
  instruction c cmdReserved s

/-- Reserved command value 61 (R101). -/
def execReserved61 (c : Cfg) (s : State) : Host.Outcome State Fault Refusal :=
  instruction c cmdReserved s

/-- Reserved command value 62 (R101). -/
def execReserved62 (c : Cfg) (s : State) : Host.Outcome State Fault Refusal :=
  instruction c cmdReserved s

/-- Reserved command value 63 (R101). -/
def execReserved63 (c : Cfg) (s : State) : Host.Outcome State Fault Refusal :=
  instruction c cmdReserved s

end Sys2Proof.Machine
end

