-- ==== Sys2Proof/Machine/System.lean ====
section
/-! DEFINITION. System and register commands (42_system_registers.md): CPUID, HALT, FRGET, FRSET, BPGET, BPSET,
SPGET, SPSET. A register is read after the inputs have been taken (R136, decision D2). -/

namespace Sys2Proof.Machine

/-- CPUID: both inputs must be zero; the output announces no feature (R180, decision D13). -/
def cmdCpuid : Command := fun a b s =>
  if a = 0#16 ∧ b = 0#16 then .ok 0x0000#16 s else .stop .cpuidNonzeroInput

/-- HALT: the processor stops after this instruction; the output is a free value (R181, U16). -/
def cmdHalt : Command := fun _ _ s => draw (s.setHalted true)

/-- FRGET: FR without the bits of `input1` (R183). -/
def cmdFrget : Command := fun _ b s => .ok (s.fr &&& ~~~b) s

/-- FRSET: FR under the mask `input1` of bits to keep; the output is the old FR (R184). -/
def cmdFrset : Command := fun a b s =>
  (writeFr ((a &&& ~~~b) ||| (s.fr &&& b)) s).andThen fun _ t => .ok s.fr t

/-- BPGET: BP (R185). -/
def cmdBpget : Command := fun _ _ s => .ok s.bp s

/-- BPSET: BP becomes `input0`; the output is the old BP (R186). -/
def cmdBpset : Command := fun a _ s => (writeBp a s).andThen fun _ t => .ok s.bp t

/-- SPGET: SP (R187). -/
def cmdSpget : Command := fun _ _ s => .ok s.sp s

/-- SPSET: SP becomes `input0`; the output is the SP left by the inputs (R188). -/
def cmdSpset : Command := fun a _ s => (writeSp a s).andThen fun _ t => .ok s.sp t

/-- CPUID (R180). -/
def execCpuid (c : Cfg) (s : State) : Host.Outcome State Fault Refusal :=
  instruction c cmdCpuid s

/-- HALT (R181). -/
def execHalt (c : Cfg) (s : State) : Host.Outcome State Fault Refusal :=
  instruction c cmdHalt s

/-- FRGET (R183). -/
def execFrget (c : Cfg) (s : State) : Host.Outcome State Fault Refusal :=
  instruction c cmdFrget s

/-- FRSET (R184). -/
def execFrset (c : Cfg) (s : State) : Host.Outcome State Fault Refusal :=
  instruction c cmdFrset s

/-- BPGET (R185). -/
def execBpget (c : Cfg) (s : State) : Host.Outcome State Fault Refusal :=
  instruction c cmdBpget s

/-- BPSET (R186). -/
def execBpset (c : Cfg) (s : State) : Host.Outcome State Fault Refusal :=
  instruction c cmdBpset s

/-- SPGET (R187). -/
def execSpget (c : Cfg) (s : State) : Host.Outcome State Fault Refusal :=
  instruction c cmdSpget s

/-- SPSET (R188). -/
def execSpset (c : Cfg) (s : State) : Host.Outcome State Fault Refusal :=
  instruction c cmdSpset s

end Sys2Proof.Machine
end

