-- ==== Sys2Proof/Machine/Dispatch.lean ====
section
/-! DEFINITION. exec: one arm per constructor of Instr, in the order of the opcode table. The state
it is given has IP at the opcode word of the instruction. -/

namespace Sys2Proof.Machine

def exec (i : Instr) (s : State) : Host.Outcome State Fault Refusal :=
  match i with
  | .copy c => Sys2Proof.Machine.execCopy c s
  | .reserved1 c => Sys2Proof.Machine.execReserved1 c s
  | .get c => Sys2Proof.Machine.execGet c s
  | .set c => Sys2Proof.Machine.execSet c s
  | .store8 c => Sys2Proof.Machine.execStore8 c s
  | .store16 c => Sys2Proof.Machine.execStore16 c s
  | .load8 c => Sys2Proof.Machine.execLoad8 c s
  | .load16 c => Sys2Proof.Machine.execLoad16 c s
  | .cpuid c => Sys2Proof.Machine.execCpuid c s
  | .halt c => Sys2Proof.Machine.execHalt c s
  | .frget c => Sys2Proof.Machine.execFrget c s
  | .frset c => Sys2Proof.Machine.execFrset c s
  | .bpget c => Sys2Proof.Machine.execBpget c s
  | .bpset c => Sys2Proof.Machine.execBpset c s
  | .spget c => Sys2Proof.Machine.execSpget c s
  | .spset c => Sys2Proof.Machine.execSpset c s
  | .add c => Sys2Proof.Machine.execAdd c s
  | .sub c => Sys2Proof.Machine.execSub c s
  | .mul c => Sys2Proof.Machine.execMul c s
  | .div c => Sys2Proof.Machine.execDiv c s
  | .mod c => Sys2Proof.Machine.execMod c s
  | .and c => Sys2Proof.Machine.execAnd c s
  | .or c => Sys2Proof.Machine.execOr c s
  | .xor c => Sys2Proof.Machine.execXor c s
  | .not c => Sys2Proof.Machine.execNot c s
  | .signext c => Sys2Proof.Machine.execSignext c s
  | .rol c => Sys2Proof.Machine.execRol c s
  | .ror c => Sys2Proof.Machine.execRor c s
  | .bswap c => Sys2Proof.Machine.execBswap c s
  | .asr c => Sys2Proof.Machine.execAsr c s
  | .lsl c => Sys2Proof.Machine.execLsl c s
  | .lsr c => Sys2Proof.Machine.execLsr c s
  | .setip c => Sys2Proof.Machine.execSetip c s
  | .addip c => Sys2Proof.Machine.execAddip c s
  | .intr c => Sys2Proof.Machine.execIntr c s
  | .reserved35 c => Sys2Proof.Machine.execReserved35 c s
  | .reserved36 c => Sys2Proof.Machine.execReserved36 c s
  | .reserved37 c => Sys2Proof.Machine.execReserved37 c s
  | .reserved38 c => Sys2Proof.Machine.execReserved38 c s
  | .reserved39 c => Sys2Proof.Machine.execReserved39 c s
  | .reserved40 c => Sys2Proof.Machine.execReserved40 c s
  | .reserved41 c => Sys2Proof.Machine.execReserved41 c s
  | .reserved42 c => Sys2Proof.Machine.execReserved42 c s
  | .reserved43 c => Sys2Proof.Machine.execReserved43 c s
  | .reserved44 c => Sys2Proof.Machine.execReserved44 c s
  | .reserved45 c => Sys2Proof.Machine.execReserved45 c s
  | .reserved46 c => Sys2Proof.Machine.execReserved46 c s
  | .reserved47 c => Sys2Proof.Machine.execReserved47 c s
  | .reserved48 c => Sys2Proof.Machine.execReserved48 c s
  | .reserved49 c => Sys2Proof.Machine.execReserved49 c s
  | .reserved50 c => Sys2Proof.Machine.execReserved50 c s
  | .reserved51 c => Sys2Proof.Machine.execReserved51 c s
  | .reserved52 c => Sys2Proof.Machine.execReserved52 c s
  | .reserved53 c => Sys2Proof.Machine.execReserved53 c s
  | .reserved54 c => Sys2Proof.Machine.execReserved54 c s
  | .reserved55 c => Sys2Proof.Machine.execReserved55 c s
  | .reserved56 c => Sys2Proof.Machine.execReserved56 c s
  | .reserved57 c => Sys2Proof.Machine.execReserved57 c s
  | .reserved58 c => Sys2Proof.Machine.execReserved58 c s
  | .reserved59 c => Sys2Proof.Machine.execReserved59 c s
  | .reserved60 c => Sys2Proof.Machine.execReserved60 c s
  | .reserved61 c => Sys2Proof.Machine.execReserved61 c s
  | .reserved62 c => Sys2Proof.Machine.execReserved62 c s
  | .reserved63 c => Sys2Proof.Machine.execReserved63 c s

end Sys2Proof.Machine
end

