-- ==== Sys2Proof/Machine/Step.lean ====
section
/-! DEFINITION. One step of the machine (40_execution_model.md R120): the boundary phase, then,
unless the processor is halted, one instruction. -/

namespace Sys2Proof.Machine

/-- One step (R120, R121, R122). -/
def step (s : State) : Host.Outcome State Fault Refusal :=
  match boundary s with
  | .stop f => .fault f
  | .bus _ => .fault .busDuringEntry
  | .ok _ t =>
    if t.halted then .next t
    else
      match fetchOpcode t with
      | .ok i u => exec i u
      | .bus u => .next (cancel t u)
      | .stop f => .fault f

/-- The state with the instruction the opcode table numbers `w` stored where `step` fetches its next
instruction (log 29). -/
def State.withFetchWord (s : State) (nbits w : Nat) : State := placeNext s (tableBytes nbits w)

end Sys2Proof.Machine
end

