-- ==== Sys2Proof/Safety.lean ====
section
/-! DEFINITION. The words the statements are written in: the invariant of the machine, when an
access is an ordinary one to plain memory and when it completes on a device too, and what an executed
instruction's inputs, output and flags come to when its accesses complete. -/

namespace Sys2Proof.Machine

/-! ## The invariant -/

/-- What every step keeps: memory in canonical form, IP, SP and BP even (R22 to R24; after a reset SP
and BP are even by the model's choice, log 2), the reserved bits of FR and IR zero (R28, R32), and no
IR on `MarkII_L` (R260). -/
def State.inv (s : State) : Bool :=
  s.mem.wf && !isOdd s.ip && !isOdd s.sp && !isOdd s.bp && (s.fr &&& frReserved s.platform.variant == 0#16) &&
    (s.ir &&& irReserved == 0#16) && (s.platform.variant == .markII || s.ir == 0#16)

/-! ## Ordinary accesses -/

/-- The byte address is RAM or ROM: a read of it has no effect. -/
def readable (s : State) (a : Word) : Bool :=
  kindAt s a.toNat == .ram || kindAt s a.toNat == .rom

/-- The word an ordinary 16-bit access of kind `k` reads at an even address of plain memory that is
not answered with BUS; none where the access is not ordinary or a byte holds no value. -/
def plainWord (s : State) (k : AccessKind) (a : Word) : Option Word :=
  if !isOdd a && !busSignalled s a .word k && readable s a && readable s (a + 1#16) then
    memWord s.mem a
  else none

/-- The byte an ordinary 8-bit read finds. -/
def plainByte (s : State) (a : Word) : Option Byte :=
  if !busSignalled s a .byte .read && readable s a then memByte s.mem a.toNat else none

/-- A 16-bit write at `a` is ordinary: even address, RAM, not answered with BUS. -/
def wordWritable (s : State) (a : Word) : Bool :=
  !isOdd a && !busSignalled s a .word .write && kindAt s a.toNat == .ram &&
    kindAt s (a + 1#16).toNat == .ram

/-- An 8-bit write at `a` is ordinary: RAM, not answered with BUS. -/
def byteWritable (s : State) (a : Word) : Bool :=
  !busSignalled s a .byte .write && kindAt s a.toNat == .ram

/-! ## Accesses that complete, devices included -/

/-- The word an access of kind `k` reads at an even address that is not answered with BUS: a byte of
RAM or ROM is the one that stands there, a byte of a device is the environment's, one free value for
the access (R69, log 9, log 10); none where a byte is unmapped or holds no value. -/
def readableWord (s : State) (k : AccessKind) (a : Word) : Option Word :=
  if !isOdd a && !busSignalled s a .word k then
    match cellRead s (lowByte (Config.freeWord s.draws)) a,
        cellRead s (highByte (Config.freeWord s.draws)) (a + 1#16) with
    | some lo, some hi => some (joinBytes hi lo)
    | _, _ => none
  else none

/-- The state after that read: changed only if a device was asked. -/
def afterRead (s : State) (k : AccessKind) (a v : Word) : State :=
  if wordTouches s a .device then note (s.setDraws (s.draws + 1)) a .word k v else s

/-- The byte a read finds, on memory or on a device. -/
def readableByte (s : State) (a : Word) : Option Byte :=
  if !busSignalled s a .byte .read then cellRead s (lowByte (Config.freeWord s.draws)) a else none

/-- The state after that read. -/
def afterReadByte (s : State) (a : Word) (b : Byte) : State :=
  if kindAt s a.toNat = .device then
    note (s.setDraws (s.draws + 1)) a .byte .read (b.zeroExtend 16)
  else s

/-- The byte address takes a write: RAM or a device. -/
def storable (s : State) (a : Word) : Bool :=
  kindAt s a.toNat == .ram || kindAt s a.toNat == .device

/-- A 16-bit write at `a` completes: even address, not answered with BUS, each byte RAM or a device. -/
def wordStorable (s : State) (a : Word) : Bool :=
  !isOdd a && !busSignalled s a .word .write && storable s a && storable s (a + 1#16)

/-- The state after that write: the bytes of RAM are stored, a device is told the word. -/
def storedWord (a v : Word) (s : State) : State :=
  let t := s.setMem (cellWrite s (cellWrite s s.mem a (lowByte v)) (a + 1#16) (highByte v))
  if wordTouches s a .device then note t a .word .write v else t

/-- An 8-bit write at `a` completes: not answered with BUS, RAM or a device. -/
def byteStorable (s : State) (a : Word) : Bool :=
  !busSignalled s a .byte .write && storable s a

/-- The state after that write. -/
def storedByte (a : Word) (b : Byte) (s : State) : State :=
  if kindAt s a.toNat = .device then note s a .byte .write (b.zeroExtend 16)
  else s.setMem (memSetByte s.mem a.toNat b)

/-- `x` is one of the two byte addresses of the word at `a`. -/
def inWord (a : Word) (x : Nat) : Prop := x = a.toNat ∨ x = (a + 1#16).toNat

/-- `t` is `s` but for what the environment was asked and told: the draws and the device accesses. -/
def SameButDevice (s t : State) : Prop := t = (s.setDraws t.draws).setDevice t.device

/-! ## The inputs of an instruction whose opcode word stands at IP (R130 to R132) -/

/-- IP after an input is taken. -/
def ipAfter (k : Input) (ip : Word) : Word :=
  match k with
  | .imm => ip + 2#16
  | _ => ip

/-- SP after an input is taken. -/
def spAfter (k : Input) (sp : Word) : Word :=
  match k with
  | .pop => sp + 2#16
  | _ => sp

/-- Taking an input in state `s`, from memory or a device (R130): its value and the state after it;
none where the read does not complete. -/
def takeInput (k : Input) (s : State) : Option (Word × State) :=
  match k with
  | .zero => some (0#16, s)
  | .imm => (readableWord s .fetch s.ip).map fun v =>
      (v, (afterRead s .fetch s.ip v).setIp (s.ip + 2#16))
  | .peek => (readableWord s .read s.sp).map fun v => (v, afterRead s .read s.sp v)
  | .pop => (readableWord s .read s.sp).map fun v =>
      (v, (afterRead s .read s.sp v).setSp (s.sp + 2#16))

/-- `input0` and then `input1` of an instruction at IP (R131), and the state after them. -/
def takeInputs (c : Cfg) (s : State) : Option (Word × Word × State) :=
  (takeInput c.in0 (s.setIp (s.ip + 2#16))).bind fun x =>
    (takeInput c.in1 x.2).map fun y => (x.1, y.1, y.2)

/-- The state in which the command is evaluated (R136): IP behind the instruction, SP after the
pops, nothing else changed. -/
def afterInputs (c : Cfg) (s : State) : State :=
  (s.setIp (ipAfter c.in1 (ipAfter c.in0 (s.ip + 2#16)))).setSp (spAfter c.in1 (spAfter c.in0 s.sp))

/-- The condition of the instruction at IP holds, its inputs are `a` and `b`, and `t` is the state after
they are taken: `afterInputs c s`, but for what a device was asked. -/
abbrev Executes (c : Cfg) (s : State) (a b : Word) (t : State) : Prop :=
  condHolds c.cond s.fr = true ∧ takeInputs c s = some (a, b, t)

/-! ## The output and the flags (R138, R140) -/

/-- The output is dropped, or its push is a write that completes. -/
def canOutput (c : Cfg) (t : State) : Bool := !c.out || wordStorable t (t.sp - 2#16)

/-- The output pushed, if it is. -/
def withOutput (c : Cfg) (o : Word) (t : State) : State :=
  if c.out then storedWord (t.sp - 2#16) o (t.setSp (t.sp - 2#16)) else t

/-- The state at the end of an instruction whose command left `t` and output `o`. -/
def concluded (c : Cfg) (o : Word) (t : State) : State :=
  (withOutput c o t).setFr (modifyFlags c.flg o t.fr)

/-- What is left of an instruction after the BUS answer in state `u` (R264, decision D16, log 8, log 34):
the state in which it began, with IR[2] set, and what the environment was asked and told before. -/
def busCancelled (s u : State) : State :=
  { s with ir := s.ir ||| 0x0004#16, draws := u.draws, device := u.device }

end Sys2Proof.Machine
end

