-- ==== Sys2Proof/Certificates/Slice0/Obligations.lean ====
section
/-! DEFINITION. The statements for the provers. A statement about an instruction takes the state in
which its opcode word stands at IP and has been decoded. -/

open Sys2Proof Sys2Proof.Machine

/-! ## Encoding -/

/-- A few opcode words, written out from the field layout of R90, decode as R91 says, and a word with
bit 15 set is no instruction (R92). -/
def Obligations.SampleWordsDecode : Prop :=
  decodeWord 0b0_000000_0_0_00_00_000#16 = .ok (.copy ⟨.always, .zero, .zero, false, false⟩) ∧
  decodeWord 0b0_010000_1_1_11_11_000#16 = .ok (.add ⟨.always, .pop, .pop, true, true⟩) ∧
  decodeWord 0b0_100001_0_0_00_01_010#16 = .ok (.addip ⟨.nonzero, .imm, .zero, false, false⟩) ∧
  decodeWord 0b0_001010_1_0_01_00_000#16 = .ok (.frget ⟨.always, .zero, .imm, false, true⟩) ∧
  decodeWord 0b0_010010_1_0_11_10_000#16 = .ok (.mul ⟨.always, .peek, .pop, false, true⟩) ∧
  decodeWord 0b0_111111_0_0_01_01_001#16 = .ok (.reserved63 ⟨.zero, .imm, .imm, false, false⟩) ∧
  decodeWord 0b1_000000_0_0_00_00_000#16 = .error .reservedBit15

/-- Decoding the bytes of any instruction with its immediates gives back the instruction, its immediates
in order, and the bytes behind it: no bit of an encoding is dropped (R91, R98, R99). -/
def Obligations.DecodingUndoesEncoding : Prop :=
  ∀ (i : Instr) (imms : List Word) (rest : List Byte), imms.length = i.cfg.immWords →
    decode (encodeBytes i imms ++ rest) = .ok (i, imms, rest)

/-- Every opcode word with bit 15 clear is the encoding of the one instruction it decodes to, and no
other word decodes (R92, R104). -/
def Obligations.EncodingUndoesDecoding : Prop :=
  ∀ w : Word,
    (w.getLsbD 15 = true → decodeWord w = .error .reservedBit15) ∧
    (w.getLsbD 15 = false → ∃ i, decodeWord w = .ok i ∧ encodeWord i = w)

/-! ## The configuration part -/

/-- The conditions test Z, N and C as the table says (R93, R125). -/
def Obligations.ConditionsTestTheFlags : Prop :=
  ∀ fr : Word,
    let z := fr.getLsbD 0
    let n := fr.getLsbD 1
    let c := fr.getLsbD 2
    (condHolds (Cond.ofBits 0#3) fr = true) ∧
    (condHolds (Cond.ofBits 1#3) fr = true ↔ z = true) ∧
    (condHolds (Cond.ofBits 2#3) fr = true ↔ z = false) ∧
    (condHolds (Cond.ofBits 3#3) fr = true ↔ z = false ∧ n = false) ∧
    (condHolds (Cond.ofBits 4#3) fr = true ↔ n = true) ∧
    (condHolds (Cond.ofBits 5#3) fr = true ↔ z = true ∨ n = false) ∧
    (condHolds (Cond.ofBits 6#3) fr = true ↔ z = true ∨ n = true) ∧
    (condHolds (Cond.ofBits 7#3) fr = true ↔ c = true)

/-- The flag step writes Z and N from the output when enabled and leaves every other bit, C, CE and I
among them (R140). -/
def Obligations.FlagStepWritesZeroAndNegative : Prop :=
  ∀ (o fr : Word),
    ((modifyFlags true o fr).getLsbD 0 = true ↔ o = 0x0000#16) ∧
    (modifyFlags true o fr).getLsbD 1 = o.getLsbD 15 ∧
    (∀ n, 2 ≤ n → (modifyFlags true o fr).getLsbD n = fr.getLsbD n) ∧
    modifyFlags false o fr = fr

/-- An instruction whose condition is false only moves IP past its opcode word and immediates, whatever
its command and whatever stands in memory (R127); that a reserved command is skipped in the same way is
the model's choice, decision D10 (R101, log 12). -/
def Obligations.SkippedInstructionOnlyMovesIp : Prop :=
  ∀ (i : Instr) (s : State), condHolds i.cfg.cond s.fr = false →
    exec i s = .next { s with ip := s.ip + BitVec.ofNat 16 i.length }

/-- `input0` is taken before `input1`, for every command: what `in1` takes is taken from the state that
`in0` left. With two pops `input0` is the top of the stack and `input1` the word one below it; with two
immediates they are the first and the second word behind the opcode (R131). Said of `runBody`, which
every instruction runs behind its opcode word, and of STORE16, whose inputs play different parts. -/
def Obligations.InputsAreTakenInOrder : Prop :=
  ∀ (c : Cfg) (s : State) (x y : Word),
    (∀ (cmd : Command) (u v : State),
      fetchInput c.in0 s = .ok x u → fetchInput c.in1 u = .ok y v →
      runBody c cmd s = runBody { c with in0 := .zero, in1 := .zero } (fun _ _ => cmd x y) v) ∧
    (c.in0 = .pop → c.in1 = .pop → plainWord s .read s.sp = some x →
      plainWord s .read (s.sp + 2#16) = some y →
      (∀ cmd : Command, runBody c cmd s =
        runBody { c with in0 := .zero, in1 := .zero } (fun _ _ => cmd x y)
          { s with sp := s.sp + 4#16 }) ∧
      (condHolds c.cond s.fr = true → c.out = false → wordWritable s y = true →
        exec (.store16 c) s = .next (concluded c x
          { s with ip := s.ip + 2#16, sp := s.sp + 4#16, mem := memSetWord s.mem y x }))) ∧
    (c.in0 = .imm → c.in1 = .imm → plainWord s .fetch s.ip = some x →
      plainWord s .fetch (s.ip + 2#16) = some y →
      ∀ cmd : Command, runBody c cmd s =
        runBody { c with in0 := .zero, in1 := .zero } (fun _ _ => cmd x y)
          { s with ip := s.ip + 4#16 }) ∧
    (c.in0 = .imm → c.in1 = .imm → plainWord s .fetch (s.ip + 2#16) = some x →
      plainWord s .fetch (s.ip + 4#16) = some y →
      condHolds c.cond s.fr = true → c.out = false → wordWritable s y = true →
      exec (.store16 c) s = .next (concluded c x
        { s with ip := s.ip + 6#16, mem := memSetWord s.mem y x }))

/-! ## Data movement -/

/-- COPY completes with `input0` as output and nothing else changed (R160). Inputs and output may be on
a device, as decision D28 has it (log 9, log 10). -/
def Obligations.CopyCompletes : Prop :=
  ∀ (c : Cfg) (s t : State) (a b : Word),
    encodeWord (.copy c) &&& 0xFE00#16 = 0x0000#16 ∧
    (Executes c s a b t → canOutput c t = true →
      exec (.copy c) s = .next (concluded c a t))

/-- GET completes with the word at `BP + 2 * input0`, which wraps modulo 65536 (R72, decision D20, log
24); with an odd BP it is undefined behaviour (R161). BP always holds a value in the model (log 1, log
2). Inputs, output and access may be on a device, as decision D28 has it (log 9, log 10). -/
def Obligations.GetCompletes : Prop :=
  ∀ (c : Cfg) (s t : State) (a b v : Word), Executes c s a b t →
    (readableWord t .read (s.bp + 2#16 * a) = some v → canOutput c t = true →
      exec (.get c) s = .next (concluded c v (afterRead t .read (s.bp + 2#16 * a) v))) ∧
    (plainWord s .read (s.bp + 2#16 * a) = some v → canOutput c t = true →
      exec (.get c) s = .next (concluded c v t)) ∧
    (isOdd s.bp = true → exec (.get c) s = .fault .unaligned)

/-- SET completes: `input1` is stored at `BP + 2 * input0`, which wraps modulo 65536 (R72, decision D20,
log 24), and is the output; with an odd BP it is undefined behaviour (R162). BP always holds a value in
the model (log 1, log 2). Inputs, output and access may be on a device, as decision D28 has it (log 9,
log 10). -/
def Obligations.SetCompletes : Prop :=
  ∀ (c : Cfg) (s t : State) (a b : Word), Executes c s a b t →
    (wordStorable s (s.bp + 2#16 * a) = true → canOutput c t = true →
      exec (.set c) s = .next (concluded c b (storedWord (s.bp + 2#16 * a) b t))) ∧
    (wordWritable s (s.bp + 2#16 * a) = true → canOutput c t = true →
      exec (.set c) s = .next (concluded c b
        { t with mem := memSetWord s.mem (s.bp + 2#16 * a) b })) ∧
    (isOdd s.bp = true → exec (.set c) s = .fault .unaligned)

/-- STORE8 and LOAD8 complete at any address, odd or even: one byte becomes the low byte of `input0`,
which is the output, and the byte at `input0` is widened with zeros (R163, R165; the narrowing and the
widening are decision D4, log 21). Inputs, output and access may be on a device, as decision D28 has it
(log 9, log 10). -/
def Obligations.ByteCommandsComplete : Prop :=
  ∀ (c : Cfg) (s t : State) (a b : Word), Executes c s a b t → canOutput c t = true →
    (byteStorable s b = true →
      exec (.store8 c) s =
        .next (concluded c (a &&& 0x00FF#16) (storedByte b (a.extractLsb' 0 8) t))) ∧
    (byteWritable s b = true →
      exec (.store8 c) s = .next (concluded c (a &&& 0x00FF#16)
        { t with mem := memSetByte s.mem b.toNat (a.extractLsb' 0 8) })) ∧
    (∀ v : Byte, readableByte t a = some v →
      exec (.load8 c) s = .next (concluded c (BitVec.ofNat 16 v.toNat) (afterReadByte t a v))) ∧
    (∀ v : Byte, plainByte s a = some v →
      exec (.load8 c) s = .next (concluded c (BitVec.ofNat 16 v.toNat) t))

/-- STORE16 completes at an even address: the low byte of `input0` at `input1`, the high byte after it,
`input0` as output; an odd address is undefined behaviour (R164). Inputs, output and access may be on a
device, as decision D28 has it (log 9, log 10). -/
def Obligations.Store16Completes : Prop :=
  ∀ (c : Cfg) (s t : State) (a b : Word),
    encodeWord (.store16 c) &&& 0xFE00#16 = 0x0A00#16 ∧
    (Executes c s a b t →
      (wordStorable s b = true → canOutput c t = true →
        exec (.store16 c) s = .next (concluded c a (storedWord b a t))) ∧
      (wordWritable s b = true → canOutput c t = true →
        exec (.store16 c) s = .next (concluded c a
          { t with
            mem := memSetByte (memSetByte s.mem b.toNat (a.extractLsb' 0 8)) (b.toNat + 1)
              (a.extractLsb' 8 8) })) ∧
      (isOdd b = true → exec (.store16 c) s = .fault .unaligned))

/-- LOAD16 completes at an even address with the word there; an odd address is undefined behaviour
(R166). Inputs, output and access may be on a device, as decision D28 has it (log 9, log 10). -/
def Obligations.Load16Completes : Prop :=
  ∀ (c : Cfg) (s t : State) (a b v : Word),
    encodeWord (.load16 c) &&& 0xFE00#16 = 0x0E00#16 ∧
    (Executes c s a b t →
      (readableWord t .read a = some v → canOutput c t = true →
        exec (.load16 c) s = .next (concluded c v (afterRead t .read a v))) ∧
      (plainWord s .read a = some v → canOutput c t = true →
        exec (.load16 c) s = .next (concluded c v t)) ∧
      (isOdd a = true → exec (.load16 c) s = .fault .unaligned))

/-! ## System and register commands -/

/-- CPUID completes with output 0 when both inputs are 0; any other input is undefined behaviour by
decision D13 (R180, log 15). Inputs and output may be on a device, as decision D28 has it (log 9, log
10). -/
def Obligations.CpuidCompletes : Prop :=
  ∀ (c : Cfg) (s t : State) (a b : Word), Executes c s a b t →
    (a = 0#16 → b = 0#16 → canOutput c t = true →
      exec (.cpuid c) s = .next (concluded c 0x0000#16 t)) ∧
    (a ≠ 0#16 ∨ b ≠ 0#16 → exec (.cpuid c) s = .fault .cpuidNonzeroInput)

/-- HALT completes with the halt bit set; its output is a free value (R181, decision D14, log 16). The
statement holds for whatever value is drawn. Inputs and output may be on a device, as decision D28 has
it (log 9, log 10). -/
def Obligations.HaltCompletes : Prop :=
  ∀ (c : Cfg) (s t : State) (a b : Word), Executes c s a b t → canOutput c t = true →
    exec (.halt c) s = .next (concluded c (Config.freeWord t.draws)
      { t with halted := true, draws := t.draws + 1 })

/-- FRGET completes with FR without the bits of `input1`; FR itself changes by the flag step only
(R183). Inputs and output may be on a device, as decision D28 has it (log 9, log 10). -/
def Obligations.FrgetCompletes : Prop :=
  ∀ (c : Cfg) (s t : State) (a b : Word),
    encodeWord (.frget c) &&& 0xFE00#16 = 0x1400#16 ∧
    (Executes c s a b t → canOutput c t = true →
      exec (.frget c) s = .next (concluded c (s.fr &&& ~~~b) t))

/-- FRSET completes: FR takes `input0` where the mask `input1` is 0 and keeps itself where it is 1, the
output is the old FR, and the flag step then overwrites Z and N (R141, R184; the operator that joins the
two halves was lost in the source and restored by decision D3, log 23); leaving a reserved bit at 1 is
undefined behaviour by decision D12 (log 15). Inputs and output may be on a device, as decision D28 has
it (log 9, log 10). -/
def Obligations.FrsetCompletes : Prop :=
  ∀ (c : Cfg) (s t : State) (a b : Word), Executes c s a b t →
    let new := (a &&& ~~~b) ||| (s.fr &&& b)
    (new &&& frReserved s.platform.variant = 0#16 → canOutput c t = true →
      exec (.frset c) s = .next (concluded c s.fr { t with fr := new })) ∧
    (new &&& frReserved s.platform.variant ≠ 0#16 → exec (.frset c) s = .fault .frReservedBits)

/-- BPGET completes with BP (R185) and SPGET with the SP left by the inputs (R187, decision D2, log 22).
Both registers always hold a value in the model (log 1, log 2). Inputs and output may be on a device, as
decision D28 has it (log 9, log 10). -/
def Obligations.PointerReadsComplete : Prop :=
  ∀ (c : Cfg) (s t : State) (a b : Word), Executes c s a b t → canOutput c t = true →
    exec (.bpget c) s = .next (concluded c s.bp t) ∧
    exec (.spget c) s = .next (concluded c t.sp t)

/-- BPSET completes: BP becomes `input0` and the output is the old BP (R186); an odd value is undefined
behaviour by decision D11 (log 14). Inputs and output may be on a device, as decision D28 has it (log 9,
log 10). -/
def Obligations.BpsetCompletes : Prop :=
  ∀ (c : Cfg) (s t : State) (a b : Word), Executes c s a b t →
    (isOdd a = false → canOutput c t = true →
      exec (.bpset c) s = .next (concluded c s.bp { t with bp := a })) ∧
    (isOdd a = true → exec (.bpset c) s = .fault .oddPointer)

/-- SPSET completes: SP becomes `input0`, the output is the SP left by the inputs, and it is pushed onto
the new stack (R188, decision D2, log 22); an odd value is undefined behaviour by decision D11 (log 14).
Inputs and output may be on a device, as decision D28 has it (log 9, log 10). -/
def Obligations.SpsetCompletes : Prop :=
  ∀ (c : Cfg) (s t : State) (a b : Word), Executes c s a b t →
    (isOdd a = false → canOutput c { t with sp := a } = true →
      exec (.spset c) s = .next (concluded c t.sp { t with sp := a })) ∧
    (isOdd a = true → exec (.spset c) s = .fault .oddPointer)

/-! ## Arithmetic -/

/-- ADD completes with the low 16 bits of the sum with carry-in; C is bit 16 of the sum (R200, decision
D5, log 20). Inputs and output may be on a device, as decision D28 has it (log 9, log 10). -/
def Obligations.AddCompletes : Prop :=
  ∀ (c : Cfg) (s t : State) (a b : Word), Executes c s a b t → canOutput c t = true →
    let sum := a.toNat + b.toNat + (if s.fr.getLsbD 2 && s.fr.getLsbD 3 then 1 else 0)
    exec (.add c) s = .next (concluded c (BitVec.ofNat 16 (sum % 65536))
      { t with fr := setBit s.fr 2 (decide (65536 ≤ sum)) })

/-- SUB completes with the difference modulo 65536; C is the borrow by decision D5 (R201, log 20).
Inputs and output may be on a device, as decision D28 has it (log 9, log 10). -/
def Obligations.SubCompletes : Prop :=
  ∀ (c : Cfg) (s t : State) (a b : Word), Executes c s a b t → canOutput c t = true →
    let cin := if s.fr.getLsbD 2 && s.fr.getLsbD 3 then 1 else 0
    exec (.sub c) s = .next (concluded c (a - b - BitVec.ofNat 16 cin)
      { t with fr := setBit s.fr 2 (decide (a.toNat < b.toNat + cin)) })

/-- MUL completes with the low 16 bits of the product; C says, under the unsigned reading, that the
product exceeds 65535 and, under the signed one, that it is negative or exceeds 65535 (R202 (c);
MUL_CARRY_PRODUCT is decision D6, log 18). Inputs and output may be on a device, as decision D28 has it
(log 9, log 10). -/
def Obligations.MulCompletes : Prop :=
  ∀ (c : Cfg) (s t : State) (a b : Word), Executes c s a b t → canOutput c t = true →
    (s.platform.mulCarry = .unsigned →
      exec (.mul c) s = .next (concluded c (BitVec.ofNat 16 (a.toNat * b.toNat))
        { t with fr := setBit s.fr 2 (decide (65535 < a.toNat * b.toNat)) })) ∧
    (s.platform.mulCarry = .signed →
      exec (.mul c) s = .next (concluded c (BitVec.ofInt 16 (a.toInt * b.toInt))
        { t with
          fr := setBit s.fr 2
            (decide (a.toInt * b.toInt < 0) || decide (65535 < a.toInt * b.toInt)) }))

/-- DIV and MOD complete with the quotient and the remainder of the convention that the platform fixes,
C unchanged, whenever the divisor is not 0, the pair is not -32768 and -1, and the convention gives a
quotient (R203, R204; DIVMOD_CONVENTION is decision D7, log 19). Inputs and output may be on a device,
as decision D28 has it (log 9, log 10). -/
def Obligations.DivAndModComplete : Prop :=
  ∀ (c : Cfg) (s t : State) (a b : Word) (q : Int), Executes c s a b t →
    canOutput c t = true →
    b ≠ 0#16 → ¬ (a = 0x8000#16 ∧ b = 0xFFFF#16) →
    (match s.platform.divMod with
      | .truncate => q = a.toInt.tdiv b.toInt
      | .floor => q = a.toInt.fdiv b.toInt
      | .euclid => q = a.toInt / b.toInt
      | .unspecified => 0 ≤ a.toInt ∧ 0 < b.toInt ∧ q = a.toInt.tdiv b.toInt) →
    exec (.div c) s = .next (concluded c (BitVec.ofInt 16 q) t) ∧
    exec (.mod c) s =
      .next (concluded c (BitVec.ofInt 16 (a.toInt - b.toInt * q)) t)

/-- Where the spec leaves the result of DIV and MOD open (-32768 by -1; a negative operand under the
convention `unspecified`) they complete with a free value and no interrupt (R203, R204, decisions D7 and
D8, log 17). The statement holds for whatever value is drawn. Inputs and output may be on a device, as
decision D28 has it (log 9, log 10). -/
def Obligations.DivAndModOpenResultsAreFree : Prop :=
  ∀ (c : Cfg) (s t : State) (a b : Word), Executes c s a b t →
    canOutput c t = true →
    (a = 0x8000#16 ∧ b = 0xFFFF#16) ∨
      (s.platform.divMod = .unspecified ∧ b ≠ 0#16 ∧ (a.toInt < 0 ∨ b.toInt < 0)) →
    ∀ i ∈ [Instr.div c, .mod c],
      exec i s = .next (concluded c (Config.freeWord t.draws)
        { t with draws := t.draws + 1 })

/-- DIV and MOD by zero: on `MarkII` ARITH becomes pending if it is enabled and the instruction
completes with a free value; on `MarkII_L` it is undefined behaviour (R205, decision D9, log 17). Inputs
and output may be on a device, as decision D28 has it (log 9, log 10). -/
def Obligations.DivisionByZeroTriggersArith : Prop :=
  ∀ (c : Cfg) (s t : State) (a : Word), Executes c s a 0#16 t →
    canOutput c t = true → ∀ i ∈ [Instr.div c, .mod c],
      (s.platform.variant = .markII →
        exec i s = .next (concluded c (Config.freeWord t.draws)
          { t with
            draws := t.draws + 1
            ir := if s.fr.getLsbD 4 then s.ir ||| 0x0010#16 else s.ir })) ∧
      (s.platform.variant = .markIIL → exec i s = .fault .divideByZero)

/-- The outputs of DIV and MOD on the same inputs, wherever the convention gives a quotient, satisfy `a
= b * q + r` under the signed reading, the remainder is smaller than the divisor, and it has the sign
the convention gives it (R204 (b), (c); the conventions are decision D7, log 19). -/
def Obligations.QuotientAndRemainderBelongTogether : Prop :=
  ∀ (s : State) (a b : Word), b ≠ 0#16 → ¬ (a = 0x8000#16 ∧ b = 0xFFFF#16) →
    (s.platform.divMod = .unspecified → 0 ≤ a.toInt ∧ 0 ≤ b.toInt) →
    ∃ q r : Word, cmdDiv a b s = .ok q s ∧ cmdMod a b s = .ok r s ∧
      a.toInt = b.toInt * q.toInt + r.toInt ∧ |r.toInt| < |b.toInt| ∧
      (s.platform.divMod = .truncate →
        (0 ≤ a.toInt → 0 ≤ r.toInt) ∧ (a.toInt ≤ 0 → r.toInt ≤ 0)) ∧
      (s.platform.divMod = .floor →
        (0 < b.toInt → 0 ≤ r.toInt) ∧ (b.toInt < 0 → r.toInt ≤ 0)) ∧
      (s.platform.divMod = .euclid → 0 ≤ r.toInt) ∧
      (s.platform.divMod = .unspecified → 0 ≤ r.toInt)

/-! ## Logic and shifts -/

/-- AND, XOR and NOT complete with the bitwise result and change no flag but by the flag step (R220,
R222, R223). Inputs and output may be on a device, as decision D28 has it (log 9, log 10). -/
def Obligations.LogicCommandsComplete : Prop :=
  ∀ (c : Cfg) (s t : State) (a b : Word),
    (encodeWord (.and c) &&& 0xFE00#16 = 0x2A00#16 ∧
      encodeWord (.xor c) &&& 0xFE00#16 = 0x2E00#16 ∧
      encodeWord (.not c) &&& 0xFE00#16 = 0x3000#16) ∧
    (Executes c s a b t → canOutput c t = true →
      exec (.and c) s = .next (concluded c (a &&& b) t) ∧
      exec (.xor c) s = .next (concluded c (a ^^^ b) t) ∧
      exec (.not c) s = .next (concluded c (0xFFFF#16 - a) t))

/-- OR and SIGNEXT complete: the bitwise or, and the low byte sign extended (R221, R224; the operator
`|` of both rows was lost in the source and restored by decision D3, log 23). Inputs and output may be
on a device, as decision D28 has it (log 9, log 10). -/
def Obligations.OrAndSignextComplete : Prop :=
  ∀ (c : Cfg) (s t : State) (a b : Word), Executes c s a b t → canOutput c t = true →
    exec (.or c) s = .next (concluded c (a ||| b) t) ∧
    exec (.signext c) s = .next (concluded c ((a.extractLsb' 0 8).signExtend 16) t)

/-- The rotates, the byte swap and the one-bit shifts complete with the moved word and change no flag
but by the flag step (R225 to R230). Inputs and output may be on a device, as decision D28 has it (log
9, log 10). -/
def Obligations.ShiftCommandsComplete : Prop :=
  ∀ (c : Cfg) (s t : State) (a b : Word),
    (encodeWord (.rol c) &&& 0xFE00#16 = 0x3400#16 ∧
      encodeWord (.ror c) &&& 0xFE00#16 = 0x3600#16 ∧
      encodeWord (.bswap c) &&& 0xFE00#16 = 0x3800#16 ∧
      encodeWord (.asr c) &&& 0xFE00#16 = 0x3A00#16 ∧
      encodeWord (.lsl c) &&& 0xFE00#16 = 0x3C00#16 ∧
      encodeWord (.lsr c) &&& 0xFE00#16 = 0x3E00#16) ∧
    (Executes c s a b t → canOutput c t = true →
      exec (.rol c) s = .next (concluded c (a.rotateLeft 1) t) ∧
      exec (.ror c) s = .next (concluded c (a.rotateRight 1) t) ∧
      exec (.bswap c) s = .next (concluded c (a.rotateLeft 8) t) ∧
      exec (.asr c) s = .next (concluded c (a.sshiftRight 1) t) ∧
      exec (.lsl c) s = .next (concluded c (a <<< 1) t) ∧
      exec (.lsr c) s = .next (concluded c (a >>> 1) t))

/-! ## Control transfer and interrupt request -/

/-- SETIP completes: IP becomes `input0`, FR is or-ed with `input1` (the lost operator restored by
decision D3, log 23), the output is the address of the next instruction in memory (R240, decision D2,
log 22); an odd target and a reserved bit of FR are undefined behaviour by decisions D11 and D12 (log
14, log 15). Inputs and output may be on a device, as decision D28 has it (log 9, log 10). -/
def Obligations.SetipCompletes : Prop :=
  ∀ (c : Cfg) (s t : State) (a b : Word), Executes c s a b t →
    let clean := (s.fr ||| b) &&& frReserved s.platform.variant = 0#16
    (isOdd a = false → clean → canOutput c t = true →
      exec (.setip c) s = .next (concluded c (s.ip + BitVec.ofNat 16 (Instr.setip c).length)
        { t with ip := a, fr := s.fr ||| b })) ∧
    (isOdd a = true → exec (.setip c) s = .fault .oddPointer) ∧
    (isOdd a = false → ¬ clean → exec (.setip c) s = .fault .frReservedBits)

/-- ADDIP completes: IP becomes the address of the next instruction in memory plus `input0`, which wraps
modulo 65536 (R72, decision D20, log 24), the rest as SETIP (R241; FR is or-ed with `input1` by decision
D3, log 23; decisions D2, D11 and D12, log 22, log 14, log 15). Inputs and output may be on a device, as
decision D28 has it (log 9, log 10). -/
def Obligations.AddipCompletes : Prop :=
  ∀ (c : Cfg) (s t : State) (a b : Word), Executes c s a b t →
    let next := s.ip + BitVec.ofNat 16 (Instr.addip c).length
    let clean := (s.fr ||| b) &&& frReserved s.platform.variant = 0#16
    (isOdd (next + a) = false → clean → canOutput c t = true →
      exec (.addip c) s = .next (concluded c next
        { t with ip := next + a, fr := s.fr ||| b })) ∧
    (isOdd (next + a) = true → exec (.addip c) s = .fault .oddPointer) ∧
    (isOdd (next + a) = false → ¬ clean → exec (.addip c) s = .fault .frReservedBits)

/-- INTR completes on `MarkII`: IR is or-ed with `input0` (the lost operator restored by decision D3,
log 23), which is the output (R242). A reserved bit of IR and any INTR on `MarkII_L` are undefined
behaviour by decisions D23 and D27 (log 15). Inputs and output may be on a device, as decision D28 has
it (log 9, log 10). -/
def Obligations.IntrCompletes : Prop :=
  ∀ (c : Cfg) (s t : State) (a b : Word), Executes c s a b t →
    (s.platform.variant = .markII → a &&& 0xFF08#16 = 0#16 →
      canOutput c t = true →
      exec (.intr c) s = .next (concluded c a { t with ir := s.ir ||| a })) ∧
    (s.platform.variant = .markII → a &&& 0xFF08#16 ≠ 0#16 →
      exec (.intr c) s = .fault .irReservedBits) ∧
    (s.platform.variant = .markIIL → exec (.intr c) s = .fault .intrOnMark2L)

/-- Executing any of the 30 reserved command values is undefined behaviour, met after its inputs are
taken (R101, decision D10, log 12). -/
def Obligations.ReservedCommandsStopWhenExecuted : Prop :=
  ∀ (i : Instr) (s t : State) (a b : Word), i.defined = false → Executes i.cfg s a b t →
    exec i s = .fault .reservedCommand

/-! ## Frames -/

/-- The frame of the commands that write nothing but their output: COPY, GET, LOAD8, LOAD16, CPUID,
FRGET, BPGET, SPGET and the eleven logic commands. IP is past the instruction, SP moves by the pops and
the push, Z and N by the flag step, memory by the push alone; a BUS answer leaves everything as it was
but for IR[2] (R264, decision D16, log 8). -/
def Obligations.OutputOnlyCommandsFrame : Prop :=
  ∀ (c : Cfg) (s t : State),
    ∀ i ∈ [Instr.copy c, .get c, .load8 c, .load16 c, .cpuid c, .frget c, .bpget c, .spget c, .and c,
      .or c, .xor c, .not c, .signext c, .rol c, .ror c, .bswap c, .asr c, .lsl c, .lsr c],
    exec i s = .next t →
      (t.ip = s.ip + BitVec.ofNat 16 i.length ∨ t = busCancelled s t) ∧
      t.bp = s.bp ∧ t.halted = s.halted ∧ t.platform = s.platform ∧ t.pins = s.pins ∧
      (t.ir = s.ir ∨ ∃ u, t = cancel s u) ∧
      (∀ n, 2 ≤ n → t.fr.getLsbD n = s.fr.getLsbD n) ∧ (c.flg = false → t.fr = s.fr) ∧
      (t.sp = s.sp ∨ t.sp = (afterInputs c s).sp - (if c.out then 2#16 else 0#16)) ∧
      (∀ x, ¬ (c.out = true ∧ inWord ((afterInputs c s).sp - 2#16) x) →
        memByte t.mem x = memByte s.mem x)

/-- The frame of ADD, SUB and MUL, which also write C, and of DIV and MOD, which may also set IR[4]; a
BUS answer leaves everything as it was but for IR[2] (R264, decision D16, log 8). -/
def Obligations.ArithmeticCommandsFrame : Prop :=
  ∀ (c : Cfg) (s t : State),
    ∀ i ∈ [Instr.add c, .sub c, .mul c, .div c, .mod c], exec i s = .next t →
      t.bp = s.bp ∧ t.halted = s.halted ∧ t.platform = s.platform ∧ t.pins = s.pins ∧
      (∀ n, 3 ≤ n → t.fr.getLsbD n = s.fr.getLsbD n) ∧
      (c.flg = false → ∀ n, n ≠ 2 → t.fr.getLsbD n = s.fr.getLsbD n) ∧
      (i ∈ [Instr.add c, .sub c, .mul c] → t.ir = s.ir ∨ ∃ u, t = cancel s u) ∧
      (i ∈ [Instr.div c, .mod c] →
        (t.ir = s.ir ∨ (s.fr.getLsbD 4 = true ∧ t.ir = setBit s.ir 4 true) ∨
          ∃ u, t = cancel s u) ∧
        t.fr.getLsbD 2 = s.fr.getLsbD 2) ∧
      (t.sp = s.sp ∨ t.sp = (afterInputs c s).sp - (if c.out then 2#16 else 0#16)) ∧
      (∀ x, ¬ (c.out = true ∧ inWord ((afterInputs c s).sp - 2#16) x) →
        memByte t.mem x = memByte s.mem x)

/-- The frame of SET, STORE8 and STORE16. The address stored to is computed from the inputs as the
command takes them; every byte outside the stored ones and the pushed word is unchanged. Where the
instruction is skipped, and where BUS cancels it, so that IP stays at its opcode word (R264, decision
D16, log 8), all of memory is unchanged. -/
def Obligations.StoreCommandsFrame : Prop :=
  ∀ (c : Cfg) (s t : State), ∀ i ∈ [Instr.set c, .store8 c, .store16 c], exec i s = .next t →
    t.bp = s.bp ∧ t.halted = s.halted ∧ t.platform = s.platform ∧ t.pins = s.pins ∧
    (t.ir = s.ir ∨ ∃ u, t = cancel s u) ∧
    (∀ n, 2 ≤ n → t.fr.getLsbD n = s.fr.getLsbD n) ∧ (c.flg = false → t.fr = s.fr) ∧
    (t.sp = s.sp ∨ t.sp = (afterInputs c s).sp - (if c.out then 2#16 else 0#16)) ∧
    (t.ip = s.ip + BitVec.ofNat 16 i.length ∨ t = busCancelled s t) ∧
    (condHolds c.cond s.fr = false → t.mem = s.mem) ∧ (t.ip = s.ip → t.mem = s.mem) ∧
    (∀ a b s0 s1, fetchInput c.in0 (s.setIp (s.ip + 2#16)) = .ok a s0 →
      fetchInput c.in1 s0 = .ok b s1 →
      ∀ x, ¬ (c.out = true ∧ inWord (s1.sp - 2#16) x) →
        (i = .set c → ¬ inWord (frameAddr s1.bp a) x) → (i = .store8 c → x ≠ b.toNat) →
        (i = .store16 c → ¬ inWord b x) → memByte t.mem x = memByte s.mem x) ∧
    ((∀ a b s0 s1, fetchInput c.in0 (s.setIp (s.ip + 2#16)) = .ok a s0 →
      fetchInput c.in1 s0 ≠ .ok b s1) → t.mem = s.mem)

/-- The frame of the commands that write registers: HALT, FRSET, BPSET, SETIP, ADDIP and INTR change no
memory but the pushed word, BP is BPSET's alone, the halt bit HALT's alone, IR INTR's alone (but for
BUS: R264, decision D16, log 8), and the upper bits of FR those of FRSET, SETIP and ADDIP. -/
def Obligations.RegisterCommandsFrame : Prop :=
  ∀ (c : Cfg) (s t : State),
    ∀ i ∈ [Instr.halt c, .frset c, .bpset c, .setip c, .addip c, .intr c], exec i s = .next t →
      t.platform = s.platform ∧ t.pins = s.pins ∧
      (i ≠ .bpset c → t.bp = s.bp) ∧ (i ≠ .halt c → t.halted = s.halted) ∧
      (i ≠ .intr c → t.ir = s.ir ∨ ∃ u, t = cancel s u) ∧
      (i ∉ [Instr.frset c, .setip c, .addip c] →
        (∀ n, 2 ≤ n → t.fr.getLsbD n = s.fr.getLsbD n) ∧ (c.flg = false → t.fr = s.fr)) ∧
      (t.sp = s.sp ∨ t.sp = (afterInputs c s).sp - (if c.out then 2#16 else 0#16)) ∧
      (∀ x, ¬ (c.out = true ∧ inWord ((afterInputs c s).sp - 2#16) x) →
        memByte t.mem x = memByte s.mem x)

/-- The frame of SPSET: besides SP it changes IP, Z and N by the flag step, and the word its output is
pushed to, which lies below the new SP (R138, R188); a BUS answer leaves everything as it was but for
IR[2] (R264, decision D16, log 8). -/
def Obligations.SpsetFrame : Prop :=
  ∀ (c : Cfg) (s t : State), exec (.spset c) s = .next t →
    t.bp = s.bp ∧ t.halted = s.halted ∧ t.platform = s.platform ∧ t.pins = s.pins ∧
    (t.ir = s.ir ∨ ∃ u, t = cancel s u) ∧
    (∀ n, 2 ≤ n → t.fr.getLsbD n = s.fr.getLsbD n) ∧ (c.flg = false → t.fr = s.fr) ∧
    (∀ a s0, fetchInput c.in0 (s.setIp (s.ip + 2#16)) = .ok a s0 →
      (t.sp = s.sp ∨ t.sp = a - (if c.out then 2#16 else 0#16)) ∧
      ∀ x, ¬ (c.out = true ∧ inWord (a - 2#16) x) → memByte t.mem x = memByte s.mem x) ∧
    ((∀ a s0, fetchInput c.in0 (s.setIp (s.ip + 2#16)) ≠ .ok a s0) →
      t.sp = s.sp ∧ t.mem = s.mem)

/-! ## Rules about the whole machine -/

/-- C is written by ADD, SUB and MUL whenever they are executed, whatever `flg` and CE are, and no other
command and no value of `flg` changes it, except that FRSET, SETIP and ADDIP write FR as data (R142).
What ADD and SUB write is decision D5 (log 20), what MUL writes decision D6 (log 18), and that an
instruction cancelled by BUS writes nothing decision D16 (log 8). Inputs may come from a device, as
decision D28 has it (log 9, log 10). -/
def Obligations.OnlyArithmeticWritesCarry : Prop :=
  (∀ (i : Instr) (s t : State),
    i ∉ [Instr.add i.cfg, .sub i.cfg, .mul i.cfg, .frset i.cfg, .setip i.cfg, .addip i.cfg] →
    exec i s = .next t → t.fr.getLsbD 2 = s.fr.getLsbD 2) ∧
  (∀ (c : Cfg) (s t u : State) (a b : Word), Executes c s a b u →
    (exec (.add c) s = .next t → t = busCancelled s t ∨ t.fr.getLsbD 2 = addCarry a b s.fr) ∧
    (exec (.sub c) s = .next t → t = busCancelled s t ∨ t.fr.getLsbD 2 = subBorrow a b s.fr) ∧
    (exec (.mul c) s = .next t →
      t = busCancelled s t ∨ t.fr.getLsbD 2 = mulCarryOut s.platform.mulCarry a b))

/-- No instruction but SETIP and ADDIP leaves IP elsewhere than behind itself (R25, R243), unless a BUS
answer cancels it; that IP is then at its own opcode word is decision D16 (R264, log 8). -/
def Obligations.OnlySetipAndAddipJump : Prop :=
  ∀ (i : Instr) (s t : State), i ∉ [Instr.setip i.cfg, .addip i.cfg] → exec i s = .next t →
    t.ip = s.ip + BitVec.ofNat 16 i.length ∨ (t.ip = s.ip ∧ ∃ u, t = cancel s u)

/-- The special registers have their writers: BP is BPSET's, the halt bit HALT's (decision D14, log 16),
no instruction clears a bit of IR, and none but INTR sets one other than ARITH and BUS (R23, R31, R36,
R279; BUS as decision D16 has it, log 8). -/
def Obligations.SpecialRegistersHaveTheirWriters : Prop :=
  ∀ (i : Instr) (s t : State), exec i s = .next t →
    (i ≠ .bpset i.cfg → t.bp = s.bp) ∧ (i ≠ .halt i.cfg → t.halted = s.halted) ∧
    ∀ n, (s.ir.getLsbD n = true → t.ir.getLsbD n = true) ∧
      (i ≠ .intr i.cfg → n ≠ 2 → n ≠ 4 → t.ir.getLsbD n = s.ir.getLsbD n)

/-! ## Memory -/

/-- A word written to plain memory is what every later word access finds, data read or fetch, as long as
its two bytes stand, and its two bytes are what byte reads find: the less significant at the lower
address (R61, R62). That every later read and the very next fetch see a store is the model's choice,
decisions D18 and D19 (R75, R78, log 25). -/
def Obligations.WrittenWordIsReadBack : Prop :=
  ∀ (s : State) (a v : Word), wordWritable s a = true →
    ∃ t, writeWord a v s = .ok () t ∧
      ∀ u : State, u.platform = t.platform → memByte u.mem a.toNat = memByte t.mem a.toNat →
        memByte u.mem (a + 1#16).toNat = memByte t.mem (a + 1#16).toNat →
        (∀ k, busSignalled u a .word k = false → readWord k a u = .ok v u) ∧
        (busSignalled u a .byte .read = false → readByte a u = .ok (v.extractLsb' 0 8) u) ∧
        (busSignalled u (a + 1#16) .byte .read = false →
          readByte (a + 1#16) u = .ok (v.extractLsb' 8 8) u)

/-- Every word access at an odd address is undefined behaviour: the opcode and immediate fetches, push,
pop, peek and interrupt entry, GET, SET, LOAD16 and STORE16; the fetch from the interrupt table and a
byte access never are (R65, R66). -/
def Obligations.OddWordAccessesStop : Prop :=
  ∀ (s : State) (a v : Word),
    (isOdd a = true → (∀ k, readWord k a s = .stop .unaligned) ∧
      writeWord a v s = .stop .unaligned ∧ cmdLoad16 a v s = .stop .unaligned ∧
      cmdStore16 v a s = .stop .unaligned) ∧
    (isOdd s.ip = true → fetchOpcode s = .stop .unaligned ∧ fetchInput .imm s = .stop .unaligned) ∧
    (isOdd s.sp = true → push v s = .stop .unaligned ∧ pop s = .stop .unaligned ∧
      peek s = .stop .unaligned ∧ ∀ n, enterInterrupt n s = .stop .unaligned) ∧
    (∀ n, isOdd (BitVec.ofNat 16 (2 * n)) = false) ∧
    (isOdd s.bp = true → cmdGet a v s = .stop .unaligned ∧ cmdSet a v s = .stop .unaligned) ∧
    readByte a s ≠ .stop .unaligned ∧ (∀ b, writeByte a b s ≠ .stop .unaligned)

/-- What an access finds that BUS does not answer, by the kinds of the bytes it touches, for words and
for LOAD8 and STORE8 (R69, R74; decisions D17, D22 and D28, log 3, log 10; words of two kinds log 9). A
device byte that is read is a free value, one for the access; RAM and ROM give the byte that stands
there; a device is told what is written; every access that touches a device is recorded. A write to ROM,
any access to an unmapped byte, and a read of a byte that holds no value stop. -/
def Obligations.RegionsAnswerAsMapped : Prop :=
  (∀ (s : State) (a v : Word), isOdd a = false → (∀ k, busSignalled s a .word k = false) →
    let lo := kindAt s a.toNat
    let hi := kindAt s (a + 1#16).toNat
    let d := Config.freeWord s.draws
    (lo = .unmapped ∨ hi = .unmapped →
      (∀ k, readWord k a s = .stop .unmapped) ∧ writeWord a v s = .stop .unmapped) ∧
    (lo ≠ .unmapped → hi ≠ .unmapped → lo = .rom ∨ hi = .rom →
      writeWord a v s = .stop .romWrite) ∧
    (lo ≠ .unmapped → hi ≠ .unmapped →
      lo ≠ .device ∧ memByte s.mem a.toNat = none ∨
        hi ≠ .device ∧ memByte s.mem (a + 1#16).toNat = none →
      ∀ k, readWord k a s = .stop .undefinedMemory) ∧
    (lo = .ram ∨ lo = .rom → hi = .ram ∨ hi = .rom →
      ∀ k x, memWord s.mem a = some x → readWord k a s = .ok x s) ∧
    (lo = .device → hi = .device →
      (∀ k, readWord k a s =
        .ok d { s with draws := s.draws + 1, device := ⟨a, .word, k, d⟩ :: s.device }) ∧
      writeWord a v s = .ok () { s with device := ⟨a, .word, .write, v⟩ :: s.device }) ∧
    (lo = .device → hi = .ram ∨ hi = .rom → ∀ k h, memByte s.mem (a + 1#16).toNat = some h →
      let x : Word := h ++ d.extractLsb' 0 8
      readWord k a s =
        .ok x { s with draws := s.draws + 1, device := ⟨a, .word, k, x⟩ :: s.device }) ∧
    (lo = .ram ∨ lo = .rom → hi = .device → ∀ k l, memByte s.mem a.toNat = some l →
      let x : Word := d.extractLsb' 8 8 ++ l
      readWord k a s =
        .ok x { s with draws := s.draws + 1, device := ⟨a, .word, k, x⟩ :: s.device }) ∧
    (lo = .device → hi = .ram → writeWord a v s = .ok ()
      { s with
        mem := memSetByte s.mem (a + 1#16).toNat (v.extractLsb' 8 8)
        device := ⟨a, .word, .write, v⟩ :: s.device }) ∧
    (lo = .ram → hi = .device → writeWord a v s = .ok ()
      { s with
        mem := memSetByte s.mem a.toNat (v.extractLsb' 0 8)
        device := ⟨a, .word, .write, v⟩ :: s.device })) ∧
  (∀ (s : State) (a v : Word),
    let kind := kindAt s a.toNat
    let d := (Config.freeWord s.draws) &&& 0x00FF#16
    (busSignalled s a .byte .read = false →
      (kind = .unmapped → cmdLoad8 a v s = .stop .unmapped) ∧
      (kind = .ram ∨ kind = .rom → memByte s.mem a.toNat = none →
        cmdLoad8 a v s = .stop .undefinedMemory) ∧
      (kind = .ram ∨ kind = .rom → ∀ x, memByte s.mem a.toNat = some x →
        cmdLoad8 a v s = .ok (BitVec.ofNat 16 x.toNat) s) ∧
      (kind = .device → cmdLoad8 a v s = .ok d
        { s with draws := s.draws + 1, device := ⟨a, .byte, .read, d⟩ :: s.device })) ∧
    (busSignalled s a .byte .write = false →
      (kind = .unmapped → cmdStore8 v a s = .stop .unmapped) ∧
      (kind = .rom → cmdStore8 v a s = .stop .romWrite) ∧
      (kind = .ram → cmdStore8 v a s = .ok (v &&& 0x00FF#16)
        { s with mem := memSetByte s.mem a.toNat (v.extractLsb' 0 8) }) ∧
      (kind = .device → cmdStore8 v a s = .ok (v &&& 0x00FF#16)
        { s with device := ⟨a, .byte, .write, v &&& 0x00FF#16⟩ :: s.device })))

/-- A BUS answer to any access of an instruction cancels it: everything is as it was when the
instruction began, IP at its opcode word, and IR[2] is set (R264, decision D16, log 7, log 8); of the
answered access no device learns (log 34). The accesses, for every command: the opcode fetch, the
immediates, peeks and pops of either input, the access of GET, SET, STORE8, STORE16, LOAD8 and LOAD16,
and the push, whatever the command did before it. -/
def Obligations.BusAnswerCancelsInstruction : Prop :=
  (∀ (i : Instr) (s : State), condHolds i.cfg.cond s.fr = true →
    (i.cfg.in0 = .imm → isOdd s.ip = false → busSignalled s (s.ip + 2#16) .word .fetch = true →
      exec i s = .next (busCancelled s s)) ∧
    (i.cfg.in0 = .peek ∨ i.cfg.in0 = .pop → isOdd s.sp = false →
      busSignalled s s.sp .word .read = true → exec i s = .next (busCancelled s s)) ∧
    (∀ a u, takeInput i.cfg.in0 (s.setIp (s.ip + 2#16)) = some (a, u) →
      (i.cfg.in1 = .imm → isOdd u.ip = false → busSignalled s u.ip .word .fetch = true →
        exec i s = .next (busCancelled s u)) ∧
      (i.cfg.in1 = .peek ∨ i.cfg.in1 = .pop → isOdd u.sp = false →
        busSignalled s u.sp .word .read = true → exec i s = .next (busCancelled s u))) ∧
    (∀ a b t, takeInputs i.cfg s = some (a, b, t) →
      (i = .get i.cfg → isOdd s.bp = false →
        busSignalled s (s.bp + 2#16 * a) .word .read = true →
        exec i s = .next (busCancelled s t)) ∧
      (i = .set i.cfg → isOdd s.bp = false →
        busSignalled s (s.bp + 2#16 * a) .word .write = true →
        exec i s = .next (busCancelled s t)) ∧
      (i = .store8 i.cfg → busSignalled s b .byte .write = true →
        exec i s = .next (busCancelled s t)) ∧
      (i = .store16 i.cfg → isOdd b = false → busSignalled s b .word .write = true →
        exec i s = .next (busCancelled s t)) ∧
      (i = .load8 i.cfg → busSignalled s a .byte .read = true →
        exec i s = .next (busCancelled s t)) ∧
      (i = .load16 i.cfg → isOdd a = false → busSignalled s a .word .read = true →
        exec i s = .next (busCancelled s t))) ∧
    (∀ (j : Instr) (t : State), i.cfg.out = true → j.cmd = i.cmd →
      j.cfg = { i.cfg with out := false } → exec j s = .next t → isOdd t.sp = false →
      busSignalled s (t.sp - 2#16) .word .write = true →
      exec i s = .next (busCancelled s t))) ∧
  (∀ s t : State, boundary s = .ok () t → t.halted = false → isOdd t.ip = false →
    busSignalled t t.ip .word .fetch = true → step s = .next (busCancelled t t))

/-! ## Reset and interrupts -/

/-- At power-on FR is 0x0000 and IR is 0x0001 on `MarkII` (R26, R30, R38); the halt bit is clear
(decision D14, log 16) and memory is INITIAL_MEMORY (decision D22). A `MarkII_L`, which has no IR, has 0
in that field (log 33) and starts with RST signalled at its first boundary (R324, decision D22, log 6).
No other signal is scheduled. -/
def Obligations.PowerOnValues : Prop :=
  ∀ (p : Platform) (image : Memory),
    (State.powerOn p image).fr = 0x0000#16 ∧ (State.powerOn p image).halted = false ∧
    (State.powerOn p image).mem = image ∧ (State.powerOn p image).platform = p ∧
    (p.variant = .markII →
      (State.powerOn p image).ir = 0x0001#16 ∧ (State.powerOn p image).pins = []) ∧
    (p.variant = .markIIL →
      (State.powerOn p image).ir = 0x0000#16 ∧
      (State.powerOn p image).pins = [{ rst := true, nmi := false, irq := false }]) ∧
    State.reset = State.powerOn Platform.default []

/-- The `MarkII` reset sequence: IP from the word at 0x0000, FR, IR and the halt bit cleared, every
other request discarded, memory kept; an odd vector is undefined behaviour (R321, decisions D11, D14 and
D22). SP and BP, undefined in the source, become 0: the model's choice (log 2). -/
def Obligations.ResetLoadsTheVector : Prop :=
  ∀ (s : State) (v : Word), s.platform.variant = .markII →
    s.ir.getLsbD 0 = true ∨ (pinsNow s).rst = true → plainWord s .fetch 0x0000#16 = some v →
    (isOdd v = false → boundary s = .ok ()
      { s with
        ip := v
        fr := 0x0000#16
        ir := 0x0000#16
        halted := false
        sp := 0x0000#16
        bp := 0x0000#16
        pins := s.pins.tail }) ∧
    (isOdd v = true → step s = .fault .oddPointer)

/-- The `MarkII_L` boundary: RST sets IP to 0x0000 itself and clears FR and the halt bit, memory is
kept; without RST nothing happens, whatever NMI and IRQ do (R260, R323, decisions D14 and D22). SP and
BP, undefined in the source, become 0: the model's choice (log 2). -/
def Obligations.ReducedVariantStartsAtZero : Prop :=
  ∀ s : State, s.platform.variant = .markIIL →
    ((pinsNow s).rst = true → boundary s = .ok ()
      { s with
        ip := 0x0000#16
        fr := 0x0000#16
        halted := false
        sp := 0x0000#16
        bp := 0x0000#16
        pins := s.pins.tail }) ∧
    ((pinsNow s).rst = false → boundary s = .ok () { s with pins := s.pins.tail })

/-- Taking interrupt n, not the reset: the words `1 << n` and IP stand on the stack, IP is the table
entry at 2n, a maskable interrupt is masked, and nothing else changes (R270, R271) but that the halt
ends, which is decision D14 (R276, log 16); an odd entry is undefined behaviour by decision D11 (log
14). For n = 3, which has no source, see log 26. -/
def Obligations.EntrySavesBitAndIp : Prop :=
  ∀ (s : State) (n : Nat) (v : Word), 1 ≤ n → n < 8 →
    wordWritable s (s.sp - 2#16) = true → wordWritable s (s.sp - 4#16) = true →
    let m := memSetWord (memSetWord s.mem (s.sp - 2#16) (1#16 <<< n)) (s.sp - 4#16) s.ip
    plainWord { s with mem := m } .fetch (BitVec.ofNat 16 (2 * n)) = some v →
    (isOdd v = false → enterInterrupt n s = .ok ()
      { s with
        sp := s.sp - 4#16
        mem := m
        ip := v
        fr := if 4 ≤ n then s.fr &&& ~~~(1#16 <<< n) else s.fr
        halted := false }) ∧
    (isOdd v = true → enterInterrupt n s = .stop .oddPointer)

/-- Entry and the return idiom `setip [i0:pop] [i1:pop]` fit together: after an interrupt is taken and
its handler, wherever it stands, runs the return on the stack as it found it, IP and SP are as before
the entry and FR has the interrupt's own bit set (SETIP or-s it in by decision D3, log 23), so that a
maskable interrupt, which was enabled, leaves FR as it was (R240, R271, R275). -/
def Obligations.ReturnUndoesEntry : Prop :=
  ∀ (s t : State) (n : Nat) (x : Word), s.platform.variant = .markII → 1 ≤ n → n < 8 →
    (4 ≤ n → s.fr.getLsbD n = true) → s.fr &&& 0xFF00#16 = 0#16 → isOdd s.ip = false →
    wordWritable s (s.sp - 2#16) = true → wordWritable s (s.sp - 4#16) = true →
    busSignalled s (s.sp - 2#16) .word .read = false →
    busSignalled s (s.sp - 4#16) .word .read = false →
    enterInterrupt n s = .ok () t →
    exec (.setip ⟨.always, .pop, .pop, false, false⟩) { t with ip := x } =
        .next { t with ip := s.ip, sp := s.sp, fr := s.fr ||| (1#16 <<< n) } ∧
      (4 ≤ n → s.fr ||| (1#16 <<< n) = s.fr)

/-- After a boundary of the `MarkII` no request is left pending: every one was served, dropped, or
discarded by reset (R31, R270; the bits INTR may not set follow log 26); where only masked requests are
pending they are cleared and nothing else happens (R278). -/
def Obligations.BoundaryLeavesNothingPending : Prop :=
  ∀ s : State, s.platform.variant = .markII →
    (∀ t, boundary s = .ok () t → t.ir = 0#16) ∧
    (s.pins = [] → (∀ n, s.ir.getLsbD n = true → 4 ≤ n ∧ s.fr.getLsbD n = false) →
      boundary s = .ok () { s with ir := 0#16 })

/-- Of two requests m < n served at one boundary the handler of m runs first, with that of n stacked
beneath it as its return address (R272; m or n = 3, which has no source, follows log 26). The stack lies
clear of the interrupt table. -/
def Obligations.LowerInterruptRunsFirst : Prop :=
  ∀ (s : State) (m n : Nat) (vm vn : Word), s.platform.variant = .markII → s.pins = [] →
    1 ≤ m → m < n → n < 8 → s.ir = (1#16 <<< m) ||| (1#16 <<< n) →
    (4 ≤ m → s.fr.getLsbD m = true) → (4 ≤ n → s.fr.getLsbD n = true) → 24 ≤ s.sp.toNat →
    (∀ d ∈ [2#16, 4#16, 6#16, 8#16], wordWritable s (s.sp - d) = true) →
    plainWord s .fetch (BitVec.ofNat 16 (2 * m)) = some vm → isOdd vm = false →
    plainWord s .fetch (BitVec.ofNat 16 (2 * n)) = some vn → isOdd vn = false →
    ∃ t, boundary s = .ok () t ∧ t.ip = vm ∧ t.sp = s.sp - 8#16 ∧ t.ir = 0#16 ∧
      memWord t.mem (s.sp - 2#16) = some (1#16 <<< n) ∧ memWord t.mem (s.sp - 4#16) = some s.ip ∧
      memWord t.mem (s.sp - 6#16) = some (1#16 <<< m) ∧ memWord t.mem (s.sp - 8#16) = some vn

/-- The pins at a boundary of the `MarkII` (R262, R263, R266, R267, decision D15, log 6): RST, NMI and
an enabled IRQ act as if IR[0], IR[1] and IR[7] had been set before the boundary, and a masked IRQ
leaves no trace. With nothing else pending NMI alone is interrupt 1 taken, an enabled IRQ alone
interrupt 7 taken, and a masked IRQ alone nothing; a BUS answer on the way stops (log 27). -/
def Obligations.PinsRequestInterrupts : Prop :=
  ∀ (s : State) (p : Pins),
    (∀ n, (samplePins p s).ir.getLsbD n = (s.ir.getLsbD n || (n == 0 && p.rst) ||
      (n == 1 && p.nmi) || (n == 7 && p.irq && s.fr.getLsbD 7))) ∧
    samplePins p s = { s with ir := (samplePins p s).ir } ∧
    (p.rst = false → p.nmi = false → s.fr.getLsbD 7 = false → samplePins p s = s) ∧
    (∀ rest, s.platform.variant = .markII → s.pins = p :: rest →
      boundary s = boundary
        { s with
          pins := noPins :: rest
          ir := s.ir ||| (if p.rst then 0x0001#16 else 0#16) ||| (if p.nmi then 0x0002#16 else 0#16) |||
            (if p.irq && s.fr.getLsbD 7 then 0x0080#16 else 0#16) } ∧
      (s.ir = 0#16 → p.rst = false →
        (p.nmi = true → p.irq = false →
          boundary s = noBus (enterInterrupt 1 { s with pins := rest })) ∧
        (p.nmi = false → p.irq = true → s.fr.getLsbD 7 = true →
          boundary s = noBus (enterInterrupt 7 { s with pins := rest })) ∧
        (p.nmi = false → p.irq = true → s.fr.getLsbD 7 = false →
          boundary s = .ok () { s with pins := rest })))

/-- While halted, and as long as no interrupt can be taken and no reset comes, a step changes nothing:
on `MarkII` with IRQ masked, on `MarkII_L` whatever NMI and IRQ do (R181 (b), (c), R276; decision D14,
log 16). -/
def Obligations.HaltedMachineStaysAsItIs : Prop :=
  ∀ s : State, s.halted = true → (pinsNow s).rst = false →
    (s.platform.variant = .markII → s.ir = 0#16 ∧ (pinsNow s).nmi = false ∧
      ((pinsNow s).irq = true → s.fr.getLsbD 7 = false)) →
    step s = .next { s with pins := s.pins.tail }

/-- A BUS answer during an interrupt entry or the fetch of the reset vector has no defined outcome: the
step stops (R264; U18, decision D16, log 27). Said of the entry of any interrupt n (for n = 3 see log
26), of its first push, its second push and its table fetch, in the state t in which the requests above
n have been served, be it none. -/
def Obligations.BusDuringEntryStops : Prop :=
  ∀ s : State, s.platform.variant = .markII →
    (∀ (t : State) (n : Nat), s.pins = [] → 1 ≤ n → n < 8 → s.ir.getLsbD 0 = false →
      boundary { s with ir := s.ir &&& (0xFFFE#16 <<< n) } = .ok () t →
      s.ir.getLsbD n = true → n < 4 ∨ t.fr.getLsbD n = true → isOdd t.sp = false →
      busSignalled s (t.sp - 2#16) .word .write = true ∨
      (wordStorable s (t.sp - 2#16) = true ∧
        busSignalled s (t.sp - 4#16) .word .write = true) ∨
      (wordStorable s (t.sp - 2#16) = true ∧ wordStorable s (t.sp - 4#16) = true ∧
        busSignalled s (BitVec.ofNat 16 (2 * n)) .word .fetch = true) →
      (∃ u, enterInterrupt n t = .bus u) ∧ step s = .fault .busDuringEntry) ∧
    (s.ir.getLsbD 0 = true ∨ (pinsNow s).rst = true → busSignalled s 0#16 .word .fetch = true →
      step s = .fault .busDuringEntry)

/-! ## The step -/

/-- After the boundary phase, unless the machine is halted, a step is exec of the instruction that the
word at IP decodes to, in that state, which has IP at the opcode word; with nothing pending and no
signal that state is the one before the step (R120, R123). That a word with bit 15 set stops the step is
decision D10 (R124, log 13). -/
def Obligations.StepRunsTheDecodedInstruction : Prop :=
  (∀ (s t : State) (w : Word), boundary s = .ok () t → t.halted = false →
    plainWord t .fetch t.ip = some w →
    (∀ i, decodeWord w = .ok i → step s = exec i t) ∧
    (w.getLsbD 15 = true → step s = .fault .reservedBit15)) ∧
  (∀ (s : State) (w : Word) (i : Instr), s.ir = 0#16 → s.pins = [] → s.halted = false →
    plainWord s .fetch s.ip = some w → decodeWord w = .ok i → step s = exec i s)

/-- Every step keeps the invariant: memory stays in canonical form, IP, SP and BP even, the reserved
bits of FR and IR zero, and on `MarkII_L` IR zero (R22, R23, R24, R28, R32, R260; decisions D11, D12,
D23; after a reset SP and BP are even by the model's choice, log 2). -/
def Obligations.EveryStepKeepsTheInvariant : Prop :=
  ∀ (s t : State), s.inv = true → step s = .next t → t.inv = true

/-- The invariant holds at power-on for every platform and every canonical INITIAL_MEMORY, and so after
reset; that SP, BP and IP are even then is the model's choice of 0 (log 1). -/
def Obligations.InvariantHoldsAtPowerOn : Prop :=
  (∀ (p : Platform) (image : Memory), image.wf = true → (State.powerOn p image).inv = true) ∧
  State.reset.inv = true

/-- A step changes no parameter of the platform and consumes exactly one boundary's signals (R8,
decision D15, log 6); it draws free values and records device accesses but forgets none. -/
def Obligations.StepKeepsThePlatform : Prop :=
  ∀ (s t : State), step s = .next t →
    t.platform = s.platform ∧ t.pins = s.pins.tail ∧ s.draws ≤ t.draws ∧ s.device <:+ t.device
end

