-- ==== Sys2Proof/Laws/State.lean ====
section
/-! SUPPORT. One lemma per field per update of State, and the fields of the composite updates. -/

namespace Sys2Proof.Machine

@[simp] theorem setSp_sp (s : State) (v : Word) : (s.setSp v).sp = v := rfl
@[simp] theorem setSp_bp (s : State) (v : Word) : (s.setSp v).bp = s.bp := rfl
@[simp] theorem setSp_ip (s : State) (v : Word) : (s.setSp v).ip = s.ip := rfl
@[simp] theorem setSp_fr (s : State) (v : Word) : (s.setSp v).fr = s.fr := rfl
@[simp] theorem setSp_ir (s : State) (v : Word) : (s.setSp v).ir = s.ir := rfl
@[simp] theorem setSp_halted (s : State) (v : Word) : (s.setSp v).halted = s.halted := rfl
@[simp] theorem setSp_mem (s : State) (v : Word) : (s.setSp v).mem = s.mem := rfl
@[simp] theorem setSp_platform (s : State) (v : Word) : (s.setSp v).platform = s.platform := rfl
@[simp] theorem setSp_pins (s : State) (v : Word) : (s.setSp v).pins = s.pins := rfl
@[simp] theorem setSp_draws (s : State) (v : Word) : (s.setSp v).draws = s.draws := rfl
@[simp] theorem setSp_device (s : State) (v : Word) : (s.setSp v).device = s.device := rfl

@[simp] theorem setBp_sp (s : State) (v : Word) : (s.setBp v).sp = s.sp := rfl
@[simp] theorem setBp_bp (s : State) (v : Word) : (s.setBp v).bp = v := rfl
@[simp] theorem setBp_ip (s : State) (v : Word) : (s.setBp v).ip = s.ip := rfl
@[simp] theorem setBp_fr (s : State) (v : Word) : (s.setBp v).fr = s.fr := rfl
@[simp] theorem setBp_ir (s : State) (v : Word) : (s.setBp v).ir = s.ir := rfl
@[simp] theorem setBp_halted (s : State) (v : Word) : (s.setBp v).halted = s.halted := rfl
@[simp] theorem setBp_mem (s : State) (v : Word) : (s.setBp v).mem = s.mem := rfl
@[simp] theorem setBp_platform (s : State) (v : Word) : (s.setBp v).platform = s.platform := rfl
@[simp] theorem setBp_pins (s : State) (v : Word) : (s.setBp v).pins = s.pins := rfl
@[simp] theorem setBp_draws (s : State) (v : Word) : (s.setBp v).draws = s.draws := rfl
@[simp] theorem setBp_device (s : State) (v : Word) : (s.setBp v).device = s.device := rfl

@[simp] theorem setIp_sp (s : State) (v : Word) : (s.setIp v).sp = s.sp := rfl
@[simp] theorem setIp_bp (s : State) (v : Word) : (s.setIp v).bp = s.bp := rfl
@[simp] theorem setIp_ip (s : State) (v : Word) : (s.setIp v).ip = v := rfl
@[simp] theorem setIp_fr (s : State) (v : Word) : (s.setIp v).fr = s.fr := rfl
@[simp] theorem setIp_ir (s : State) (v : Word) : (s.setIp v).ir = s.ir := rfl
@[simp] theorem setIp_halted (s : State) (v : Word) : (s.setIp v).halted = s.halted := rfl
@[simp] theorem setIp_mem (s : State) (v : Word) : (s.setIp v).mem = s.mem := rfl
@[simp] theorem setIp_platform (s : State) (v : Word) : (s.setIp v).platform = s.platform := rfl
@[simp] theorem setIp_pins (s : State) (v : Word) : (s.setIp v).pins = s.pins := rfl
@[simp] theorem setIp_draws (s : State) (v : Word) : (s.setIp v).draws = s.draws := rfl
@[simp] theorem setIp_device (s : State) (v : Word) : (s.setIp v).device = s.device := rfl

@[simp] theorem setFr_sp (s : State) (v : Word) : (s.setFr v).sp = s.sp := rfl
@[simp] theorem setFr_bp (s : State) (v : Word) : (s.setFr v).bp = s.bp := rfl
@[simp] theorem setFr_ip (s : State) (v : Word) : (s.setFr v).ip = s.ip := rfl
@[simp] theorem setFr_fr (s : State) (v : Word) : (s.setFr v).fr = v := rfl
@[simp] theorem setFr_ir (s : State) (v : Word) : (s.setFr v).ir = s.ir := rfl
@[simp] theorem setFr_halted (s : State) (v : Word) : (s.setFr v).halted = s.halted := rfl
@[simp] theorem setFr_mem (s : State) (v : Word) : (s.setFr v).mem = s.mem := rfl
@[simp] theorem setFr_platform (s : State) (v : Word) : (s.setFr v).platform = s.platform := rfl
@[simp] theorem setFr_pins (s : State) (v : Word) : (s.setFr v).pins = s.pins := rfl
@[simp] theorem setFr_draws (s : State) (v : Word) : (s.setFr v).draws = s.draws := rfl
@[simp] theorem setFr_device (s : State) (v : Word) : (s.setFr v).device = s.device := rfl

@[simp] theorem setIr_sp (s : State) (v : Word) : (s.setIr v).sp = s.sp := rfl
@[simp] theorem setIr_bp (s : State) (v : Word) : (s.setIr v).bp = s.bp := rfl
@[simp] theorem setIr_ip (s : State) (v : Word) : (s.setIr v).ip = s.ip := rfl
@[simp] theorem setIr_fr (s : State) (v : Word) : (s.setIr v).fr = s.fr := rfl
@[simp] theorem setIr_ir (s : State) (v : Word) : (s.setIr v).ir = v := rfl
@[simp] theorem setIr_halted (s : State) (v : Word) : (s.setIr v).halted = s.halted := rfl
@[simp] theorem setIr_mem (s : State) (v : Word) : (s.setIr v).mem = s.mem := rfl
@[simp] theorem setIr_platform (s : State) (v : Word) : (s.setIr v).platform = s.platform := rfl
@[simp] theorem setIr_pins (s : State) (v : Word) : (s.setIr v).pins = s.pins := rfl
@[simp] theorem setIr_draws (s : State) (v : Word) : (s.setIr v).draws = s.draws := rfl
@[simp] theorem setIr_device (s : State) (v : Word) : (s.setIr v).device = s.device := rfl

@[simp] theorem setHalted_sp (s : State) (v : Bool) : (s.setHalted v).sp = s.sp := rfl
@[simp] theorem setHalted_bp (s : State) (v : Bool) : (s.setHalted v).bp = s.bp := rfl
@[simp] theorem setHalted_ip (s : State) (v : Bool) : (s.setHalted v).ip = s.ip := rfl
@[simp] theorem setHalted_fr (s : State) (v : Bool) : (s.setHalted v).fr = s.fr := rfl
@[simp] theorem setHalted_ir (s : State) (v : Bool) : (s.setHalted v).ir = s.ir := rfl
@[simp] theorem setHalted_halted (s : State) (v : Bool) : (s.setHalted v).halted = v := rfl
@[simp] theorem setHalted_mem (s : State) (v : Bool) : (s.setHalted v).mem = s.mem := rfl
@[simp] theorem setHalted_platform (s : State) (v : Bool) : (s.setHalted v).platform = s.platform := rfl
@[simp] theorem setHalted_pins (s : State) (v : Bool) : (s.setHalted v).pins = s.pins := rfl
@[simp] theorem setHalted_draws (s : State) (v : Bool) : (s.setHalted v).draws = s.draws := rfl
@[simp] theorem setHalted_device (s : State) (v : Bool) : (s.setHalted v).device = s.device := rfl

@[simp] theorem setMem_sp (s : State) (v : Memory) : (s.setMem v).sp = s.sp := rfl
@[simp] theorem setMem_bp (s : State) (v : Memory) : (s.setMem v).bp = s.bp := rfl
@[simp] theorem setMem_ip (s : State) (v : Memory) : (s.setMem v).ip = s.ip := rfl
@[simp] theorem setMem_fr (s : State) (v : Memory) : (s.setMem v).fr = s.fr := rfl
@[simp] theorem setMem_ir (s : State) (v : Memory) : (s.setMem v).ir = s.ir := rfl
@[simp] theorem setMem_halted (s : State) (v : Memory) : (s.setMem v).halted = s.halted := rfl
@[simp] theorem setMem_mem (s : State) (v : Memory) : (s.setMem v).mem = v := rfl
@[simp] theorem setMem_platform (s : State) (v : Memory) : (s.setMem v).platform = s.platform := rfl
@[simp] theorem setMem_pins (s : State) (v : Memory) : (s.setMem v).pins = s.pins := rfl
@[simp] theorem setMem_draws (s : State) (v : Memory) : (s.setMem v).draws = s.draws := rfl
@[simp] theorem setMem_device (s : State) (v : Memory) : (s.setMem v).device = s.device := rfl

@[simp] theorem setPins_sp (s : State) (v : List Pins) : (s.setPins v).sp = s.sp := rfl
@[simp] theorem setPins_bp (s : State) (v : List Pins) : (s.setPins v).bp = s.bp := rfl
@[simp] theorem setPins_ip (s : State) (v : List Pins) : (s.setPins v).ip = s.ip := rfl
@[simp] theorem setPins_fr (s : State) (v : List Pins) : (s.setPins v).fr = s.fr := rfl
@[simp] theorem setPins_ir (s : State) (v : List Pins) : (s.setPins v).ir = s.ir := rfl
@[simp] theorem setPins_halted (s : State) (v : List Pins) : (s.setPins v).halted = s.halted := rfl
@[simp] theorem setPins_mem (s : State) (v : List Pins) : (s.setPins v).mem = s.mem := rfl
@[simp] theorem setPins_platform (s : State) (v : List Pins) : (s.setPins v).platform = s.platform := rfl
@[simp] theorem setPins_pins (s : State) (v : List Pins) : (s.setPins v).pins = v := rfl
@[simp] theorem setPins_draws (s : State) (v : List Pins) : (s.setPins v).draws = s.draws := rfl
@[simp] theorem setPins_device (s : State) (v : List Pins) : (s.setPins v).device = s.device := rfl

@[simp] theorem setDraws_sp (s : State) (v : Nat) : (s.setDraws v).sp = s.sp := rfl
@[simp] theorem setDraws_bp (s : State) (v : Nat) : (s.setDraws v).bp = s.bp := rfl
@[simp] theorem setDraws_ip (s : State) (v : Nat) : (s.setDraws v).ip = s.ip := rfl
@[simp] theorem setDraws_fr (s : State) (v : Nat) : (s.setDraws v).fr = s.fr := rfl
@[simp] theorem setDraws_ir (s : State) (v : Nat) : (s.setDraws v).ir = s.ir := rfl
@[simp] theorem setDraws_halted (s : State) (v : Nat) : (s.setDraws v).halted = s.halted := rfl
@[simp] theorem setDraws_mem (s : State) (v : Nat) : (s.setDraws v).mem = s.mem := rfl
@[simp] theorem setDraws_platform (s : State) (v : Nat) : (s.setDraws v).platform = s.platform := rfl
@[simp] theorem setDraws_pins (s : State) (v : Nat) : (s.setDraws v).pins = s.pins := rfl
@[simp] theorem setDraws_draws (s : State) (v : Nat) : (s.setDraws v).draws = v := rfl
@[simp] theorem setDraws_device (s : State) (v : Nat) : (s.setDraws v).device = s.device := rfl

@[simp] theorem setDevice_sp (s : State) (v : List DeviceAccess) : (s.setDevice v).sp = s.sp := rfl
@[simp] theorem setDevice_bp (s : State) (v : List DeviceAccess) : (s.setDevice v).bp = s.bp := rfl
@[simp] theorem setDevice_ip (s : State) (v : List DeviceAccess) : (s.setDevice v).ip = s.ip := rfl
@[simp] theorem setDevice_fr (s : State) (v : List DeviceAccess) : (s.setDevice v).fr = s.fr := rfl
@[simp] theorem setDevice_ir (s : State) (v : List DeviceAccess) : (s.setDevice v).ir = s.ir := rfl
@[simp] theorem setDevice_halted (s : State) (v : List DeviceAccess) : (s.setDevice v).halted = s.halted := rfl
@[simp] theorem setDevice_mem (s : State) (v : List DeviceAccess) : (s.setDevice v).mem = s.mem := rfl
@[simp] theorem setDevice_platform (s : State) (v : List DeviceAccess) : (s.setDevice v).platform = s.platform := rfl
@[simp] theorem setDevice_pins (s : State) (v : List DeviceAccess) : (s.setDevice v).pins = s.pins := rfl
@[simp] theorem setDevice_draws (s : State) (v : List DeviceAccess) : (s.setDevice v).draws = s.draws := rfl
@[simp] theorem setDevice_device (s : State) (v : List DeviceAccess) : (s.setDevice v).device = v := rfl

/-! ## Composite updates -/

@[simp] theorem note_sp (s : State) (a : Word) (w : Width) (k : AccessKind) (v : Word) : (note s a w k v).sp = s.sp := rfl
@[simp] theorem note_bp (s : State) (a : Word) (w : Width) (k : AccessKind) (v : Word) : (note s a w k v).bp = s.bp := rfl
@[simp] theorem note_ip (s : State) (a : Word) (w : Width) (k : AccessKind) (v : Word) : (note s a w k v).ip = s.ip := rfl
@[simp] theorem note_fr (s : State) (a : Word) (w : Width) (k : AccessKind) (v : Word) : (note s a w k v).fr = s.fr := rfl
@[simp] theorem note_ir (s : State) (a : Word) (w : Width) (k : AccessKind) (v : Word) : (note s a w k v).ir = s.ir := rfl
@[simp] theorem note_halted (s : State) (a : Word) (w : Width) (k : AccessKind) (v : Word) : (note s a w k v).halted = s.halted := rfl
@[simp] theorem note_mem (s : State) (a : Word) (w : Width) (k : AccessKind) (v : Word) : (note s a w k v).mem = s.mem := rfl
@[simp] theorem note_platform (s : State) (a : Word) (w : Width) (k : AccessKind) (v : Word) : (note s a w k v).platform = s.platform := rfl
@[simp] theorem note_pins (s : State) (a : Word) (w : Width) (k : AccessKind) (v : Word) : (note s a w k v).pins = s.pins := rfl
@[simp] theorem note_draws (s : State) (a : Word) (w : Width) (k : AccessKind) (v : Word) : (note s a w k v).draws = s.draws := rfl
@[simp] theorem note_device (s : State) (a : Word) (w : Width) (k : AccessKind) (v : Word) : (note s a w k v).device = { addr := a, width := w, access := k, value := v } :: s.device := rfl

@[simp] theorem resetRegisters_sp (s : State) : (resetRegisters s).sp = 0#16 := rfl
@[simp] theorem resetRegisters_bp (s : State) : (resetRegisters s).bp = 0#16 := rfl
@[simp] theorem resetRegisters_ip (s : State) : (resetRegisters s).ip = s.ip := rfl
@[simp] theorem resetRegisters_fr (s : State) : (resetRegisters s).fr = 0#16 := rfl
@[simp] theorem resetRegisters_ir (s : State) : (resetRegisters s).ir = s.ir := rfl
@[simp] theorem resetRegisters_halted (s : State) : (resetRegisters s).halted = false := rfl
@[simp] theorem resetRegisters_mem (s : State) : (resetRegisters s).mem = s.mem := rfl
@[simp] theorem resetRegisters_platform (s : State) : (resetRegisters s).platform = s.platform := rfl
@[simp] theorem resetRegisters_pins (s : State) : (resetRegisters s).pins = s.pins := rfl
@[simp] theorem resetRegisters_draws (s : State) : (resetRegisters s).draws = s.draws := rfl
@[simp] theorem resetRegisters_device (s : State) : (resetRegisters s).device = s.device := rfl

@[simp] theorem resetMarkIIL_sp (s : State) : (resetMarkIIL s).sp = 0#16 := rfl
@[simp] theorem resetMarkIIL_bp (s : State) : (resetMarkIIL s).bp = 0#16 := rfl
@[simp] theorem resetMarkIIL_ip (s : State) : (resetMarkIIL s).ip = 0#16 := rfl
@[simp] theorem resetMarkIIL_fr (s : State) : (resetMarkIIL s).fr = 0#16 := rfl
@[simp] theorem resetMarkIIL_ir (s : State) : (resetMarkIIL s).ir = s.ir := rfl
@[simp] theorem resetMarkIIL_halted (s : State) : (resetMarkIIL s).halted = false := rfl
@[simp] theorem resetMarkIIL_mem (s : State) : (resetMarkIIL s).mem = s.mem := rfl
@[simp] theorem resetMarkIIL_platform (s : State) : (resetMarkIIL s).platform = s.platform := rfl
@[simp] theorem resetMarkIIL_pins (s : State) : (resetMarkIIL s).pins = s.pins := rfl
@[simp] theorem resetMarkIIL_draws (s : State) : (resetMarkIIL s).draws = s.draws := rfl
@[simp] theorem resetMarkIIL_device (s : State) : (resetMarkIIL s).device = s.device := rfl

@[simp] theorem cancel_sp (s t : State) : (cancel s t).sp = s.sp := rfl
@[simp] theorem cancel_bp (s t : State) : (cancel s t).bp = s.bp := rfl
@[simp] theorem cancel_ip (s t : State) : (cancel s t).ip = s.ip := rfl
@[simp] theorem cancel_fr (s t : State) : (cancel s t).fr = s.fr := rfl
@[simp] theorem cancel_ir (s t : State) : (cancel s t).ir = setBit s.ir 2 true := rfl
@[simp] theorem cancel_halted (s t : State) : (cancel s t).halted = s.halted := rfl
@[simp] theorem cancel_mem (s t : State) : (cancel s t).mem = s.mem := rfl
@[simp] theorem cancel_platform (s t : State) : (cancel s t).platform = s.platform := rfl
@[simp] theorem cancel_pins (s t : State) : (cancel s t).pins = s.pins := rfl
@[simp] theorem cancel_draws (s t : State) : (cancel s t).draws = t.draws := rfl
@[simp] theorem cancel_device (s t : State) : (cancel s t).device = t.device := rfl

@[simp] theorem afterInputs_sp (c : Cfg) (s : State) : (afterInputs c s).sp = spAfter c.in1 (spAfter c.in0 s.sp) := rfl
@[simp] theorem afterInputs_bp (c : Cfg) (s : State) : (afterInputs c s).bp = s.bp := rfl
@[simp] theorem afterInputs_ip (c : Cfg) (s : State) : (afterInputs c s).ip = ipAfter c.in1 (ipAfter c.in0 (s.ip + 2#16)) := rfl
@[simp] theorem afterInputs_fr (c : Cfg) (s : State) : (afterInputs c s).fr = s.fr := rfl
@[simp] theorem afterInputs_ir (c : Cfg) (s : State) : (afterInputs c s).ir = s.ir := rfl
@[simp] theorem afterInputs_halted (c : Cfg) (s : State) : (afterInputs c s).halted = s.halted := rfl
@[simp] theorem afterInputs_mem (c : Cfg) (s : State) : (afterInputs c s).mem = s.mem := rfl
@[simp] theorem afterInputs_platform (c : Cfg) (s : State) : (afterInputs c s).platform = s.platform := rfl
@[simp] theorem afterInputs_pins (c : Cfg) (s : State) : (afterInputs c s).pins = s.pins := rfl
@[simp] theorem afterInputs_draws (c : Cfg) (s : State) : (afterInputs c s).draws = s.draws := rfl
@[simp] theorem afterInputs_device (c : Cfg) (s : State) : (afterInputs c s).device = s.device := rfl

@[simp] theorem skipImmediates_sp (c : Cfg) (s : State) : (skipImmediates c s).sp = s.sp := rfl
@[simp] theorem skipImmediates_bp (c : Cfg) (s : State) : (skipImmediates c s).bp = s.bp := rfl
@[simp] theorem skipImmediates_ip (c : Cfg) (s : State) : (skipImmediates c s).ip = s.ip + BitVec.ofNat 16 (2 * c.immWords) := rfl
@[simp] theorem skipImmediates_fr (c : Cfg) (s : State) : (skipImmediates c s).fr = s.fr := rfl
@[simp] theorem skipImmediates_ir (c : Cfg) (s : State) : (skipImmediates c s).ir = s.ir := rfl
@[simp] theorem skipImmediates_halted (c : Cfg) (s : State) : (skipImmediates c s).halted = s.halted := rfl
@[simp] theorem skipImmediates_mem (c : Cfg) (s : State) : (skipImmediates c s).mem = s.mem := rfl
@[simp] theorem skipImmediates_platform (c : Cfg) (s : State) : (skipImmediates c s).platform = s.platform := rfl
@[simp] theorem skipImmediates_pins (c : Cfg) (s : State) : (skipImmediates c s).pins = s.pins := rfl
@[simp] theorem skipImmediates_draws (c : Cfg) (s : State) : (skipImmediates c s).draws = s.draws := rfl
@[simp] theorem skipImmediates_device (c : Cfg) (s : State) : (skipImmediates c s).device = s.device := rfl

theorem trigger_of_unmasked {n : Nat} {s : State} (h : n < 4 ∨ s.fr.getLsbD n = true) :
    trigger n s = s.setIr (setBit s.ir n true) := by simp [trigger, h]

theorem trigger_of_masked {n : Nat} {s : State} (h : ¬ (n < 4 ∨ s.fr.getLsbD n = true)) :
    trigger n s = s := by simp [trigger, h]

end Sys2Proof.Machine
end

