-- ==== Sys2Proof/Laws/Memory.lean ====
section
/-! SUPPORT. Laws of the memory list: read after write, and the canonical form, which every memory
operation keeps. -/

namespace Sys2Proof.Machine

/-- The byte just written is read back. -/
@[simp] theorem memByte_memSetByte_same (m : Memory) (a : Nat) (v : Byte) :
    memByte (memSetByte m a v) a = some v := by
  induction m with
  | nil => simp [memSetByte, memByte]
  | cons c rest ih =>
    obtain ⟨k, b⟩ := c
    simp only [memSetByte]
    split
    · simp [memByte]
    · split
      · simp [memByte]
      · simp [memByte, *]

/-- A write leaves every other byte alone. -/
theorem memByte_memSetByte_other (m : Memory) {a x : Nat} (v : Byte) (h : x ≠ a) :
    memByte (memSetByte m a v) x = memByte m x := by
  induction m with
  | nil => simp [memSetByte, memByte, h]
  | cons c rest ih =>
    obtain ⟨k, b⟩ := c
    simp only [memSetByte]
    split
    · simp [memByte, h]
    · split
      · rename_i _ hk; subst hk; simp [memByte, h]
      · simp [memByte, ih]

/-- What a byte reads as after one write. -/
theorem memByte_memSetByte (m : Memory) (a x : Nat) (v : Byte) :
    memByte (memSetByte m a v) x = if x = a then some v else memByte m x := by
  split
  · rename_i h; subst h; simp
  · rename_i h; exact memByte_memSetByte_other m v h

theorem memRising_mono {lo lo' : Nat} (h : lo' ≤ lo) {m : Memory} (hm : memRising lo m = true) :
    memRising lo' m = true := by
  cases m with
  | nil => rfl
  | cons c rest =>
    obtain ⟨k, b⟩ := c
    simp only [memRising, Bool.and_eq_true, decide_eq_true_eq] at hm ⊢
    exact ⟨⟨by omega, hm.1.2⟩, hm.2⟩

/-- Writing a byte keeps the addresses rising. -/
theorem memRising_memSetByte {lo a : Nat} {m : Memory} (v : Byte) (hlo : lo ≤ a) (ha : a < 65536)
    (hm : memRising lo m = true) : memRising lo (memSetByte m a v) = true := by
  induction m generalizing lo with
  | nil => simp [memSetByte, memRising, hlo, ha]
  | cons c rest ih =>
    obtain ⟨k, b⟩ := c
    simp only [memRising, Bool.and_eq_true, decide_eq_true_eq] at hm
    obtain ⟨⟨h1, h2⟩, h3⟩ := hm
    simp only [memSetByte]
    split
    · rename_i hk
      simp [memRising, hlo, ha, h2, Nat.succ_le_of_lt hk, h3]
    · split
      · rename_i _ hk; subst hk
        simp [memRising, h1, h2, h3]
      · rename_i hk1 hk2
        have := ih (lo := k + 1) (by omega) h3
        simp [memRising, h1, h2, this]

/-- Writing a byte keeps the canonical form. -/
theorem wf_memSetByte {m : Memory} {a : Nat} (v : Byte) (ha : a < 65536) (h : m.wf = true) :
    Memory.wf (memSetByte m a v) = true :=
  memRising_memSetByte v (Nat.zero_le _) ha h

/-- Writing a word keeps the canonical form. -/
theorem wf_memSetWord {m : Memory} (a v : Word) (h : m.wf = true) :
    Memory.wf (memSetWord m a v) = true :=
  wf_memSetByte _ (a + 1#16).isLt (wf_memSetByte _ a.isLt h)

/-- Storing a run of bytes keeps the canonical form. -/
theorem wf_memSetBytes {m : Memory} (a : Word) (bs : List Byte) (h : m.wf = true) :
    Memory.wf (memSetBytes m a bs) = true := by
  induction bs generalizing m a with
  | nil => exact h
  | cons b bs ih => exact ih _ (wf_memSetByte _ a.isLt h)

/-- Two equal memories read alike; two canonical memories that read alike are equal. -/
theorem eq_of_memByte {lo : Nat} {m m' : Memory} (h : memRising lo m = true)
    (h' : memRising lo m' = true) (heq : ∀ a, memByte m a = memByte m' a) : m = m' := by
  have below : ∀ {lo : Nat} {m : Memory} {a : Nat}, memRising lo m = true → a < lo →
      memByte m a = none := by
    intro lo m
    induction m generalizing lo with
    | nil => intros; rfl
    | cons c rest ih =>
      obtain ⟨k, b⟩ := c
      intro a hm ha
      simp only [memRising, Bool.and_eq_true, decide_eq_true_eq] at hm
      have hne : a ≠ k := by omega
      simp only [memByte, hne, if_false]
      exact ih hm.2 (by omega)
  induction m generalizing lo m' with
  | nil =>
    cases m' with
    | nil => rfl
    | cons c rest => obtain ⟨k, b⟩ := c; have := heq k; simp [memByte] at this
  | cons c rest ih =>
    obtain ⟨k, b⟩ := c
    cases m' with
    | nil => have := heq k; simp [memByte] at this
    | cons c' rest' =>
      obtain ⟨k', b'⟩ := c'
      simp only [memRising, Bool.and_eq_true, decide_eq_true_eq] at h h'
      have hk : k = k' := by
        rcases Nat.lt_trichotomy k k' with hlt | he | hgt
        · have h1 := heq k
          have hne : k ≠ k' := by omega
          simp only [memByte, if_true, hne, if_false] at h1
          rw [below h'.2 (by omega)] at h1; cases h1
        · exact he
        · have h1 := heq k'
          have hne : k' ≠ k := by omega
          simp only [memByte, if_true, hne, if_false] at h1
          rw [below h.2 (by omega)] at h1; cases h1
      subst hk
      have hb := heq k
      simp only [memByte, if_true, Option.some.injEq] at hb
      subst hb
      congr 1
      refine ih h.2 h'.2 fun a => ?_
      have h1 := heq a
      by_cases ha : a = k
      · subst ha; rw [below h.2 (by omega), below h'.2 (by omega)]
      · simpa [memByte, ha] using h1

/-! ## Words -/

theorem getLsbD_joinBytes (hi lo : Byte) (i : Nat) :
    (joinBytes hi lo).getLsbD i = if i < 8 then lo.getLsbD i else hi.getLsbD (i - 8) := by
  have h : (joinBytes hi lo).getLsbD i = _ := BitVec.getLsbD_append
  rw [h]

@[simp] theorem lowByte_joinBytes (hi lo : Byte) : lowByte (joinBytes hi lo) = lo := by
  apply BitVec.eq_of_getLsbD_eq
  intro i h
  simp [lowByte, getLsbD_joinBytes, h]

@[simp] theorem highByte_joinBytes (hi lo : Byte) : highByte (joinBytes hi lo) = hi := by
  apply BitVec.eq_of_getLsbD_eq
  intro i h
  simp [highByte, getLsbD_joinBytes, h]

@[simp] theorem joinBytes_bytes (w : Word) : joinBytes (highByte w) (lowByte w) = w := by
  apply BitVec.eq_of_getLsbD_eq
  intro i h
  rw [getLsbD_joinBytes]
  by_cases h8 : i < 8
  · simp [lowByte, h8]
  · have h1 : 8 + (i - 8) = i := by omega
    have h2 : i - 8 < 8 := by omega
    simp [highByte, h8, h1, h2]

/-- The two bytes of a word do not share an address. -/
theorem toNat_ne_succ (a : Word) : a.toNat ≠ (a + 1#16).toNat := by
  have := a.isLt
  simp only [BitVec.toNat_add, BitVec.toNat_ofNat]
  omega

/-- The word just written is read back. -/
@[simp] theorem memWord_memSetWord_same (m : Memory) (a v : Word) :
    memWord (memSetWord m a v) a = some v := by
  have h := toNat_ne_succ a
  simp only [memWord, memSetWord, memByte_memSetByte, h, if_true, if_false, joinBytes_bytes]

/-- A word write leaves the bytes outside the word alone. -/
theorem memByte_memSetWord_other (m : Memory) {a : Word} {x : Nat} (v : Word) (h : ¬ inWord a x) :
    memByte (memSetWord m a v) x = memByte m x := by
  simp only [inWord, not_or] at h
  simp only [memSetWord, memByte_memSetByte, h.1, h.2, if_false]

/-- A word write leaves a word that shares no byte with it alone. -/
theorem memWord_memSetWord_other (m : Memory) {a b : Word} (v : Word)
    (h0 : ¬ inWord a b.toNat) (h1 : ¬ inWord a (b + 1#16).toNat) :
    memWord (memSetWord m a v) b = memWord m b := by
  simp only [memWord, memByte_memSetWord_other _ _ h0, memByte_memSetWord_other _ _ h1]

end Sys2Proof.Machine
end

