-- ==== Sys2Proof/Laws/Ops.lean ====
section
/-! SUPPORT. One lemma per shared operation that says everything it can do, and one that says when
an ordinary access completes. -/

namespace Sys2Proof.Machine

/-! ## Sequencing -/

@[simp] theorem andThen_ok {α β : Type} (a : α) (s : State) (k : α → State → Res β) :
    (Res.ok a s).andThen k = k a s := rfl

@[simp] theorem andThen_bus {α β : Type} (s : State) (k : α → State → Res β) :
    (Res.bus s : Res α).andThen k = .bus s := rfl

@[simp] theorem andThen_stop {α β : Type} (f : Fault) (k : α → State → Res β) :
    (Res.stop f : Res α).andThen k = .stop f := rfl

/-- A sequence completes exactly when both parts do. -/
theorem andThen_eq_ok {α β : Type} {r : Res α} {k : α → State → Res β} {b : β} {t : State} :
    r.andThen k = .ok b t ↔ ∃ a u, r = .ok a u ∧ k a u = .ok b t := by
  cases r <;> simp [Res.andThen]

/-- A sequence meets BUS in its first part or, that complete, in its second. -/
theorem andThen_eq_bus {α β : Type} {r : Res α} {k : α → State → Res β} {t : State} :
    r.andThen k = .bus t ↔ r = .bus t ∨ ∃ a u, r = .ok a u ∧ k a u = .bus t := by
  cases r <;> simp [Res.andThen]

/-! ## What the environment may change -/

theorem sameButDevice_refl (s : State) : SameButDevice s s := rfl

theorem sameButDevice_trans {s t u : State} (h : SameButDevice s t) (h' : SameButDevice t u) :
    SameButDevice s u := by
  unfold SameButDevice at *
  rw [h'] ; rw [h]; rfl

/-! ## Reads -/

/-- Everything a word access that reads can do (R62, R65, R69, R74). -/
theorem readWord_ok {k : AccessKind} {a v : Word} {s t : State} (h : readWord k a s = .ok v t) :
    isOdd a = false ∧ busSignalled s a .word k = false ∧ SameButDevice s t ∧
      (wordTouches s a .device = false → t = s ∧ memWord s.mem a = some v) := by
  unfold readWord at h
  split at h
  · cases h
  rename_i ha
  split at h
  · cases h
  rename_i hb
  split at h
  · cases h
  rename_i hu
  dsimp only at h
  split at h
  · rename_i lo hi hlo hhi
    refine ⟨by simpa using ha, by simpa using hb, ?_, ?_⟩
    · split at h <;> cases h <;> rfl
    · intro hd
      rw [hd] at h
      cases h
      refine ⟨rfl, ?_⟩
      simp only [wordTouches, Bool.or_eq_false_iff, beq_eq_false_iff_ne] at hd
      unfold cellRead at hlo hhi
      have h1 : memByte s.mem a.toNat = some lo := by
        split at hlo
        · exact absurd ‹_› hd.1
        · exact hlo
        · exact hlo
        · cases hlo
      have h2 : memByte s.mem (a + 1#16).toNat = some hi := by
        split at hhi
        · exact absurd ‹_› hd.2
        · exact hhi
        · exact hhi
        · cases hhi
      simp only [memWord, h1, h2]
  · cases h

/-- A read that BUS answers changes nothing before it. -/
theorem readWord_bus {k : AccessKind} {a : Word} {s t : State} (h : readWord k a s = .bus t) :
    t = s ∧ busSignalled s a .word k = true := by
  unfold readWord at h
  split at h
  · cases h
  split at h
  · cases h; exact ⟨rfl, ‹_›⟩
  split at h
  · cases h
  dsimp only at h
  split at h
  · split at h <;> cases h
  · cases h

/-- An ordinary word read completes and changes nothing. -/
theorem readWord_of_plainWord {k : AccessKind} {a v : Word} {s : State}
    (h : plainWord s k a = some v) : readWord k a s = .ok v s := by
  unfold plainWord at h
  split at h
  swap
  · cases h
  rename_i hc
  simp only [Bool.and_eq_true, Bool.not_eq_true', readable, Bool.or_eq_true, beq_iff_eq] at hc
  obtain ⟨⟨⟨h0, h1⟩, h2⟩, h3⟩ := hc
  unfold memWord at h
  split at h
  swap
  · cases h
  rename_i lo hi hlo hhi
  have c1 : cellRead s (lowByte (Config.freeWord s.draws)) a = some lo := by
    unfold cellRead; rcases h2 with h2 | h2 <;> rw [h2] <;> exact hlo
  have c2 : cellRead s (highByte (Config.freeWord s.draws)) (a + 1#16) = some hi := by
    unfold cellRead; rcases h3 with h3 | h3 <;> rw [h3] <;> exact hhi
  have u1 : wordTouches s a .unmapped = false := by
    unfold wordTouches
    rcases h2 with h2 | h2 <;> rcases h3 with h3 | h3 <;> rw [h2, h3] <;> rfl
  have u2 : wordTouches s a .device = false := by
    unfold wordTouches
    rcases h2 with h2 | h2 <;> rcases h3 with h3 | h3 <;> rw [h2, h3] <;> rfl
  cases h
  simp [readWord, h0, h1, u1, u2, c1, c2]

/-- A word read that can complete does, and asks a device at most once. -/
theorem readWord_of_readable {k : AccessKind} {a v : Word} {s : State}
    (h : readableWord s k a = some v) : readWord k a s = .ok v (afterRead s k a v) := by
  unfold readableWord at h
  split at h
  swap
  · cases h
  rename_i hc
  simp only [Bool.and_eq_true, Bool.not_eq_true'] at hc
  split at h
  swap
  · cases h
  rename_i lo hi hlo hhi
  cases h
  have u1 : wordTouches s a .unmapped = false := by
    have h1 : kindAt s a.toNat ≠ .unmapped := fun e => by
      unfold cellRead at hlo; rw [e] at hlo; cases hlo
    have h2 : kindAt s (a + 1#16).toNat ≠ .unmapped := fun e => by
      unfold cellRead at hhi; rw [e] at hhi; cases hhi
    unfold wordTouches
    rw [beq_false_of_ne h1, beq_false_of_ne h2]
    rfl
  unfold readWord afterRead
  rw [hc.1, hc.2, u1]
  simp only [Bool.false_eq_true, if_false, hlo, hhi]
  split <;> rfl

/-- A read that completes moves neither IP nor SP. -/
@[simp] theorem afterRead_ip (s : State) (k : AccessKind) (a v : Word) :
    (afterRead s k a v).ip = s.ip := by unfold afterRead; split <;> rfl

@[simp] theorem afterRead_sp (s : State) (k : AccessKind) (a v : Word) :
    (afterRead s k a v).sp = s.sp := by unfold afterRead; split <;> rfl

/-- An ordinary read is one that can complete, and it changes nothing. -/
theorem readableWord_of_plain {k : AccessKind} {a v : Word} {s : State}
    (h : plainWord s k a = some v) : readableWord s k a = some v := by
  unfold plainWord at h
  split at h
  swap
  · cases h
  rename_i hc
  simp only [Bool.and_eq_true, Bool.not_eq_true', readable, Bool.or_eq_true, beq_iff_eq] at hc
  obtain ⟨⟨⟨h0, h1⟩, h2⟩, h3⟩ := hc
  unfold memWord at h
  split at h
  swap
  · cases h
  rename_i lo hi hlo hhi
  have c1 : ∀ d, cellRead s d a = some lo := by
    intro d; unfold cellRead; rcases h2 with h2 | h2 <;> rw [h2] <;> exact hlo
  have c2 : ∀ d, cellRead s d (a + 1#16) = some hi := by
    intro d; unfold cellRead; rcases h3 with h3 | h3 <;> rw [h3] <;> exact hhi
  unfold readableWord
  rw [h0, h1, c1, c2]
  exact h

theorem afterRead_of_plain {k : AccessKind} {a v : Word} {s : State}
    (h : plainWord s k a = some v) : afterRead s k a v = s := by
  have h1 := readWord_of_readable (readableWord_of_plain h)
  rw [readWord_of_plainWord h] at h1
  exact ((Res.ok.inj h1).2).symm

/-- A word access at an odd address is undefined behaviour (R65). -/
theorem readWord_odd {k : AccessKind} {a : Word} {s : State} (h : isOdd a = true) :
    readWord k a s = .stop .unaligned := by simp only [readWord, h, if_true]

/-- Everything a byte read can do (R63, R66, R69, R74). -/
theorem readByte_ok {a : Word} {b : Byte} {s t : State} (h : readByte a s = .ok b t) :
    SameButDevice s t ∧ (kindAt s a.toNat ≠ .device → t = s ∧ memByte s.mem a.toNat = some b) := by
  unfold readByte at h
  split at h
  · cases h
  split at h
  · cases h
  · cases h; exact ⟨rfl, fun hd => absurd ‹_› hd⟩
  all_goals
    split at h
    · cases h; exact ⟨rfl, fun _ => ⟨rfl, ‹_›⟩⟩
    · cases h

/-- A byte read that BUS answers changes nothing before it. -/
theorem readByte_bus {a : Word} {s t : State} (h : readByte a s = .bus t) :
    t = s ∧ busSignalled s a .byte .read = true := by
  unfold readByte at h
  split at h
  · cases h; exact ⟨rfl, ‹_›⟩
  split at h
  · cases h
  · cases h
  all_goals split at h <;> cases h

/-- An ordinary byte read completes and changes nothing. -/
theorem readByte_of_plainByte {a : Word} {b : Byte} {s : State} (h : plainByte s a = some b) :
    readByte a s = .ok b s := by
  unfold plainByte at h
  split at h
  swap
  · cases h
  rename_i hc
  simp only [Bool.and_eq_true, Bool.not_eq_true', readable, Bool.or_eq_true, beq_iff_eq] at hc
  rcases hc.2 with h2 | h2 <;> simp [readByte, hc.1, h2, h]

/-- A byte read that can complete does. -/
theorem readByte_of_readable {a : Word} {b : Byte} {s : State} (h : readableByte s a = some b) :
    readByte a s = .ok b (afterReadByte s a b) := by
  unfold readableByte at h
  split at h
  swap
  · cases h
  rename_i hc
  have hb : busSignalled s a .byte .read = false := by simpa using hc
  unfold cellRead at h
  unfold readByte afterReadByte
  rw [hb]
  cases hk : kindAt s a.toNat with
  | device => rw [hk] at h; cases h; rfl
  | ram => rw [hk] at h; simp only at h; simp [h]
  | rom => rw [hk] at h; simp only at h; simp [h]
  | unmapped => rw [hk] at h; cases h

/-! ## Writes -/

/-- Everything a word write can do (R62, R65, R69, R74). -/
theorem writeWord_ok {a v : Word} {s t : State} {u : Unit} (h : writeWord a v s = .ok u t) :
    isOdd a = false ∧ t = (s.setMem t.mem).setDevice t.device ∧
      (∀ x, ¬ inWord a x → memByte t.mem x = memByte s.mem x) ∧
      (s.mem.wf = true → t.mem.wf = true) := by
  have key : ∀ (m : Memory) (b : Word) (w : Byte),
      (∀ x, x ≠ b.toNat → memByte (cellWrite s m b w) x = memByte m x) ∧
      (m.wf = true → Memory.wf (cellWrite s m b w) = true) := by
    intro m b w
    unfold cellWrite
    split
    · exact ⟨fun x hx => memByte_memSetByte_other m w hx, wf_memSetByte w b.isLt⟩
    · exact ⟨fun _ _ => rfl, id⟩
  unfold writeWord at h
  split at h
  · cases h
  rename_i ha
  split at h
  · cases h
  split at h
  · cases h
  split at h
  · cases h
  dsimp only at h
  have hm : t.mem = cellWrite s (cellWrite s s.mem a (lowByte v)) (a + 1#16) (highByte v) := by
    split at h <;> cases h <;> rfl
  refine ⟨by simpa using ha, ?_, ?_, ?_⟩
  · split at h <;> cases h <;> rfl
  · intro x hx
    simp only [inWord, not_or] at hx
    rw [hm, (key _ _ _).1 x hx.2, (key _ _ _).1 x hx.1]
  · intro hw
    rw [hm]
    exact (key _ _ _).2 ((key _ _ _).2 hw)

/-- A write that BUS answers changes nothing before it. -/
theorem writeWord_bus {a v : Word} {s t : State} (h : writeWord a v s = .bus t) :
    t = s ∧ busSignalled s a .word .write = true := by
  unfold writeWord at h
  split at h
  · cases h
  split at h
  · cases h; exact ⟨rfl, ‹_›⟩
  split at h
  · cases h
  split at h
  · cases h
  dsimp only at h
  split at h <;> cases h

/-- An ordinary word write completes. -/
theorem writeWord_of_writable {a : Word} {s : State} (v : Word) (h : wordWritable s a = true) :
    writeWord a v s = .ok () (s.setMem (memSetWord s.mem a v)) := by
  simp only [wordWritable, Bool.and_eq_true, Bool.not_eq_true', beq_iff_eq] at h
  obtain ⟨⟨⟨h0, h1⟩, h2⟩, h3⟩ := h
  have h' : ∀ k, wordTouches s a k = (RegionKind.ram == k || RegionKind.ram == k) := by
    intro k; simp only [wordTouches, h2, h3]
  have hc : cellWrite s (cellWrite s s.mem a (lowByte v)) (a + 1#16) (highByte v) =
      memSetWord s.mem a v := by
    simp only [cellWrite, h2, h3, if_true, memSetWord]
  unfold writeWord
  rw [h0, h1, h', h', h', hc]
  rfl

/-- A word write that can complete does. -/
theorem writeWord_of_storable {a : Word} {s : State} (v : Word) (h : wordStorable s a = true) :
    writeWord a v s = .ok () (storedWord a v s) := by
  simp only [wordStorable, storable, Bool.and_eq_true, Bool.not_eq_true', Bool.or_eq_true,
    beq_iff_eq] at h
  obtain ⟨⟨⟨h0, h1⟩, h2⟩, h3⟩ := h
  have u1 : wordTouches s a .unmapped = false := by
    unfold wordTouches
    rcases h2 with h2 | h2 <;> rcases h3 with h3 | h3 <;> rw [h2, h3] <;> rfl
  have u2 : wordTouches s a .rom = false := by
    unfold wordTouches
    rcases h2 with h2 | h2 <;> rcases h3 with h3 | h3 <;> rw [h2, h3] <;> rfl
  unfold writeWord storedWord
  rw [h0, h1, u1, u2]
  simp only [Bool.false_eq_true, if_false]
  split <;> rfl

/-- A word stored leaves FR alone. -/
@[simp] theorem storedWord_fr (a v : Word) (s : State) : (storedWord a v s).fr = s.fr := by
  unfold storedWord; dsimp only; split <;> rfl

/-- A word stored in plain memory. -/
theorem storedWord_of_writable {a : Word} {s : State} (v : Word) (h : wordWritable s a = true) :
    storedWord a v s = s.setMem (memSetWord s.mem a v) := by
  have hs : wordStorable s a = true := by
    simp only [wordWritable, wordStorable, storable, Bool.and_eq_true, Bool.or_eq_true] at h ⊢
    exact ⟨⟨h.1.1, .inl h.1.2⟩, .inl h.2⟩
  have h1 := writeWord_of_storable v hs
  rw [writeWord_of_writable v h] at h1
  exact ((Res.ok.inj h1).2).symm

/-- Everything a byte write can do (R63, R66, R69, R74). -/
theorem writeByte_ok {a : Word} {b : Byte} {s t : State} {u : Unit}
    (h : writeByte a b s = .ok u t) :
    t = (s.setMem t.mem).setDevice t.device ∧
      (∀ x, x ≠ a.toNat → memByte t.mem x = memByte s.mem x) ∧
      (s.mem.wf = true → t.mem.wf = true) := by
  unfold writeByte at h
  split at h
  · cases h
  split at h
  · cases h
  · cases h
  · cases h; exact ⟨rfl, fun _ _ => rfl, id⟩
  · cases h
    exact ⟨rfl, fun x hx => memByte_memSetByte_other _ _ hx, wf_memSetByte _ a.isLt⟩

/-- A byte write that BUS answers changes nothing before it. -/
theorem writeByte_bus {a : Word} {b : Byte} {s t : State} (h : writeByte a b s = .bus t) :
    t = s ∧ busSignalled s a .byte .write = true := by
  unfold writeByte at h
  split at h
  · cases h; exact ⟨rfl, ‹_›⟩
  split at h <;> cases h

/-- An ordinary byte write completes. -/
theorem writeByte_of_writable {a : Word} {s : State} (b : Byte) (h : byteWritable s a = true) :
    writeByte a b s = .ok () (s.setMem (memSetByte s.mem a.toNat b)) := by
  simp only [byteWritable, Bool.and_eq_true, Bool.not_eq_true', beq_iff_eq] at h
  simp only [writeByte, h.1, h.2]
  rfl

/-- A byte write that can complete does. -/
theorem writeByte_of_storable {a : Word} {s : State} (b : Byte) (h : byteStorable s a = true) :
    writeByte a b s = .ok () (storedByte a b s) := by
  simp only [byteStorable, storable, Bool.and_eq_true, Bool.not_eq_true', Bool.or_eq_true,
    beq_iff_eq] at h
  obtain ⟨h1, h2⟩ := h
  unfold writeByte storedByte
  rw [h1]
  rcases h2 with h2 | h2 <;> rw [h2] <;> rfl

/-! ## The stack -/

/-- Everything a push can do (R21). -/
theorem push_ok {v : Word} {s t : State} {u : Unit} (h : push v s = .ok u t) :
    isOdd (s.sp - 2#16) = false ∧
      t = ((s.setSp (s.sp - 2#16)).setMem t.mem).setDevice t.device ∧
      (∀ x, ¬ inWord (s.sp - 2#16) x → memByte t.mem x = memByte s.mem x) ∧
      (s.mem.wf = true → t.mem.wf = true) := writeWord_ok h

/-- An ordinary push completes. -/
theorem push_of_writable {s : State} (v : Word) (h : wordWritable s (s.sp - 2#16) = true) :
    push v s =
      .ok () ((s.setSp (s.sp - 2#16)).setMem (memSetWord s.mem (s.sp - 2#16) v)) :=
  writeWord_of_writable (s := s.setSp (s.sp - 2#16)) v h

/-- A push that can complete does. -/
theorem push_of_storable {s : State} (v : Word) (h : wordStorable s (s.sp - 2#16) = true) :
    push v s = .ok () (storedWord (s.sp - 2#16) v (s.setSp (s.sp - 2#16))) :=
  writeWord_of_storable (s := s.setSp (s.sp - 2#16)) v h

/-! ## Pointer and flag register writes -/

/-- Everything a write of IP can do (R24, R245). -/
theorem writeIp_ok {v : Word} {s t : State} {u : Unit} :
    writeIp v s = .ok u t ↔ isOdd v = false ∧ t = s.setIp v := by
  unfold writeIp
  by_cases hv : isOdd v = true
  · simp [hv]
  · simp only [hv, Bool.false_eq_true, if_false]
    constructor
    · intro h; cases h; simp
    · rintro ⟨-, rfl⟩; rfl

/-- Everything a write of SP can do (R22). -/
theorem writeSp_ok {v : Word} {s t : State} {u : Unit} :
    writeSp v s = .ok u t ↔ isOdd v = false ∧ t = s.setSp v := by
  unfold writeSp
  by_cases hv : isOdd v = true
  · simp [hv]
  · simp only [hv, Bool.false_eq_true, if_false]
    constructor
    · intro h; cases h; simp
    · rintro ⟨-, rfl⟩; rfl

/-- Everything a write of BP can do (R23). -/
theorem writeBp_ok {v : Word} {s t : State} {u : Unit} :
    writeBp v s = .ok u t ↔ isOdd v = false ∧ t = s.setBp v := by
  unfold writeBp
  by_cases hv : isOdd v = true
  · simp [hv]
  · simp only [hv, Bool.false_eq_true, if_false]
    constructor
    · intro h; cases h; simp
    · rintro ⟨-, rfl⟩; rfl

/-- Everything a write of FR as data can do (R28). -/
theorem writeFr_ok {v : Word} {s t : State} {u : Unit} :
    writeFr v s = .ok u t ↔ v &&& frReserved s.platform.variant = 0#16 ∧ t = s.setFr v := by
  unfold writeFr
  split
  · rename_i hv
    constructor
    · intro h; cases h; exact ⟨hv, rfl⟩
    · rintro ⟨-, rfl⟩; rfl
  · rename_i hv
    constructor
    · intro h; cases h
    · rintro ⟨h, -⟩; exact absurd h hv

/-- None of the four meets BUS: they make no access. -/
theorem writeIp_ne_bus {v : Word} {s t : State} : writeIp v s ≠ .bus t := by
  unfold writeIp; split <;> simp

theorem writeSp_ne_bus {v : Word} {s t : State} : writeSp v s ≠ .bus t := by
  unfold writeSp; split <;> simp

theorem writeBp_ne_bus {v : Word} {s t : State} : writeBp v s ≠ .bus t := by
  unfold writeBp; split <;> simp

theorem writeFr_ne_bus {v : Word} {s t : State} : writeFr v s ≠ .bus t := by
  unfold writeFr; split <;> simp

/-- Everything the transfer of SETIP and ADDIP can do (R240, R241). -/
theorem transfer_ok {x b : Word} {s t : State} {u : Unit} :
    transfer x b s = .ok u t ↔
      isOdd x = false ∧ (s.fr ||| b) &&& frReserved s.platform.variant = 0#16 ∧
        t = (s.setIp x).setFr (s.fr ||| b) := by
  unfold transfer
  rw [andThen_eq_ok]
  constructor
  · rintro ⟨_, w, h1, h2⟩
    obtain ⟨h3, rfl⟩ := writeIp_ok.1 h1
    obtain ⟨h4, rfl⟩ := writeFr_ok.1 h2
    exact ⟨h3, h4, rfl⟩
  · rintro ⟨h1, h2, rfl⟩
    exact ⟨(), s.setIp x, writeIp_ok.2 ⟨h1, rfl⟩, writeFr_ok.2 ⟨h2, rfl⟩⟩

/-- An even IP is written, an odd one stops (R24). -/
theorem writeIp_of_even {v : Word} {s : State} (h : isOdd v = false) :
    writeIp v s = .ok () (s.setIp v) := writeIp_ok.2 ⟨h, rfl⟩

theorem writeIp_of_odd {v : Word} {s : State} (h : isOdd v = true) :
    writeIp v s = .stop .oddPointer := by simp only [writeIp, h, if_true]

/-- An even SP is written, an odd one stops (R22). -/
theorem writeSp_of_even {v : Word} {s : State} (h : isOdd v = false) :
    writeSp v s = .ok () (s.setSp v) := writeSp_ok.2 ⟨h, rfl⟩

theorem writeSp_of_odd {v : Word} {s : State} (h : isOdd v = true) :
    writeSp v s = .stop .oddPointer := by simp only [writeSp, h, if_true]

/-- An even BP is written, an odd one stops (R23). -/
theorem writeBp_of_even {v : Word} {s : State} (h : isOdd v = false) :
    writeBp v s = .ok () (s.setBp v) := writeBp_ok.2 ⟨h, rfl⟩

theorem writeBp_of_odd {v : Word} {s : State} (h : isOdd v = true) :
    writeBp v s = .stop .oddPointer := by simp only [writeBp, h, if_true]

/-- FR is written if no reserved bit stays set, else the write stops (R28). -/
theorem writeFr_of_clean {v : Word} {s : State} (h : v &&& frReserved s.platform.variant = 0#16) :
    writeFr v s = .ok () (s.setFr v) := if_pos h

theorem writeFr_of_reserved {v : Word} {s : State}
    (h : v &&& frReserved s.platform.variant ≠ 0#16) : writeFr v s = .stop .frReservedBits :=
  if_neg h

/-- The three ways a transfer ends (R240, R241). -/
theorem transfer_of_clean {x b : Word} {s : State} (h : isOdd x = false)
    (hf : (s.fr ||| b) &&& frReserved s.platform.variant = 0#16) :
    transfer x b s = .ok () ((s.setIp x).setFr (s.fr ||| b)) := by
  unfold transfer
  rw [writeIp_of_even h, andThen_ok]
  exact writeFr_of_clean hf

theorem transfer_of_odd {x b : Word} {s : State} (h : isOdd x = true) :
    transfer x b s = .stop .oddPointer := by
  unfold transfer
  rw [writeIp_of_odd h, andThen_stop]

theorem transfer_of_reserved {x b : Word} {s : State} (h : isOdd x = false)
    (hf : (s.fr ||| b) &&& frReserved s.platform.variant ≠ 0#16) :
    transfer x b s = .stop .frReservedBits := by
  unfold transfer
  rw [writeIp_of_even h, andThen_ok]
  exact writeFr_of_reserved hf

end Sys2Proof.Machine
end

