-- ==== Sys2Proof/Laws/Flags.lean ====
section
/-! SUPPORT. The bits of FR and IR after the flag computations. -/

namespace Sys2Proof.Machine

/-- Bit `i` of the word with bit `n` alone set. -/
theorem getLsbD_bitWord {n i : Nat} (hn : n < 16) : (bitWord n).getLsbD i = decide (i = n) := by
  unfold bitWord
  rw [BitVec.getLsbD_shiftLeft, BitVec.getLsbD_one]
  by_cases h : i = n
  · subst h; simp [hn]
  · have : i < n ∨ i - n ≠ 0 := by omega
    rcases this with h' | h' <;> simp [h, h']

/-- Setting or clearing bit `n` changes that bit only. -/
theorem getLsbD_setBit {w : Word} {n i : Nat} (b : Bool) (hn : n < 16) :
    (setBit w n b).getLsbD i = if i = n then b else w.getLsbD i := by
  unfold setBit
  by_cases hi : i < 16
  · cases b
    · simp only [Bool.false_eq_true, if_false, BitVec.getLsbD_and, BitVec.getLsbD_not, hi,
        decide_true, Bool.true_and, getLsbD_bitWord hn]
      by_cases h : i = n <;> simp [h]
    · simp only [if_true, BitVec.getLsbD_or, getLsbD_bitWord hn]
      by_cases h : i = n <;> simp [h]
  · have h1 : i ≠ n := by omega
    have h2 : 16 ≤ i := by omega
    rw [if_neg h1, BitVec.getLsbD_of_ge _ _ h2, BitVec.getLsbD_of_ge _ _ h2]

/-- The flag step leaves every bit but Z and N (R140). -/
theorem getLsbD_modifyFlags {flg : Bool} {o fr : Word} {i : Nat} (h : 2 ≤ i) :
    (modifyFlags flg o fr).getLsbD i = fr.getLsbD i := by
  unfold modifyFlags
  split
  · rw [getLsbD_setBit _ (by omega), getLsbD_setBit _ (by omega), if_neg (by omega),
      if_neg (by omega)]
  · rfl

@[simp] theorem modifyFlags_false (o fr : Word) : modifyFlags false o fr = fr := rfl

/-- The carry write changes bit 2 only. -/
theorem getLsbD_setC {fr : Word} {b : Bool} {i : Nat} :
    (setC fr b).getLsbD i = if i = 2 then b else fr.getLsbD i := getLsbD_setBit b (by omega)

/-- A bit mask test is a statement about bits. -/
theorem and_eq_zero_iff {w m : Word} :
    w &&& m = 0#16 ↔ ∀ i, m.getLsbD i = true → w.getLsbD i = false := by
  constructor
  · intro h i hm
    have := congrArg (fun x : Word => x.getLsbD i) h
    simpa [hm] using this
  · intro h
    apply BitVec.eq_of_getLsbD_eq
    intro i _
    cases hm : m.getLsbD i
    · simp [hm]
    · simp [h i hm]

/-- The reserved bits of FR are bits 4 and up. -/
theorem frReserved_low {v : Variant} {i : Nat} (h : i < 4) : (frReserved v).getLsbD i = false := by
  cases v <;> interval_cases i <;> rfl

/-- A reserved-bit test depends only on the bits from 4 up. -/
theorem frReserved_congr {v : Variant} {w w' : Word}
    (h : ∀ i, 4 ≤ i → w'.getLsbD i = true → w.getLsbD i = true)
    (hw : w &&& frReserved v = 0#16) : w' &&& frReserved v = 0#16 := by
  rw [and_eq_zero_iff] at hw ⊢
  intro i hm
  by_cases hi : i < 4
  · rw [frReserved_low hi] at hm; cases hm
  · cases hc : w'.getLsbD i
    · rfl
    · exact absurd (h i (by omega) hc) (by simp [hw i hm])

/-- Adding 2 does not change the parity. -/
@[simp] theorem isOdd_add_two (a : Word) : isOdd (a + 2#16) = isOdd a := by
  unfold isOdd
  rw [BitVec.getLsbD_eq_getElem (by omega), BitVec.getLsbD_eq_getElem (by omega)]
  simp [BitVec.getElem_eq_testBit_toNat, Nat.testBit_zero]

/-- Subtracting 2 does not change the parity. -/
@[simp] theorem isOdd_sub_two (a : Word) : isOdd (a - 2#16) = isOdd a := by
  have h := isOdd_add_two (a - 2#16)
  rw [BitVec.sub_add_cancel] at h
  exact h.symm

end Sys2Proof.Machine
end

