-- ==== Sys2Proof/Laws/Instruction.lean ====
section
/-! SUPPORT. What one instruction can do (40_execution_model.md R121): its inputs, its output, the
inversion of `instruction`, and when it completes. -/

namespace Sys2Proof.Machine

/-! ## Inputs -/

/-- Everything taking an input can do (R130): IP and SP move as the field says, and the environment
may have been asked. -/
theorem fetchInput_ok {k : Input} {s t : State} {v : Word} (h : fetchInput k s = .ok v t) :
    SameButDevice ((s.setIp (ipAfter k s.ip)).setSp (spAfter k s.sp)) t := by
  cases k with
  | zero => cases h; rfl
  | imm =>
    obtain ⟨w, u, h1, h2⟩ := andThen_eq_ok.1 h
    cases h2
    have := (readWord_ok h1).2.2.1
    unfold SameButDevice at this ⊢
    rw [this]; rfl
  | peek => exact (readWord_ok h).2.2.1
  | pop =>
    obtain ⟨w, u, h1, h2⟩ := andThen_eq_ok.1 h
    cases h2
    have := (readWord_ok h1).2.2.1
    unfold SameButDevice at this ⊢
    rw [this]; rfl

/-- Taking both inputs (R130, R131) leads to the state of `afterInputs`. -/
theorem inputs_ok {c : Cfg} {s s0 s1 : State} {a b : Word}
    (h0 : fetchInput c.in0 (s.setIp (s.ip + 2#16)) = .ok a s0)
    (h1 : fetchInput c.in1 s0 = .ok b s1) : SameButDevice (afterInputs c s) s1 := by
  have h0 := fetchInput_ok h0
  have h1 := fetchInput_ok h1
  unfold SameButDevice at *
  rw [h1, h0]; rfl

/-- An input that can be taken is taken. -/
theorem fetchInput_of_take {k : Input} {s t : State} {v : Word} (h : takeInput k s = some (v, t)) :
    fetchInput k s = .ok v t := by
  cases k with
  | zero => cases h; rfl
  | imm =>
    obtain ⟨w, hw, h2⟩ := Option.map_eq_some_iff.1 h
    cases h2
    simp only [fetchInput, readWord_of_readable hw, andThen_ok, afterRead_ip]
  | peek =>
    obtain ⟨w, hw, h2⟩ := Option.map_eq_some_iff.1 h
    cases h2
    exact readWord_of_readable hw
  | pop =>
    obtain ⟨w, hw, h2⟩ := Option.map_eq_some_iff.1 h
    cases h2
    simp only [fetchInput, pop, readWord_of_readable hw, andThen_ok, afterRead_sp]

/-- Both inputs that can be taken are taken, `input0` first (R131). -/
theorem takeInputs_eq_some {c : Cfg} {s t : State} {a b : Word}
    (h : takeInputs c s = some (a, b, t)) :
    ∃ u, takeInput c.in0 (s.setIp (s.ip + 2#16)) = some (a, u) ∧ takeInput c.in1 u = some (b, t) := by
  obtain ⟨x, hx, h⟩ := Option.bind_eq_some_iff.1 h
  obtain ⟨y, hy, h⟩ := Option.map_eq_some_iff.1 h
  cases h
  exact ⟨x.2, hx, hy⟩

/-- The state after the inputs is that of `afterInputs`, but for what a device was asked. -/
theorem executes_same {c : Cfg} {s t : State} {a b : Word} (h : Executes c s a b t) :
    SameButDevice (afterInputs c s) t := by
  obtain ⟨u, h0, h1⟩ := takeInputs_eq_some h.2
  exact inputs_ok (fetchInput_of_take h0) (fetchInput_of_take h1)

/-- An input from plain memory. -/
theorem takeInput_pop_of_plain {s : State} {v : Word} (h : plainWord s .read s.sp = some v) :
    takeInput .pop s = some (v, s.setSp (s.sp + 2#16)) := by
  simp only [takeInput, readableWord_of_plain h, Option.map_some, afterRead_of_plain h]

theorem takeInput_peek_of_plain {s : State} {v : Word} (h : plainWord s .read s.sp = some v) :
    takeInput .peek s = some (v, s) := by
  simp only [takeInput, readableWord_of_plain h, Option.map_some, afterRead_of_plain h]

theorem takeInput_imm_of_plain {s : State} {v : Word} (h : plainWord s .fetch s.ip = some v) :
    takeInput .imm s = some (v, s.setIp (s.ip + 2#16)) := by
  simp only [takeInput, readableWord_of_plain h, Option.map_some, afterRead_of_plain h]

/-! ## Output -/

/-- Everything the output behaviour can do (R138). -/
theorem handleOutput_ok {out : Bool} {o : Word} {s t : State} {u : Unit}
    (h : handleOutput out o s = .ok u t) :
    t = ((s.setSp (if out then s.sp - 2#16 else s.sp)).setMem t.mem).setDevice t.device ∧
      (∀ x, ¬ (out = true ∧ inWord (s.sp - 2#16) x) → memByte t.mem x = memByte s.mem x) ∧
      (s.mem.wf = true → t.mem.wf = true) := by
  cases out with
  | false => cases h; exact ⟨rfl, fun _ _ => rfl, id⟩
  | true =>
    obtain ⟨-, h1, h2, h3⟩ := push_ok (show push o s = .ok u t from h)
    exact ⟨h1, fun x hx => h2 x fun hi => hx ⟨rfl, hi⟩, h3⟩

/-! ## The instruction -/

/-- Everything an instruction that answers a next state can have done: it was skipped, cancelled by
BUS, or executed in the five parts of R121. -/
theorem instruction_next {c : Cfg} {cmd : Command} {s t : State}
    (h : instruction c cmd s = .next t) :
    (condHolds c.cond s.fr = false ∧ t = skipImmediates c (s.setIp (s.ip + 2#16))) ∨
    (∃ u, t = cancel s u) ∨
    (condHolds c.cond s.fr = true ∧ ∃ a s0 b s1 o s2 s3,
      fetchInput c.in0 (s.setIp (s.ip + 2#16)) = .ok a s0 ∧ fetchInput c.in1 s0 = .ok b s1 ∧
      cmd a b s1 = .ok o s2 ∧ handleOutput c.out o s2 = .ok () s3 ∧
      t = s3.setFr (modifyFlags c.flg o s3.fr)) := by
  unfold instruction runOrSkip at h
  by_cases hc : condHolds c.cond s.fr = true
  · simp only [setIp_fr, hc, if_true] at h
    cases hr : runBody c cmd (s.setIp (s.ip + 2#16)) with
    | stop f => rw [hr] at h; cases h
    | bus u => rw [hr] at h; cases h; exact .inr (.inl ⟨u, rfl⟩)
    | ok x u =>
      rw [hr] at h; cases h
      obtain ⟨a, s0, h0, hr⟩ := andThen_eq_ok.1 hr
      obtain ⟨b, s1, h1, hr⟩ := andThen_eq_ok.1 hr
      obtain ⟨o, s2, h2, hr⟩ := andThen_eq_ok.1 hr
      obtain ⟨_, s3, h3, hr⟩ := andThen_eq_ok.1 hr
      cases hr
      exact .inr (.inr ⟨hc, a, s0, b, s1, o, s2, s3, h0, h1, h2, h3, rfl⟩)
  · simp only [setIp_fr, hc, Bool.false_eq_true, if_false] at h
    cases h
    exact .inl ⟨by simpa using hc, rfl⟩

/-- An instruction whose inputs can be taken runs its command on the state after them. -/
theorem instruction_of_executes {c : Cfg} {cmd : Command} {s t : State} {a b : Word}
    (h : Executes c s a b t) :
    instruction c cmd s = settle s ((cmd a b t).andThen fun o u =>
      (handleOutput c.out o u).andThen fun _ w => .ok () (w.setFr (modifyFlags c.flg o w.fr))) := by
  obtain ⟨u, h0, h1⟩ := takeInputs_eq_some h.2
  unfold instruction runOrSkip
  simp only [setIp_fr, h.1, if_true, runBody, fetchInput_of_take h0, fetchInput_of_take h1, andThen_ok]

/-- An output that can be pushed is pushed or dropped. -/
theorem handleOutput_of_canOutput {c : Cfg} {o : Word} {t : State} (h : canOutput c t = true) :
    handleOutput c.out o t = .ok () (withOutput c o t) := by
  unfold canOutput at h
  cases hc : c.out with
  | false => simp [handleOutput, withOutput, hc]
  | true =>
    rw [hc] at h
    simp only [Bool.not_true, Bool.false_or] at h
    simp only [handleOutput, if_true, withOutput, hc, push_of_storable o h]

/-- When an instruction completes, and with what (R121): the law the result statements rest on. -/
theorem instruction_completes {c : Cfg} {cmd : Command} {s u t : State} {a b o : Word}
    (h : Executes c s a b u) (hcmd : cmd a b u = .ok o t)
    (hout : canOutput c t = true) : instruction c cmd s = .next (concluded c o t) := by
  rw [instruction_of_executes h, hcmd, andThen_ok, handleOutput_of_canOutput hout, andThen_ok]
  unfold settle concluded
  have : (withOutput c o t).fr = t.fr := by
    unfold withOutput
    split
    · exact storedWord_fr _ _ _
    · rfl
  rw [this]

/-- An instruction whose command meets undefined behaviour stops with it. -/
theorem instruction_stops {c : Cfg} {cmd : Command} {s t : State} {a b : Word} {f : Fault}
    (h : Executes c s a b t) (hcmd : cmd a b t = .stop f) :
    instruction c cmd s = .fault f := by
  rw [instruction_of_executes h, hcmd]; rfl

/-- An instruction whose command is answered with BUS is cancelled (R264). -/
theorem instruction_bus {c : Cfg} {cmd : Command} {s t u : State} {a b : Word}
    (h : Executes c s a b t) (hcmd : cmd a b t = .bus u) :
    instruction c cmd s = .next (cancel s u) := by
  rw [instruction_of_executes h, hcmd]; rfl

/-- An instruction whose condition is false only moves IP past itself (R127). -/
theorem instruction_skips {c : Cfg} {cmd : Command} {s : State}
    (h : condHolds c.cond s.fr = false) :
    instruction c cmd s = .next (skipImmediates c (s.setIp (s.ip + 2#16))) := by
  unfold instruction runOrSkip
  simp only [setIp_fr, h, Bool.false_eq_true, if_false]
  rfl

/-! ## What the ordinary accesses depend on -/

/-- Whether an access is ordinary depends on the platform and the memory alone. -/
theorem plainWord_congr {s t : State} {k : AccessKind} {a : Word} (hp : t.platform = s.platform)
    (hm : t.mem = s.mem) : plainWord t k a = plainWord s k a := by
  unfold plainWord busSignalled readable kindAt
  rw [hp, hm]

theorem plainByte_congr {s t : State} {a : Word} (hp : t.platform = s.platform)
    (hm : t.mem = s.mem) : plainByte t a = plainByte s a := by
  unfold plainByte busSignalled readable kindAt
  rw [hp, hm]

theorem wordStorable_congr {s t : State} {a : Word} (hp : t.platform = s.platform) :
    wordStorable t a = wordStorable s a := by
  unfold wordStorable storable busSignalled kindAt
  rw [hp]

theorem canOutput_congr {c : Cfg} {s t : State} (hp : t.platform = s.platform)
    (hs : t.sp = s.sp) : canOutput c t = canOutput c s := by
  unfold canOutput
  rw [hs, wordStorable_congr hp]

theorem wordWritable_congr {s t : State} {a : Word} (hp : t.platform = s.platform) :
    wordWritable t a = wordWritable s a := by
  unfold wordWritable busSignalled kindAt
  rw [hp]

theorem byteWritable_congr {s t : State} {a : Word} (hp : t.platform = s.platform) :
    byteWritable t a = byteWritable s a := by
  unfold byteWritable busSignalled kindAt
  rw [hp]

end Sys2Proof.Machine
end

