-- ==== Sys2Proof/Laws/Commands.lean ====
section
/-! SUPPORT. What each command can do: `exec` as `instruction` over the command of its arm, and one
lemma per command that changes more than its output. -/

namespace Sys2Proof.Machine

/-- The command of an instruction (R136), read off the meanings. -/
def commandOf : Instr → Command
  | .copy _ => pureCommand fun a _ => a
  | .reserved1 _ => cmdReserved
  | .get _ => cmdGet
  | .set _ => cmdSet
  | .store8 _ => cmdStore8
  | .store16 _ => cmdStore16
  | .load8 _ => cmdLoad8
  | .load16 _ => cmdLoad16
  | .cpuid _ => cmdCpuid
  | .halt _ => cmdHalt
  | .frget _ => cmdFrget
  | .frset _ => cmdFrset
  | .bpget _ => cmdBpget
  | .bpset _ => cmdBpset
  | .spget _ => cmdSpget
  | .spset _ => cmdSpset
  | .add _ => cmdAdd
  | .sub _ => cmdSub
  | .mul _ => cmdMul
  | .div _ => cmdDiv
  | .mod _ => cmdMod
  | .and _ => pureCommand fun a b => a &&& b
  | .or _ => pureCommand fun a b => a ||| b
  | .xor _ => pureCommand fun a b => a ^^^ b
  | .not _ => pureCommand fun a _ => ~~~a
  | .signext _ => pureCommand fun a _ => signExtByte a
  | .rol _ => pureCommand fun a _ => rotateLeft1 a
  | .ror _ => pureCommand fun a _ => rotateRight1 a
  | .bswap _ => pureCommand fun a _ => swapBytes a
  | .asr _ => pureCommand fun a _ => shiftRightArith1 a
  | .lsl _ => pureCommand fun a _ => shiftLeft1 a
  | .lsr _ => pureCommand fun a _ => shiftRight1 a
  | .setip _ => cmdSetip
  | .addip _ => cmdAddip
  | .intr _ => cmdIntr
  | .reserved35 _ => cmdReserved
  | .reserved36 _ => cmdReserved
  | .reserved37 _ => cmdReserved
  | .reserved38 _ => cmdReserved
  | .reserved39 _ => cmdReserved
  | .reserved40 _ => cmdReserved
  | .reserved41 _ => cmdReserved
  | .reserved42 _ => cmdReserved
  | .reserved43 _ => cmdReserved
  | .reserved44 _ => cmdReserved
  | .reserved45 _ => cmdReserved
  | .reserved46 _ => cmdReserved
  | .reserved47 _ => cmdReserved
  | .reserved48 _ => cmdReserved
  | .reserved49 _ => cmdReserved
  | .reserved50 _ => cmdReserved
  | .reserved51 _ => cmdReserved
  | .reserved52 _ => cmdReserved
  | .reserved53 _ => cmdReserved
  | .reserved54 _ => cmdReserved
  | .reserved55 _ => cmdReserved
  | .reserved56 _ => cmdReserved
  | .reserved57 _ => cmdReserved
  | .reserved58 _ => cmdReserved
  | .reserved59 _ => cmdReserved
  | .reserved60 _ => cmdReserved
  | .reserved61 _ => cmdReserved
  | .reserved62 _ => cmdReserved
  | .reserved63 _ => cmdReserved
/-- Every meaning is `instruction` over its command. -/
theorem exec_eq (i : Instr) (s : State) : exec i s = instruction i.cfg (commandOf i) s := by
  cases i <;> rfl

/-! ## Data movement -/

/-- Everything GET can do: the environment may have been asked (R161). -/
theorem cmdGet_ok {a b o : Word} {s t : State} (h : cmdGet a b s = .ok o t) :
    SameButDevice s t := (readWord_ok h).2.2.1

/-- Everything SET can do (R162). -/
theorem cmdSet_ok {a b o : Word} {s t : State} (h : cmdSet a b s = .ok o t) :
    o = b ∧ t = (s.setMem t.mem).setDevice t.device ∧
      (∀ x, ¬ inWord (frameAddr s.bp a) x → memByte t.mem x = memByte s.mem x) ∧
      (s.mem.wf = true → t.mem.wf = true) := by
  obtain ⟨_, u, h1, h2⟩ := andThen_eq_ok.1 h
  cases h2
  exact ⟨rfl, (writeWord_ok h1).2⟩

/-- Everything STORE8 can do (R163). -/
theorem cmdStore8_ok {a b o : Word} {s t : State} (h : cmdStore8 a b s = .ok o t) :
    o = a &&& 0x00FF#16 ∧ t = (s.setMem t.mem).setDevice t.device ∧
      (∀ x, x ≠ b.toNat → memByte t.mem x = memByte s.mem x) ∧
      (s.mem.wf = true → t.mem.wf = true) := by
  obtain ⟨_, u, h1, h2⟩ := andThen_eq_ok.1 h
  cases h2
  exact ⟨rfl, writeByte_ok h1⟩

/-- Everything STORE16 can do (R164). -/
theorem cmdStore16_ok {a b o : Word} {s t : State} (h : cmdStore16 a b s = .ok o t) :
    o = a ∧ t = (s.setMem t.mem).setDevice t.device ∧
      (∀ x, ¬ inWord b x → memByte t.mem x = memByte s.mem x) ∧
      (s.mem.wf = true → t.mem.wf = true) := by
  obtain ⟨_, u, h1, h2⟩ := andThen_eq_ok.1 h
  cases h2
  exact ⟨rfl, (writeWord_ok h1).2⟩

/-- Everything LOAD8 can do (R165). -/
theorem cmdLoad8_ok {a b o : Word} {s t : State} (h : cmdLoad8 a b s = .ok o t) :
    SameButDevice s t := by
  obtain ⟨_, u, h1, h2⟩ := andThen_eq_ok.1 h
  cases h2
  exact (readByte_ok h1).1

/-- Everything LOAD16 can do (R166). -/
theorem cmdLoad16_ok {a b o : Word} {s t : State} (h : cmdLoad16 a b s = .ok o t) :
    SameButDevice s t := (readWord_ok h).2.2.1

/-! ## System and registers -/

/-- Everything CPUID can do (R180). -/
theorem cmdCpuid_ok {a b o : Word} {s t : State} (h : cmdCpuid a b s = .ok o t) :
    a = 0#16 ∧ b = 0#16 ∧ o = 0#16 ∧ t = s := by
  unfold cmdCpuid at h
  split at h
  · cases h; rename_i hab; exact ⟨hab.1, hab.2, rfl, rfl⟩
  · cases h

/-- Everything FRSET can do (R184). -/
theorem cmdFrset_ok {a b o : Word} {s t : State} (h : cmdFrset a b s = .ok o t) :
    ((a &&& ~~~b) ||| (s.fr &&& b)) &&& frReserved s.platform.variant = 0#16 ∧ o = s.fr ∧
      t = s.setFr ((a &&& ~~~b) ||| (s.fr &&& b)) := by
  obtain ⟨_, u, h1, h2⟩ := andThen_eq_ok.1 h
  cases h2
  obtain ⟨h3, h4⟩ := writeFr_ok.1 h1
  exact ⟨h3, rfl, h4⟩

/-- Everything BPSET can do (R186). -/
theorem cmdBpset_ok {a b o : Word} {s t : State} (h : cmdBpset a b s = .ok o t) :
    isOdd a = false ∧ o = s.bp ∧ t = s.setBp a := by
  obtain ⟨_, u, h1, h2⟩ := andThen_eq_ok.1 h
  cases h2
  obtain ⟨h3, h4⟩ := writeBp_ok.1 h1
  exact ⟨h3, rfl, h4⟩

/-- Everything SPSET can do (R188). -/
theorem cmdSpset_ok {a b o : Word} {s t : State} (h : cmdSpset a b s = .ok o t) :
    isOdd a = false ∧ o = s.sp ∧ t = s.setSp a := by
  obtain ⟨_, u, h1, h2⟩ := andThen_eq_ok.1 h
  cases h2
  obtain ⟨h3, h4⟩ := writeSp_ok.1 h1
  exact ⟨h3, rfl, h4⟩

/-! ## DIV and MOD -/

/-- Everything DIV and MOD can do besides their output (R203 to R205): nothing, a draw, or a draw
with ARITH triggered. -/
theorem divideWith_ok {f : Int → Int → Int → Int} {a b o : Word} {s t : State}
    (h : divideWith f a b s = .ok o t) :
    t = s ∨ t = s.setDraws (s.draws + 1) ∨
      (b = 0#16 ∧ s.platform.variant = .markII ∧ t = (trigger 4 s).setDraws (s.draws + 1)) := by
  unfold divideWith at h
  split at h
  · rename_i hb
    unfold divideByZero at h
    split at h
    · rename_i hv
      cases h
      refine .inr (.inr ⟨hb, hv, ?_⟩)
      unfold trigger
      split <;> rfl
    · cases h
  split at h
  · cases h; exact .inr (.inl rfl)
  split at h
  · cases h; exact .inl rfl
  · cases h; exact .inr (.inl rfl)

/-! ## Control transfer and interrupt request -/

/-- Everything SETIP can do (R240). -/
theorem cmdSetip_ok {a b o : Word} {s t : State} (h : cmdSetip a b s = .ok o t) :
    isOdd a = false ∧ (s.fr ||| b) &&& frReserved s.platform.variant = 0#16 ∧ o = s.ip ∧
      t = (s.setIp a).setFr (s.fr ||| b) := by
  obtain ⟨_, u, h1, h2⟩ := andThen_eq_ok.1 h
  cases h2
  obtain ⟨h3, h4, h5⟩ := transfer_ok.1 h1
  exact ⟨h3, h4, rfl, h5⟩

/-- Everything ADDIP can do (R241). -/
theorem cmdAddip_ok {a b o : Word} {s t : State} (h : cmdAddip a b s = .ok o t) :
    isOdd (s.ip + a) = false ∧ (s.fr ||| b) &&& frReserved s.platform.variant = 0#16 ∧
      o = s.ip ∧ t = (s.setIp (s.ip + a)).setFr (s.fr ||| b) := by
  obtain ⟨_, u, h1, h2⟩ := andThen_eq_ok.1 h
  cases h2
  obtain ⟨h3, h4, h5⟩ := transfer_ok.1 h1
  exact ⟨h3, h4, rfl, h5⟩

/-- Everything INTR can do (R242). -/
theorem cmdIntr_ok {a b o : Word} {s t : State} (h : cmdIntr a b s = .ok o t) :
    s.platform.variant = .markII ∧ a &&& irReserved = 0#16 ∧ o = a ∧
      t = s.setIr (s.ir ||| a) := by
  unfold cmdIntr at h
  split at h
  · cases h
  · rename_i hv
    split at h
    · rename_i ha; cases h; exact ⟨hv, ha, rfl, rfl⟩
    · cases h

end Sys2Proof.Machine
end

