-- ==== Sys2Proof/Laws/Environment.lean ====
section
/-! SUPPORT. No operation inside a step changes the parameters of the platform or the schedule of the
signals, and none forgets a draw or a device access, whether it completes or meets BUS. -/

namespace Sys2Proof.Machine

/-- `t` has the parameters and the schedule of `s`, and at least its draws and device accesses. -/
def Grows (s t : State) : Prop :=
  t.platform = s.platform ∧ t.pins = s.pins ∧ s.draws ≤ t.draws ∧ s.device <:+ t.device

/-- Every state a result holds has grown from `s`. -/
def GrowsTo {α : Type} (s : State) (r : Res α) : Prop :=
  (∀ a t, r = .ok a t → Grows s t) ∧ ∀ t, r = .bus t → Grows s t

theorem grows_refl (s : State) : Grows s s :=
  ⟨rfl, rfl, Nat.le_refl _, List.suffix_refl _⟩

theorem grows_trans {s t u : State} (h : Grows s t) (h' : Grows t u) : Grows s u :=
  ⟨h'.1.trans h.1, h'.2.1.trans h.2.1, Nat.le_trans h.2.2.1 h'.2.2.1,
    List.IsSuffix.trans h.2.2.2 h'.2.2.2⟩

theorem growsTo_ok {α : Type} {s t : State} {a : α} (h : Grows s t) : GrowsTo s (.ok a t) :=
  ⟨fun _ _ e => by cases e; exact h, fun _ e => by cases e⟩

theorem growsTo_bus {α : Type} {s t : State} (h : Grows s t) :
    GrowsTo s (.bus t : Res α) :=
  ⟨fun _ _ e => (by cases e), fun _ e => by cases e; exact h⟩

theorem growsTo_stop {α : Type} {s : State} {f : Fault} : GrowsTo s (.stop f : Res α) :=
  ⟨fun _ _ e => (by cases e), fun _ e => by cases e⟩

/-- A sequence of operations grows if each does. -/
theorem growsTo_andThen {α β : Type} {s : State} {r : Res α} {k : α → State → Res β}
    (h : GrowsTo s r) (hk : ∀ a t, GrowsTo t (k a t)) : GrowsTo s (r.andThen k) := by
  cases r with
  | ok a t =>
    have ht := h.1 a t rfl
    exact ⟨fun b u e => grows_trans ht ((hk a t).1 b u e), fun u e =>
      grows_trans ht ((hk a t).2 u e)⟩
  | bus t => exact growsTo_bus (h.2 t rfl)
  | stop f => exact growsTo_stop

/-- Growing from a state that agrees on what `Grows` speaks of is the same. -/
theorem growsTo_congr {α : Type} {s s' : State} {r : Res α} (hp : s'.platform = s.platform)
    (hq : s'.pins = s.pins) (hd : s'.draws = s.draws) (hv : s'.device = s.device)
    (h : GrowsTo s' r) : GrowsTo s r := by
  unfold GrowsTo Grows at *
  rw [hp, hq, hd, hv] at h
  exact h

/-! ## The operations -/

theorem readWord_grows (k : AccessKind) (a : Word) (s : State) : GrowsTo s (readWord k a s) := by
  unfold readWord
  split
  · exact growsTo_stop
  split
  · exact growsTo_bus (grows_refl s)
  split
  · exact growsTo_stop
  dsimp only
  split
  · split
    · exact growsTo_ok ⟨rfl, rfl, Nat.le_succ _, List.suffix_cons _ _⟩
    · exact growsTo_ok (grows_refl s)
  · exact growsTo_stop

theorem readByte_grows (a : Word) (s : State) : GrowsTo s (readByte a s) := by
  unfold readByte
  split
  · exact growsTo_bus (grows_refl s)
  split
  · exact growsTo_stop
  · exact growsTo_ok ⟨rfl, rfl, Nat.le_succ _, List.suffix_cons _ _⟩
  all_goals
    split
    · exact growsTo_ok (grows_refl s)
    · exact growsTo_stop

theorem writeWord_grows (a v : Word) (s : State) : GrowsTo s (writeWord a v s) := by
  unfold writeWord
  split
  · exact growsTo_stop
  split
  · exact growsTo_bus (grows_refl s)
  split
  · exact growsTo_stop
  split
  · exact growsTo_stop
  dsimp only
  split
  · exact growsTo_ok ⟨rfl, rfl, Nat.le_refl _, List.suffix_cons _ _⟩
  · exact growsTo_ok ⟨rfl, rfl, Nat.le_refl _, List.suffix_refl _⟩

theorem writeByte_grows (a : Word) (b : Byte) (s : State) : GrowsTo s (writeByte a b s) := by
  unfold writeByte
  split
  · exact growsTo_bus (grows_refl s)
  split
  · exact growsTo_stop
  · exact growsTo_stop
  · exact growsTo_ok ⟨rfl, rfl, Nat.le_refl _, List.suffix_cons _ _⟩
  · exact growsTo_ok ⟨rfl, rfl, Nat.le_refl _, List.suffix_refl _⟩

theorem push_grows (v : Word) (s : State) : GrowsTo s (push v s) :=
  growsTo_congr rfl rfl rfl rfl (writeWord_grows _ v (s.setSp (s.sp - 2#16)))

theorem pop_grows (s : State) : GrowsTo s (pop s) :=
  growsTo_andThen (readWord_grows _ _ s) fun _ t => growsTo_ok (grows_refl t)

theorem writeIp_grows (v : Word) (s : State) : GrowsTo s (writeIp v s) := by
  unfold writeIp; split
  · exact growsTo_stop
  · exact growsTo_ok (grows_refl s)

theorem writeSp_grows (v : Word) (s : State) : GrowsTo s (writeSp v s) := by
  unfold writeSp; split
  · exact growsTo_stop
  · exact growsTo_ok (grows_refl s)

theorem writeBp_grows (v : Word) (s : State) : GrowsTo s (writeBp v s) := by
  unfold writeBp; split
  · exact growsTo_stop
  · exact growsTo_ok (grows_refl s)

theorem writeFr_grows (v : Word) (s : State) : GrowsTo s (writeFr v s) := by
  unfold writeFr; split
  · exact growsTo_ok (grows_refl s)
  · exact growsTo_stop

theorem transfer_grows (x b : Word) (s : State) : GrowsTo s (transfer x b s) :=
  growsTo_andThen (writeIp_grows x s) fun _ t => writeFr_grows _ t

theorem trigger_grows (n : Nat) (s : State) : Grows s (trigger n s) := by
  unfold trigger; split <;> exact grows_refl s

theorem draw_grows (s : State) : GrowsTo s (draw s) :=
  growsTo_ok ⟨rfl, rfl, Nat.le_succ _, List.suffix_refl _⟩

theorem fetchInput_grows (k : Input) (s : State) : GrowsTo s (fetchInput k s) := by
  cases k with
  | zero => exact growsTo_ok (grows_refl s)
  | imm => exact growsTo_andThen (readWord_grows _ _ s) fun _ t => growsTo_ok (grows_refl t)
  | peek => exact readWord_grows _ _ s
  | pop => exact pop_grows s

theorem handleOutput_grows (out : Bool) (o : Word) (s : State) :
    GrowsTo s (handleOutput out o s) := by
  unfold handleOutput; split
  · exact push_grows o s
  · exact growsTo_ok (grows_refl s)

theorem divideWith_grows (f : Int → Int → Int → Int) (a b : Word) (s : State) :
    GrowsTo s (divideWith f a b s) := by
  unfold divideWith
  split
  · unfold divideByZero
    split
    · have h := draw_grows (trigger 4 s)
      exact ⟨fun a t e => grows_trans (trigger_grows 4 s) (h.1 a t e), fun t e =>
        grows_trans (trigger_grows 4 s) (h.2 t e)⟩
    · exact growsTo_stop
  split
  · exact draw_grows s
  split
  · exact growsTo_ok (grows_refl s)
  · exact draw_grows s

/-- Every command grows. -/
theorem commandOf_grows (i : Instr) (a b : Word) (s : State) : GrowsTo s (commandOf i a b s) := by
  have refl {o : Word} : GrowsTo s (.ok o s) := growsTo_ok (grows_refl s)
  have same {o : Word} {t : State} (h : Grows s t) : GrowsTo s (.ok o t) := growsTo_ok h
  cases i with
  | get c => exact readWord_grows _ _ s
  | load16 c => exact readWord_grows _ _ s
  | load8 c => exact growsTo_andThen (readByte_grows _ s) fun _ t => growsTo_ok (grows_refl t)
  | set c => exact growsTo_andThen (writeWord_grows _ _ s) fun _ t => growsTo_ok (grows_refl t)
  | store8 c => exact growsTo_andThen (writeByte_grows _ _ s) fun _ t => growsTo_ok (grows_refl t)
  | store16 c => exact growsTo_andThen (writeWord_grows _ _ s) fun _ t => growsTo_ok (grows_refl t)
  | cpuid c =>
    show GrowsTo s (cmdCpuid a b s)
    unfold cmdCpuid; split
    · exact refl
    · exact growsTo_stop
  | halt c => exact same ⟨rfl, rfl, Nat.le_succ _, List.suffix_refl _⟩
  | frset c => exact growsTo_andThen (writeFr_grows _ s) fun _ t => growsTo_ok (grows_refl t)
  | bpset c => exact growsTo_andThen (writeBp_grows _ s) fun _ t => growsTo_ok (grows_refl t)
  | spset c => exact growsTo_andThen (writeSp_grows _ s) fun _ t => growsTo_ok (grows_refl t)
  | div c => exact divideWith_grows (fun _ _ q => q) a b s
  | mod c => exact divideWith_grows (fun x y q => x - y * q) a b s
  | setip c => exact growsTo_andThen (transfer_grows _ _ s) fun _ t => growsTo_ok (grows_refl t)
  | addip c => exact growsTo_andThen (transfer_grows _ _ s) fun _ t => growsTo_ok (grows_refl t)
  | intr c =>
    show GrowsTo s (cmdIntr a b s)
    unfold cmdIntr; split
    · exact growsTo_stop
    · split
      · exact same ⟨rfl, rfl, Nat.le_refl _, List.suffix_refl _⟩
      · exact growsTo_stop
  | add c => exact same ⟨rfl, rfl, Nat.le_refl _, List.suffix_refl _⟩
  | sub c => exact same ⟨rfl, rfl, Nat.le_refl _, List.suffix_refl _⟩
  | mul c => exact same ⟨rfl, rfl, Nat.le_refl _, List.suffix_refl _⟩
  | copy c => exact refl
  | frget c => exact refl
  | bpget c => exact refl
  | spget c => exact refl
  | and c => exact refl
  | or c => exact refl
  | xor c => exact refl
  | not c => exact refl
  | signext c => exact refl
  | rol c => exact refl
  | ror c => exact refl
  | bswap c => exact refl
  | asr c => exact refl
  | lsl c => exact refl
  | lsr c => exact refl
  | _ => exact growsTo_stop

theorem runOrSkip_grows (c : Cfg) (i : Instr) (s : State) :
    GrowsTo s (runOrSkip c (commandOf i) s) := by
  unfold runOrSkip
  split
  · exact growsTo_andThen (fetchInput_grows _ _) fun a s0 =>
      growsTo_andThen (fetchInput_grows _ s0) fun b s1 =>
      growsTo_andThen (commandOf_grows i a b s1) fun o s2 =>
      growsTo_andThen (handleOutput_grows _ o s2) fun _ s3 => growsTo_ok (grows_refl s3)
  · exact growsTo_ok (grows_refl s)

/-- Whatever an instruction does, it keeps the platform and the schedule (R8). -/
theorem exec_grows {i : Instr} {s t : State} (h : exec i s = .next t) : Grows s t := by
  rw [exec_eq] at h
  unfold instruction settle at h
  have hg : GrowsTo s (runOrSkip i.cfg (commandOf i) (s.setIp (s.ip + 2#16))) :=
    growsTo_congr rfl rfl rfl rfl (runOrSkip_grows i.cfg i (s.setIp (s.ip + 2#16)))
  split at h
  · rename_i hr; cases h; exact hg.1 _ _ hr
  · rename_i hr; cases h
    have hb := hg.2 _ hr
    exact ⟨rfl, rfl, hb.2.2.1, hb.2.2.2⟩
  · cases h

end Sys2Proof.Machine
end

