-- ==== Sys2Proof/Laws/Boundary.lean ====
section
/-! SUPPORT. What the boundary phase can do (60_exceptions.md R270, R271; 70_reset_and_hazards.md
R321, R323), and what a step is after it. -/

namespace Sys2Proof.Machine

/-! ## Taking an interrupt -/

/-- Everything taking an interrupt can do (R270, R271). -/
theorem enterInterrupt_ok {n : Nat} {s t : State} {u : Unit} (h : enterInterrupt n s = .ok u t) :
    isOdd s.sp = false ∧ isOdd t.ip = false ∧
      t = { s with
            sp := s.sp - 4#16
            mem := t.mem
            ip := t.ip
            fr := if 4 ≤ n then setBit s.fr n false else s.fr
            halted := false
            draws := t.draws
            device := t.device } ∧
      (∀ x, ¬ inWord (s.sp - 2#16) x → ¬ inWord (s.sp - 4#16) x →
        memByte t.mem x = memByte s.mem x) ∧
      (s.mem.wf = true → t.mem.wf = true) := by
  obtain ⟨_, s1, h1, h⟩ := andThen_eq_ok.1 h
  obtain ⟨_, s2, h2, h⟩ := andThen_eq_ok.1 h
  obtain ⟨v, s3, h3, h⟩ := andThen_eq_ok.1 h
  obtain ⟨_, s4, h4, h⟩ := andThen_eq_ok.1 h
  obtain ⟨o1, e1, m1, w1⟩ := push_ok h1
  obtain ⟨-, e2, m2, w2⟩ := push_ok h2
  have e3 := (readWord_ok h3).2.2.1
  obtain ⟨o4, e4⟩ := writeIp_ok.1 h4
  have hsub : s.sp - 2#16 - 2#16 = s.sp - 4#16 := by bv_omega
  have hsp1 : s1.sp = s.sp - 2#16 := by rw [e1]; rfl
  rw [hsp1, hsub] at m2
  rw [hsp1, hsub] at e2
  have hm3 : s3.mem = s2.mem := by rw [e3]; rfl
  have hmt : t.mem = s2.mem := by cases h; rw [← hm3, e4]; rfl
  refine ⟨by rw [isOdd_sub_two] at o1; exact o1, by cases h; rw [e4]; exact o4, ?_, ?_, ?_⟩
  · cases h; rw [e4]
    have e3' : s3 = (s2.setDraws s3.draws).setDevice s3.device := e3
    rw [e3', e2, e1]; rfl
  · intro x hx hy
    rw [hmt, m2 x hy, m1 x hx]
  · intro hw
    rw [hmt]; exact w2 (w1 hw)

/-- An ordinary entry completes (R270, R271). -/
theorem enterInterrupt_of_writable {n : Nat} {s : State} {v : Word}
    (h1 : wordWritable s (s.sp - 2#16) = true) (h2 : wordWritable s (s.sp - 4#16) = true)
    (h3 : plainWord
      (s.setMem (memSetWord (memSetWord s.mem (s.sp - 2#16) (bitWord n)) (s.sp - 4#16) s.ip))
      .fetch (BitVec.ofNat 16 (2 * n)) = some v) :
    enterInterrupt n s = (writeIp v ((s.setSp (s.sp - 4#16)).setMem
        (memSetWord (memSetWord s.mem (s.sp - 2#16) (bitWord n)) (s.sp - 4#16) s.ip))).andThen
      fun _ t => .ok ()
        ((t.setFr (if 4 ≤ n then setBit t.fr n false else t.fr)).setHalted false) := by
  have hsub : s.sp - 2#16 - 2#16 = s.sp - 4#16 := by bv_omega
  unfold enterInterrupt
  rw [push_of_writable _ h1, andThen_ok, push_of_writable, andThen_ok]
  · simp only [setMem_sp, setSp_sp, hsub, setMem_mem, setMem_ip, setSp_ip]
    rw [readWord_of_plainWord (v := v), andThen_ok]
    · rfl
    · exact h3
  · simp only [setMem_sp, setSp_sp, hsub]
    exact (wordWritable_congr rfl).trans h2

/-! ## The dispatch loop -/

/-- Everything one turn of the dispatch loop can do (R270). -/
theorem serve_ok {n : Nat} {s t : State} {u : Unit} (h : serve n s = .ok u t) :
    (s.ir.getLsbD n = false ∧ t = s) ∨
    (s.ir.getLsbD n = true ∧ 4 ≤ n ∧ s.fr.getLsbD n = false ∧ t = s.setIr (setBit s.ir n false)) ∨
    (s.ir.getLsbD n = true ∧ (n < 4 ∨ s.fr.getLsbD n = true) ∧
      enterInterrupt n (s.setIr (setBit s.ir n false)) = .ok u t) := by
  unfold serve at h
  split at h
  · rename_i hn
    dsimp only at h
    split at h
    · rename_i hm; exact .inr (.inr ⟨hn, hm, h⟩)
    · rename_i hm
      simp only [setIr_fr, not_or, Nat.not_lt, Bool.not_eq_true] at hm
      cases h; exact .inr (.inl ⟨hn, hm.1, hm.2, rfl⟩)
  · rename_i hn; cases h; exact .inl ⟨by simpa using hn, rfl⟩

/-- A turn clears its own pending bit and no other. -/
theorem serve_ir {n : Nat} (hn : n < 16) {s t : State} {u : Unit} (h : serve n s = .ok u t) :
    t.ir = setBit s.ir n false := by
  rcases serve_ok h with ⟨h0, rfl⟩ | ⟨-, -, -, rfl⟩ | ⟨-, -, he⟩
  · apply BitVec.eq_of_getLsbD_eq
    intro i _
    rw [getLsbD_setBit false hn]
    split
    · rename_i hi; rw [hi, h0]
    · rfl
  · rfl
  · rw [(enterInterrupt_ok he).2.2.1]; rfl

/-- The loop keeps what every turn keeps. -/
theorem dispatchDown_induct {P : State → Prop} (hP : ∀ n s t, P s → serve (n + 1) s = .ok () t → P t) :
    ∀ (n : Nat) (s t : State), P s → dispatchDown n s = .ok () t → P t := by
  intro n
  induction n with
  | zero => intro s t hs h; cases h; exact hs
  | succ n ih =>
    intro s t hs h
    obtain ⟨_, u, h1, h2⟩ := andThen_eq_ok.1 h
    exact ih u t (hP n s u hs h1) h2

/-- The loop clears the pending bits `n` to 1 and leaves the others. -/
theorem dispatchDown_ir : ∀ (n : Nat), n < 16 → ∀ (s t : State), dispatchDown n s = .ok () t →
    ∀ i, t.ir.getLsbD i = if 1 ≤ i ∧ i ≤ n then false else s.ir.getLsbD i := by
  intro n
  induction n with
  | zero =>
    intro _ s t h i; cases h
    rw [if_neg (by omega)]
  | succ n ih =>
    intro hn s t h i
    obtain ⟨_, u, h1, h2⟩ := andThen_eq_ok.1 h
    rw [ih (by omega) u t h2 i, serve_ir hn h1, getLsbD_setBit false hn]
    split
    · rw [if_pos (by omega)]
    · split
      · rw [if_pos (by omega)]
      · rw [if_neg (by omega)]

/-- With no bit of IR pending the loop does nothing. -/
theorem dispatchDown_of_clear {s : State} (h : ∀ i, 1 ≤ i → s.ir.getLsbD i = false) :
    ∀ n, dispatchDown n s = .ok () s := by
  intro n
  induction n with
  | zero => rfl
  | succ n ih =>
    have : serve (n + 1) s = .ok () s := by
      unfold serve
      rw [h (n + 1) (by omega)]
      rfl
    simp only [dispatchDown, this, andThen_ok, ih]

theorem enterInterrupt_grows (n : Nat) (s : State) : GrowsTo s (enterInterrupt n s) :=
  growsTo_andThen (push_grows _ s) fun _ s1 => growsTo_andThen (push_grows _ s1) fun _ s2 =>
    growsTo_andThen (readWord_grows _ _ s2) fun _ s3 => growsTo_andThen (writeIp_grows _ s3)
      fun _ s4 => growsTo_ok (grows_refl s4)

theorem serve_grows (n : Nat) (s : State) : GrowsTo s (serve n s) := by
  unfold serve
  split
  · dsimp only
    split
    · exact growsTo_congr rfl rfl rfl rfl (enterInterrupt_grows n _)
    · exact growsTo_ok (grows_refl s)
  · exact growsTo_ok (grows_refl s)

theorem dispatchDown_grows : ∀ (n : Nat) (s : State), GrowsTo s (dispatchDown n s)
  | 0, s => growsTo_ok (grows_refl s)
  | n + 1, s => growsTo_andThen (serve_grows (n + 1) s) fun _ t => dispatchDown_grows n t

/-! ## Reset -/

/-- Everything the reset sequence of the `MarkII` can do (R321). -/
theorem resetMarkII_ok {s t : State} {u : Unit} (h : resetMarkII s = .ok u t) :
    isOdd t.ip = false ∧
      t = { s with
            sp := 0#16
            bp := 0#16
            ip := t.ip
            fr := 0#16
            ir := 0#16
            halted := false
            draws := t.draws
            device := t.device } := by
  obtain ⟨v, s1, h1, h⟩ := andThen_eq_ok.1 h
  obtain ⟨_, s2, h2, h⟩ := andThen_eq_ok.1 h
  have e1 := (readWord_ok h1).2.2.1
  obtain ⟨o2, e2⟩ := writeIp_ok.1 h2
  cases h
  refine ⟨by rw [e2]; exact o2, ?_⟩
  have e1' : s1 = (s.setDraws s1.draws).setDevice s1.device := e1
  rw [e2, e1']; rfl

/-- An ordinary reset of the `MarkII` (R321). -/
theorem resetMarkII_of_plainWord {s : State} {v : Word} (h : plainWord s .fetch 0#16 = some v) :
    resetMarkII s = (writeIp v s).andThen fun _ t => .ok () ((resetRegisters t).setIr 0#16) := by
  unfold resetMarkII
  rw [readWord_of_plainWord h]; rfl

theorem resetMarkII_grows (s : State) : GrowsTo s (resetMarkII s) :=
  growsTo_andThen (readWord_grows _ _ s) fun _ t => growsTo_andThen (writeIp_grows _ t)
    fun _ u => growsTo_ok (grows_refl u)

/-! ## The boundary -/

/-- The pins change IR alone (R262, R263, R267). -/
theorem samplePins_eq (p : Pins) (s : State) :
    samplePins p s = { s with ir := (samplePins p s).ir } := by
  have ht : ∀ (n : Nat) (u : State), trigger n u = { u with ir := (trigger n u).ir } := by
    intro n u; unfold trigger; split <;> rfl
  unfold samplePins
  dsimp only
  cases p.rst <;> cases p.nmi <;> cases p.irq <;>
    simp only [Bool.false_eq_true, if_false, if_true]
  · exact ht 7 s
  · exact ht 1 s
  · rw [ht 7, ht 1]
  · exact ht 0 s
  · rw [ht 7, ht 0]
  · rw [ht 1, ht 0]
  · rw [ht 7, ht 1, ht 0]

/-- No pin, no change. -/
@[simp] theorem samplePins_noPins (s : State) : samplePins noPins s = s := rfl

/-- Everything the boundary of the `MarkII` can do, before the dispatch loop and in it. -/
theorem boundary_markII {s t : State} {u : Unit} (hv : s.platform.variant = .markII)
    (h : boundary s = .ok u t) :
    ∃ r w, r = samplePins (pinsNow s) (s.setPins s.pins.tail) ∧
      (r.ir.getLsbD 0 = false ∧ w = r ∨ r.ir.getLsbD 0 = true ∧ resetMarkII r = .ok () w) ∧
      dispatchDown 15 w = .ok () t := by
  unfold boundary at h
  simp only [hv] at h
  unfold noBus boundaryMarkII at h
  split at h
  · cases h
  · obtain ⟨_, w, h1, h2⟩ := andThen_eq_ok.1 h
    refine ⟨_, w, rfl, ?_, h2⟩
    split at h1
    · exact .inr ⟨‹_›, h1⟩
    · cases h1; exact .inl ⟨Bool.eq_false_iff.2 ‹_›, rfl⟩

/-- The boundary of the `MarkII_L` (R323). -/
theorem boundary_markIIL {s : State} (hv : s.platform.variant = .markIIL) :
    boundary s = .ok () (if (pinsNow s).rst then resetMarkIIL (s.setPins s.pins.tail)
      else s.setPins s.pins.tail) := by
  unfold boundary
  simp only [hv]

/-- The boundary phase never answers BUS: it stops instead (U18). -/
theorem boundary_ne_bus {s t : State} : boundary s ≠ .bus t := by
  unfold boundary noBus
  intro h
  dsimp only at h
  split at h
  · split at h
    · cases h
    · rename_i r hr; exact hr t h
  · cases h

/-- The boundary phase consumes one boundary's signals and keeps the platform. -/
theorem boundary_grows {s t : State} {u : Unit} (h : boundary s = .ok u t) :
    Grows (s.setPins s.pins.tail) t := by
  cases hv : s.platform.variant with
  | markII =>
    obtain ⟨r, w, hr, hw, hd⟩ := boundary_markII hv h
    have gr : Grows (s.setPins s.pins.tail) r := by
      rw [hr, samplePins_eq]; exact ⟨rfl, rfl, Nat.le_refl _, List.suffix_refl _⟩
    have gw : Grows r w := by
      rcases hw with ⟨-, rfl⟩ | ⟨-, hw⟩
      · exact grows_refl _
      · exact (resetMarkII_grows r).1 _ _ hw
    exact grows_trans gr (grows_trans gw ((dispatchDown_grows 15 w).1 _ _ hd))
  | markIIL =>
    rw [boundary_markIIL hv] at h
    cases h
    split <;> exact ⟨rfl, rfl, Nat.le_refl _, List.suffix_refl _⟩

/-- With nothing pending the boundary phase of the `MarkII` does nothing (R270). -/
theorem boundaryMarkII_quiet {s : State} (hi : s.ir = 0#16) : boundaryMarkII s = .ok () s := by
  have h0 : ∀ i, s.ir.getLsbD i = false := fun i => by rw [hi]; exact BitVec.getLsbD_zero
  unfold boundaryMarkII
  rw [h0 0, if_neg Bool.false_ne_true, andThen_ok]
  exact dispatchDown_of_clear (fun i _ => h0 i) 15

/-- A boundary with nothing pending and no signal does nothing (R270). -/
theorem boundary_quiet {s : State} (hi : s.ir = 0#16) (hp : s.pins = []) :
    boundary s = .ok () s := by
  have hs : s.setPins s.pins.tail = s := by
    obtain ⟨sp, bp, ip, fr, ir, ha, m, p, pins, d, dv⟩ := s
    simp only at hp; subst hp; rfl
  have hn : pinsNow s = noPins := by unfold pinsNow; rw [hp]; rfl
  cases hv : s.platform.variant with
  | markII =>
    unfold boundary
    simp only [hv, hs, hn, samplePins_noPins, boundaryMarkII_quiet hi, noBus]
  | markIIL =>
    rw [boundary_markIIL hv, hs, hn]
    rfl

/-! ## Canonical memory -/

/-- The memory of State.reset has the canonical form. -/
theorem reset_mem_wf : State.reset.mem.wf = true := rfl

/-- Placing an instruction keeps the canonical form. -/
theorem placeNext_wf {s : State} (bs : List Byte) (h : s.mem.wf = true) :
    (placeNext s bs).mem.wf = true := by
  unfold placeNext
  split
  · split
    · exact wf_memSetBytes _ _ (wf_memSetWord _ _ h)
    · exact wf_memSetBytes _ _ h
  · split
    · exact wf_memSetBytes _ _ h
    · exact wf_memSetBytes _ _ h

/-! ## The step -/

/-- Everything a step that answers a next state can have done (R120): a boundary, then nothing while
halted, an instruction, or an opcode fetch that BUS answered. -/
theorem step_next {s t : State} (h : step s = .next t) :
    ∃ b, boundary s = .ok () b ∧
      ((b.halted = true ∧ t = b) ∨
       (b.halted = false ∧ ∃ i u, fetchOpcode b = .ok i u ∧ exec i u = .next t) ∨
       (b.halted = false ∧ ∃ u, fetchOpcode b = .bus u ∧ t = cancel b u)) := by
  unfold step at h
  split at h
  · cases h
  · cases h
  · rename_i b hb
    refine ⟨b, hb, ?_⟩
    split at h
    · cases h; exact .inl ⟨‹_›, rfl⟩
    · rename_i hh
      have hh : b.halted = false := by simpa using hh
      split at h
      · rename_i i u hf; exact .inr (.inl ⟨hh, i, u, hf, h⟩)
      · rename_i u hf; cases h; exact .inr (.inr ⟨hh, u, hf, rfl⟩)
      · cases h

/-- A step after a completed boundary phase. -/
theorem step_of_boundary {s t : State} (h : boundary s = .ok () t) (hh : t.halted = false) :
    step s = match fetchOpcode t with
      | .ok i u => exec i u
      | .bus u => .next (cancel t u)
      | .stop f => .fault f := by
  unfold step
  rw [h]
  exact if_neg (by rw [hh]; exact Bool.false_ne_true)

/-- The opcode fetch moves nothing (R123). -/
theorem fetchOpcode_ok {s t : State} {i : Instr} (h : fetchOpcode s = .ok i t) :
    SameButDevice s t := by
  obtain ⟨w, u, h1, h2⟩ := andThen_eq_ok.1 h
  split at h2
  · cases h2; exact (readWord_ok h1).2.2.1
  · cases h2

theorem fetchOpcode_grows (s : State) : GrowsTo s (fetchOpcode s) :=
  growsTo_andThen (readWord_grows _ _ s) fun w t => by
    split
    · exact growsTo_ok (grows_refl t)
    · exact growsTo_stop

end Sys2Proof.Machine
end

