-- ==== Sys2Proof/Laws/PerInstr.lean ====
section
/-! SUPPORT. Per-instruction laws: family `TableRow`, one lemma per constructor of Instr. -/

namespace Sys2Proof.Laws

/-- The row of the opcode table an instruction belongs to: bits [14:9] of its opcode word are the
command value and bit 15 is 0 (R90 to R92, R100, R101), and it is 2, 4 or 6 bytes long (R99). -/
def TableRow.Statement (i : Instr) : Prop :=
  encodeWord i &&& 0xFE00#16 = BitVec.ofNat 16 (512 * i.cmd.toNat) ∧
    (i.length = 2 ∨ i.length = 4 ∨ i.length = 6)

/-- Bits [15:9] of an opcode word are bit 15 and the command value. -/
theorem encodeWord_row (i : Instr) : encodeWord i &&& 0xFE00#16 = 0#1 ++ i.cmd ++ 0#9 := by
  unfold encodeWord
  apply BitVec.eq_of_getLsbD_eq
  intro j hj
  simp only [BitVec.getLsbD_and, BitVec.getLsbD_append]
  interval_cases j <;> simp

/-- The command value shifted to its place. -/
theorem shifted_row (b : BitVec 6) : 0#1 ++ b ++ 0#9 = BitVec.ofNat 16 (512 * b.toNat) := by
  revert b; decide

/-- The length of an instruction is 2, 4 or 6 bytes (R99). -/
theorem length_cases (i : Instr) : i.length = 2 ∨ i.length = 4 ∨ i.length = 6 := by
  unfold Instr.length Cfg.immWords
  cases i.cfg.in0 <;> cases i.cfg.in1 <;> simp [Input.immWords]

/-- Every instruction has its row. -/
theorem tableRow (i : Instr) : TableRow.Statement i :=
  ⟨(encodeWord_row i).trans (shifted_row i.cmd), length_cases i⟩

theorem TableRow.copy (c : Cfg) : TableRow.Statement (.copy c) := tableRow _

theorem TableRow.reserved1 (c : Cfg) : TableRow.Statement (.reserved1 c) := tableRow _

theorem TableRow.get (c : Cfg) : TableRow.Statement (.get c) := tableRow _

theorem TableRow.set (c : Cfg) : TableRow.Statement (.set c) := tableRow _

theorem TableRow.store8 (c : Cfg) : TableRow.Statement (.store8 c) := tableRow _

theorem TableRow.store16 (c : Cfg) : TableRow.Statement (.store16 c) := tableRow _

theorem TableRow.load8 (c : Cfg) : TableRow.Statement (.load8 c) := tableRow _

theorem TableRow.load16 (c : Cfg) : TableRow.Statement (.load16 c) := tableRow _

theorem TableRow.cpuid (c : Cfg) : TableRow.Statement (.cpuid c) := tableRow _

theorem TableRow.halt (c : Cfg) : TableRow.Statement (.halt c) := tableRow _

theorem TableRow.frget (c : Cfg) : TableRow.Statement (.frget c) := tableRow _

theorem TableRow.frset (c : Cfg) : TableRow.Statement (.frset c) := tableRow _

theorem TableRow.bpget (c : Cfg) : TableRow.Statement (.bpget c) := tableRow _

theorem TableRow.bpset (c : Cfg) : TableRow.Statement (.bpset c) := tableRow _

theorem TableRow.spget (c : Cfg) : TableRow.Statement (.spget c) := tableRow _

theorem TableRow.spset (c : Cfg) : TableRow.Statement (.spset c) := tableRow _

theorem TableRow.add (c : Cfg) : TableRow.Statement (.add c) := tableRow _

theorem TableRow.sub (c : Cfg) : TableRow.Statement (.sub c) := tableRow _

theorem TableRow.mul (c : Cfg) : TableRow.Statement (.mul c) := tableRow _

theorem TableRow.div (c : Cfg) : TableRow.Statement (.div c) := tableRow _

theorem TableRow.mod (c : Cfg) : TableRow.Statement (.mod c) := tableRow _

theorem TableRow.and (c : Cfg) : TableRow.Statement (.and c) := tableRow _

theorem TableRow.or (c : Cfg) : TableRow.Statement (.or c) := tableRow _

theorem TableRow.xor (c : Cfg) : TableRow.Statement (.xor c) := tableRow _

theorem TableRow.not (c : Cfg) : TableRow.Statement (.not c) := tableRow _

theorem TableRow.signext (c : Cfg) : TableRow.Statement (.signext c) := tableRow _

theorem TableRow.rol (c : Cfg) : TableRow.Statement (.rol c) := tableRow _

theorem TableRow.ror (c : Cfg) : TableRow.Statement (.ror c) := tableRow _

theorem TableRow.bswap (c : Cfg) : TableRow.Statement (.bswap c) := tableRow _

theorem TableRow.asr (c : Cfg) : TableRow.Statement (.asr c) := tableRow _

theorem TableRow.lsl (c : Cfg) : TableRow.Statement (.lsl c) := tableRow _

theorem TableRow.lsr (c : Cfg) : TableRow.Statement (.lsr c) := tableRow _

theorem TableRow.setip (c : Cfg) : TableRow.Statement (.setip c) := tableRow _

theorem TableRow.addip (c : Cfg) : TableRow.Statement (.addip c) := tableRow _

theorem TableRow.intr (c : Cfg) : TableRow.Statement (.intr c) := tableRow _

theorem TableRow.reserved35 (c : Cfg) : TableRow.Statement (.reserved35 c) := tableRow _

theorem TableRow.reserved36 (c : Cfg) : TableRow.Statement (.reserved36 c) := tableRow _

theorem TableRow.reserved37 (c : Cfg) : TableRow.Statement (.reserved37 c) := tableRow _

theorem TableRow.reserved38 (c : Cfg) : TableRow.Statement (.reserved38 c) := tableRow _

theorem TableRow.reserved39 (c : Cfg) : TableRow.Statement (.reserved39 c) := tableRow _

theorem TableRow.reserved40 (c : Cfg) : TableRow.Statement (.reserved40 c) := tableRow _

theorem TableRow.reserved41 (c : Cfg) : TableRow.Statement (.reserved41 c) := tableRow _

theorem TableRow.reserved42 (c : Cfg) : TableRow.Statement (.reserved42 c) := tableRow _

theorem TableRow.reserved43 (c : Cfg) : TableRow.Statement (.reserved43 c) := tableRow _

theorem TableRow.reserved44 (c : Cfg) : TableRow.Statement (.reserved44 c) := tableRow _

theorem TableRow.reserved45 (c : Cfg) : TableRow.Statement (.reserved45 c) := tableRow _

theorem TableRow.reserved46 (c : Cfg) : TableRow.Statement (.reserved46 c) := tableRow _

theorem TableRow.reserved47 (c : Cfg) : TableRow.Statement (.reserved47 c) := tableRow _

theorem TableRow.reserved48 (c : Cfg) : TableRow.Statement (.reserved48 c) := tableRow _

theorem TableRow.reserved49 (c : Cfg) : TableRow.Statement (.reserved49 c) := tableRow _

theorem TableRow.reserved50 (c : Cfg) : TableRow.Statement (.reserved50 c) := tableRow _

theorem TableRow.reserved51 (c : Cfg) : TableRow.Statement (.reserved51 c) := tableRow _

theorem TableRow.reserved52 (c : Cfg) : TableRow.Statement (.reserved52 c) := tableRow _

theorem TableRow.reserved53 (c : Cfg) : TableRow.Statement (.reserved53 c) := tableRow _

theorem TableRow.reserved54 (c : Cfg) : TableRow.Statement (.reserved54 c) := tableRow _

theorem TableRow.reserved55 (c : Cfg) : TableRow.Statement (.reserved55 c) := tableRow _

theorem TableRow.reserved56 (c : Cfg) : TableRow.Statement (.reserved56 c) := tableRow _

theorem TableRow.reserved57 (c : Cfg) : TableRow.Statement (.reserved57 c) := tableRow _

theorem TableRow.reserved58 (c : Cfg) : TableRow.Statement (.reserved58 c) := tableRow _

theorem TableRow.reserved59 (c : Cfg) : TableRow.Statement (.reserved59 c) := tableRow _

theorem TableRow.reserved60 (c : Cfg) : TableRow.Statement (.reserved60 c) := tableRow _

theorem TableRow.reserved61 (c : Cfg) : TableRow.Statement (.reserved61 c) := tableRow _

theorem TableRow.reserved62 (c : Cfg) : TableRow.Statement (.reserved62 c) := tableRow _

theorem TableRow.reserved63 (c : Cfg) : TableRow.Statement (.reserved63 c) := tableRow _

end Sys2Proof.Laws
end

