-- ==== Sys2Proof/Tests/Slice0.lean ====
section
/-! SUPPORT. Tests: the checks of WellFormed, a word for every constructor, steps with the results of
95_test_vectors.md, and for every obligation with hypotheses a witness that meets them. -/

namespace Sys2Proof.Tests

open Sys2Proof.Machine

/-! ## Helpers -/

/-- A memory that holds these words at these addresses. -/
def words (ws : List (Nat × Nat)) : Memory :=
  ws.foldl (fun m p => memSetWord m (BitVec.ofNat 16 p.1) (BitVec.ofNat 16 p.2)) []

/-- The start state of 95_test_vectors.md section 2, with this FR and these words in memory. -/
def start (fr : Nat) (ws : List (Nat × Nat)) : State :=
  { State.reset with
    ip := 0x0100#16, sp := 0x8000#16, bp := 0x9000#16, ir := 0#16
    fr := BitVec.ofNat 16 fr, mem := words ws }

/-- The same on the reduced variant. -/
def onL (s : State) : State := { s with platform := { s.platform with variant := .markIIL } }

/-- IP, SP, BP, FR and IR after a step, and the words at these addresses. -/
def ends (o : Host.Outcome State Fault Refusal) (as : List Nat) :
    Option (List Nat × List (Option Nat)) :=
  match o with
  | .next t => some ([t.ip.toNat, t.sp.toNat, t.bp.toNat, t.fr.toNat, t.ir.toNat],
      as.map fun a => (memWord t.mem (BitVec.ofNat 16 a)).map BitVec.toNat)
  | _ => none

/-- The fault a step stops with. -/
def faults (o : Host.Outcome State Fault Refusal) : Option Fault :=
  match o with
  | .fault f => some f
  | _ => none

/-- A step answers a next state. -/
def nexts (o : Host.Outcome State Fault Refusal) : Bool :=
  match o with
  | .next _ => true
  | _ => false

/-- What `nexts` says. -/
theorem exists_of_nexts {o : Host.Outcome State Fault Refusal} (h : nexts o = true) :
    ∃ t, o = .next t := by
  cases o with
  | next t => exact ⟨t, rfl⟩
  | fault f => cases h
  | refused r => cases h

/-! ## WellFormed -/

/-- 95_test_vectors.md 2.1: the reserved values are no instructions of a program (check `defined`). -/
theorem test_reserved_not_well_formed :
    Instr.wellFormed .markII (.reserved1 ⟨.always, .zero, .zero, false, false⟩) = false ∧
    Instr.wellFormed .markII (.reserved63 ⟨.zero, .imm, .imm, false, false⟩) = false := by decide

/-- R242: INTR is not available on `MarkII_L` (check `available`), and is on `MarkII`. -/
theorem test_intr_well_formed_by_variant :
    Instr.wellFormed .markIIL (.intr ⟨.always, .imm, .zero, false, false⟩) = false ∧
    Instr.wellFormed .markII (.intr ⟨.always, .imm, .zero, false, false⟩) = true := by decide

/-! ## Decoding: words written out from R90 (bit 15, cmd, out, flg, in1, in0, cond) -/

theorem test_decode_data_movement :
    decodeWord 0b0_000000_1_0_11_00_001#16 = .ok (.copy ⟨.zero, .zero, .pop, false, true⟩) ∧
    decodeWord 0b0_000010_0_1_10_10_100#16 = .ok (.get ⟨.less, .peek, .peek, true, false⟩) ∧
    decodeWord 0b0_000011_0_0_01_11_111#16 = .ok (.set ⟨.overflow, .pop, .imm, false, false⟩) ∧
    decodeWord 0b0_000100_1_1_00_01_010#16 = .ok (.store8 ⟨.nonzero, .imm, .zero, true, true⟩) ∧
    decodeWord 0b0_000101_0_0_11_10_101#16 = .ok (.store16 ⟨.gequal, .peek, .pop, false, false⟩) ∧
    decodeWord 0b0_000110_0_1_10_00_000#16 = .ok (.load8 ⟨.always, .zero, .peek, true, false⟩) ∧
    decodeWord 0b0_000111_1_0_01_01_011#16 = .ok (.load16 ⟨.greater, .imm, .imm, false, true⟩) := by
  refine ⟨rfl, rfl, rfl, rfl, rfl, rfl, rfl⟩

theorem test_decode_system_registers :
    decodeWord 0b0_001000_1_0_00_11_110#16 = .ok (.cpuid ⟨.lequal, .pop, .zero, false, true⟩) ∧
    decodeWord 0b0_001001_0_1_11_00_001#16 = .ok (.halt ⟨.zero, .zero, .pop, true, false⟩) ∧
    decodeWord 0b0_001010_0_0_10_10_100#16 = .ok (.frget ⟨.less, .peek, .peek, false, false⟩) ∧
    decodeWord 0b0_001011_1_1_01_11_111#16 = .ok (.frset ⟨.overflow, .pop, .imm, true, true⟩) ∧
    decodeWord 0b0_001100_0_0_00_01_010#16 = .ok (.bpget ⟨.nonzero, .imm, .zero, false, false⟩) ∧
    decodeWord 0b0_001101_0_1_11_10_101#16 = .ok (.bpset ⟨.gequal, .peek, .pop, true, false⟩) ∧
    decodeWord 0b0_001110_1_0_10_00_000#16 = .ok (.spget ⟨.always, .zero, .peek, false, true⟩) ∧
    decodeWord 0b0_001111_0_1_01_01_011#16 = .ok (.spset ⟨.greater, .imm, .imm, true, false⟩) := by
  refine ⟨rfl, rfl, rfl, rfl, rfl, rfl, rfl, rfl⟩

theorem test_decode_arithmetic :
    decodeWord 0b0_010000_1_0_01_01_011#16 = .ok (.add ⟨.greater, .imm, .imm, false, true⟩) ∧
    decodeWord 0b0_010001_0_1_00_11_110#16 = .ok (.sub ⟨.lequal, .pop, .zero, true, false⟩) ∧
    decodeWord 0b0_010010_0_0_11_00_001#16 = .ok (.mul ⟨.zero, .zero, .pop, false, false⟩) ∧
    decodeWord 0b0_010011_1_1_10_10_100#16 = .ok (.div ⟨.less, .peek, .peek, true, true⟩) ∧
    decodeWord 0b0_010100_0_0_01_11_111#16 = .ok (.mod ⟨.overflow, .pop, .imm, false, false⟩) := by
  refine ⟨rfl, rfl, rfl, rfl, rfl⟩

theorem test_decode_logic_shift :
    decodeWord 0b0_010101_1_0_10_00_000#16 = .ok (.and ⟨.always, .zero, .peek, false, true⟩) ∧
    decodeWord 0b0_010110_0_1_01_01_011#16 = .ok (.or ⟨.greater, .imm, .imm, true, false⟩) ∧
    decodeWord 0b0_010111_0_0_00_11_110#16 = .ok (.xor ⟨.lequal, .pop, .zero, false, false⟩) ∧
    decodeWord 0b0_011000_1_1_11_00_001#16 = .ok (.not ⟨.zero, .zero, .pop, true, true⟩) ∧
    decodeWord 0b0_011001_0_0_10_10_100#16 = .ok (.signext ⟨.less, .peek, .peek, false, false⟩) ∧
    decodeWord 0b0_011010_0_1_01_11_111#16 = .ok (.rol ⟨.overflow, .pop, .imm, true, false⟩) ∧
    decodeWord 0b0_011011_1_0_00_01_010#16 = .ok (.ror ⟨.nonzero, .imm, .zero, false, true⟩) ∧
    decodeWord 0b0_011100_0_1_11_10_101#16 = .ok (.bswap ⟨.gequal, .peek, .pop, true, false⟩) ∧
    decodeWord 0b0_011101_0_0_10_00_000#16 = .ok (.asr ⟨.always, .zero, .peek, false, false⟩) ∧
    decodeWord 0b0_011110_1_1_01_01_011#16 = .ok (.lsl ⟨.greater, .imm, .imm, true, true⟩) ∧
    decodeWord 0b0_011111_0_0_00_11_110#16 = .ok (.lsr ⟨.lequal, .pop, .zero, false, false⟩) := by
  refine ⟨rfl, rfl, rfl, rfl, rfl, rfl, rfl, rfl, rfl, rfl, rfl⟩

theorem test_decode_control :
    decodeWord 0b0_100000_1_0_11_10_101#16 = .ok (.setip ⟨.gequal, .peek, .pop, false, true⟩) ∧
    decodeWord 0b0_100001_0_1_10_00_000#16 = .ok (.addip ⟨.always, .zero, .peek, true, false⟩) ∧
    decodeWord 0b0_100010_0_0_01_01_011#16 = .ok (.intr ⟨.greater, .imm, .imm, false, false⟩) := by
  refine ⟨rfl, rfl, rfl⟩

theorem test_decode_reserved_low :
    decodeWord 0b0_000001_1_0_00_01_010#16 = .ok (.reserved1 ⟨.nonzero, .imm, .zero, false, true⟩) ∧
    decodeWord 0b0_100011_0_1_11_10_101#16 = .ok (.reserved35 ⟨.gequal, .peek, .pop, true, false⟩) ∧
    decodeWord 0b0_100100_0_0_10_00_000#16 = .ok (.reserved36 ⟨.always, .zero, .peek, false, false⟩) ∧
    decodeWord 0b0_100101_1_1_01_01_011#16 = .ok (.reserved37 ⟨.greater, .imm, .imm, true, true⟩) ∧
    decodeWord 0b0_100110_0_0_00_11_110#16 = .ok (.reserved38 ⟨.lequal, .pop, .zero, false, false⟩) ∧
    decodeWord 0b0_100111_0_1_11_00_001#16 = .ok (.reserved39 ⟨.zero, .zero, .pop, true, false⟩) ∧
    decodeWord 0b0_101000_1_0_10_10_100#16 = .ok (.reserved40 ⟨.less, .peek, .peek, false, true⟩) ∧
    decodeWord 0b0_101001_0_1_01_11_111#16 = .ok (.reserved41 ⟨.overflow, .pop, .imm, true, false⟩) ∧
    decodeWord 0b0_101010_0_0_00_01_010#16 = .ok (.reserved42 ⟨.nonzero, .imm, .zero, false, false⟩) ∧
    decodeWord 0b0_101011_1_1_11_10_101#16 = .ok (.reserved43 ⟨.gequal, .peek, .pop, true, true⟩) ∧
    decodeWord 0b0_101100_0_0_10_00_000#16 = .ok (.reserved44 ⟨.always, .zero, .peek, false, false⟩) ∧
    decodeWord 0b0_101101_0_1_01_01_011#16 = .ok (.reserved45 ⟨.greater, .imm, .imm, true, false⟩) ∧
    decodeWord 0b0_101110_1_0_00_11_110#16 = .ok (.reserved46 ⟨.lequal, .pop, .zero, false, true⟩) ∧
    decodeWord 0b0_101111_0_1_11_00_001#16 = .ok (.reserved47 ⟨.zero, .zero, .pop, true, false⟩) ∧
    decodeWord 0b0_110000_0_0_10_10_100#16 = .ok (.reserved48 ⟨.less, .peek, .peek, false, false⟩) := by
  refine ⟨rfl, rfl, rfl, rfl, rfl, rfl, rfl, rfl, rfl, rfl, rfl, rfl, rfl, rfl, rfl⟩

theorem test_decode_reserved_high :
    decodeWord 0b0_110001_1_0_01_11_111#16 = .ok (.reserved49 ⟨.overflow, .pop, .imm, false, true⟩) ∧
    decodeWord 0b0_110010_0_1_00_01_010#16 = .ok (.reserved50 ⟨.nonzero, .imm, .zero, true, false⟩) ∧
    decodeWord 0b0_110011_0_0_11_10_101#16 = .ok (.reserved51 ⟨.gequal, .peek, .pop, false, false⟩) ∧
    decodeWord 0b0_110100_1_1_10_00_000#16 = .ok (.reserved52 ⟨.always, .zero, .peek, true, true⟩) ∧
    decodeWord 0b0_110101_0_0_01_01_011#16 = .ok (.reserved53 ⟨.greater, .imm, .imm, false, false⟩) ∧
    decodeWord 0b0_110110_0_1_00_11_110#16 = .ok (.reserved54 ⟨.lequal, .pop, .zero, true, false⟩) ∧
    decodeWord 0b0_110111_1_0_11_00_001#16 = .ok (.reserved55 ⟨.zero, .zero, .pop, false, true⟩) ∧
    decodeWord 0b0_111000_0_1_10_10_100#16 = .ok (.reserved56 ⟨.less, .peek, .peek, true, false⟩) ∧
    decodeWord 0b0_111001_0_0_01_11_111#16 = .ok (.reserved57 ⟨.overflow, .pop, .imm, false, false⟩) ∧
    decodeWord 0b0_111010_1_1_00_01_010#16 = .ok (.reserved58 ⟨.nonzero, .imm, .zero, true, true⟩) ∧
    decodeWord 0b0_111011_0_0_11_10_101#16 = .ok (.reserved59 ⟨.gequal, .peek, .pop, false, false⟩) ∧
    decodeWord 0b0_111100_0_1_10_00_000#16 = .ok (.reserved60 ⟨.always, .zero, .peek, true, false⟩) ∧
    decodeWord 0b0_111101_1_0_01_01_011#16 = .ok (.reserved61 ⟨.greater, .imm, .imm, false, true⟩) ∧
    decodeWord 0b0_111110_0_1_00_11_110#16 = .ok (.reserved62 ⟨.lequal, .pop, .zero, true, false⟩) ∧
    decodeWord 0b0_111111_0_0_11_00_001#16 = .ok (.reserved63 ⟨.zero, .zero, .pop, false, false⟩) := by
  refine ⟨rfl, rfl, rfl, rfl, rfl, rfl, rfl, rfl, rfl, rfl, rfl, rfl, rfl, rfl, rfl⟩

/-- 95_test_vectors.md 2.1 and 2.10. -/
theorem test_decode_bit15 : decodeWord 0x8000#16 = .error .reservedBit15 := rfl

/-- 95_test_vectors.md 2.1: `sub b [i0:pop] [i1:imm] [f:yes] [out:push]` as bytes in memory. -/
theorem test_decode_bytes :
    decode [0xB8#8, 0x23#8, 0x34#8, 0x12#8, 0xFF#8] =
      .ok (.sub ⟨.always, .pop, .imm, true, true⟩, [0x1234#16], [0xFF#8]) := rfl

/-- 95_test_vectors.md 2.1: the word of `mul [i0:peek] [i1:pop] [out:push]`. -/
theorem test_encode_mul : encodeWord (.mul ⟨.always, .peek, .pop, false, true⟩) = 0x2570#16 := by
  decide

/-- The opcode table's numbering: the second word counts on from bit 16. -/
theorem test_table_word :
    decodeTableWord 32 0x12340108 = some (.copy ⟨.always, .imm, .zero, false, true⟩) ∧
    decodeTableWord 16 0x8000 = none := ⟨rfl, rfl⟩

/-- A placed instruction is the first one after reset (log 29): NOT of zero, pushed and flagged. -/
theorem test_placed_instruction_runs :
    ends (step (State.reset.withFetchWord 16 0x3180)) [0xFFFE] =
      some ([0x0102, 0xFFFE, 0, 0x0002, 0], [some 0xFFFF]) := by decide

/-! ## One step: 95_test_vectors.md sections 2.2 to 2.9 -/

/-- Vector 2.4.4. -/
theorem test_copy_peek_flags :
    ends (step (start 0x0000 [(0x8000, 0x8001), (0x0100, 0x0190)])) [0x7ffe, 0x8000] =
      some ([0x0102, 0x7ffe, 0x9000, 0x0002, 0x0000], [some 0x8001, some 0x8001]) := by decide

/-- Vector 2.4.7. -/
theorem test_get_below_bp :
    ends (step (start 0x0000 [(0x8ffe, 0xbeef), (0x0100, 0x0508), (0x0102, 0xffff)])) [0x7ffe] =
      some ([0x0104, 0x7ffe, 0x9000, 0x0000, 0x0000], [some 0xbeef]) := by decide

/-- Vector 2.4.10. -/
theorem test_get_odd_bp : faults (step { start 0x0000 [(0x0100, 0x0508), (0x0102, 0x0001)] with bp := 0x9001#16 }) =
    some .unaligned := by decide

/-- Vector 2.4.12. -/
theorem test_set_pops_index_then_value :
    ends (step (start 0x0000 [(0x8000, 0x0003), (0x8002, 0x7777), (0x0100, 0x0678)])) [0x9006] =
      some ([0x0102, 0x8004, 0x9000, 0x0000, 0x0000], [some 0x7777]) := by decide

/-- Vector 2.4.15. -/
theorem test_store8_high_byte_of_word :
    ends (step (start 0x0000 [(0x4000, 0x0000), (0x0100, 0x09a8), (0x0102, 0x12ab), (0x0104, 0x4001)])) [0x4000, 0x7ffe] =
      some ([0x0106, 0x7ffe, 0x9000, 0x0000, 0x0000], [some 0xab00, some 0x00ab]) := by decide

/-- Vector 2.4.19. -/
theorem test_store16_pops_value :
    ends (step (start 0x0000 [(0x8000, 0xbeef), (0x8002, 0x4000), (0x0100, 0x0a58)])) [0x4000] =
      some ([0x0102, 0x8002, 0x9000, 0x0000, 0x0000], [some 0xbeef]) := by decide

/-- Vector 2.4.20. -/
theorem test_store16_odd : faults (step (start 0x0000 [(0x0100, 0x0a28), (0x0102, 0x0001), (0x0104, 0x4001)])) =
    some .unaligned := by decide

/-- Vector 2.4.21. -/
theorem test_load8_zero_extends :
    ends (step (start 0x0000 [(0x4000, 0x80ff), (0x0100, 0x0d88), (0x0102, 0x4001)])) [0x7ffe] =
      some ([0x0104, 0x7ffe, 0x9000, 0x0000, 0x0000], [some 0x0080]) := by decide

/-- Vector 2.4.23. -/
theorem test_load16_flags :
    ends (step (start 0x0000 [(0x4000, 0x80ff), (0x0100, 0x0f88), (0x0102, 0x4000)])) [0x7ffe] =
      some ([0x0104, 0x7ffe, 0x9000, 0x0002, 0x0000], [some 0x80ff]) := by decide

/-- Vector 2.5.1. -/
theorem test_cpuid_zero :
    ends (step (start 0x0002 [(0x0100, 0x1180)])) [0x7ffe] =
      some ([0x0102, 0x7ffe, 0x9000, 0x0001, 0x0000], [some 0x0000]) := by decide

/-- Vector 2.5.3. -/
theorem test_cpuid_nonzero : faults (step (start 0x0000 [(0x0100, 0x1008), (0x0102, 0x0001)])) =
    some .cpuidNonzeroInput := by decide

/-- Vector 2.5.6. -/
theorem test_frget_mask :
    ends (step (start 0x008d [(0x0100, 0x1520), (0x0102, 0xfff0)])) [0x7ffe] =
      some ([0x0104, 0x7ffe, 0x9000, 0x008d, 0x0000], [some 0x000d]) := by decide

/-- Vector 2.5.9. -/
theorem test_frset_keeps_masked :
    ends (step (start 0x0005 [(0x0100, 0x1628), (0x0102, 0x0008), (0x0104, 0xfff7)])) [] =
      some ([0x0106, 0x8000, 0x9000, 0x000d, 0x0000], []) := by decide

/-- Vector 2.5.11. -/
theorem test_frset_then_flags :
    ends (step (start 0x0000 [(0x0100, 0x1688), (0x0102, 0x0003)])) [] =
      some ([0x0104, 0x8000, 0x9000, 0x0001, 0x0000], []) := by decide

/-- Vector 2.5.14. -/
theorem test_bpget :
    ends (step (start 0x0000 [(0x0100, 0x1900)])) [0x7ffe] =
      some ([0x0102, 0x7ffe, 0x9000, 0x0000, 0x0000], [some 0x9000]) := by decide

/-- Vector 2.5.15. -/
theorem test_bpset_pushes_old :
    ends (step (start 0x0000 [(0x0100, 0x1b08), (0x0102, 0x7000)])) [0x7ffe] =
      some ([0x0104, 0x7ffe, 0x7000, 0x0000, 0x0000], [some 0x9000]) := by decide

/-- Vector 2.5.19. -/
theorem test_spget_after_pop :
    ends (step (start 0x0000 [(0x8000, 0x1111), (0x0100, 0x1d18)])) [0x8000] =
      some ([0x0102, 0x8000, 0x9000, 0x0000, 0x0000], [some 0x8002]) := by decide

/-- Vector 2.5.20. -/
theorem test_spset_pushes_on_new_stack :
    ends (step (start 0x0000 [(0x0100, 0x1f08), (0x0102, 0x7000)])) [0x6ffe] =
      some ([0x0104, 0x6ffe, 0x9000, 0x0000, 0x0000], [some 0x8000]) := by decide

/-- Vector 2.6.1. -/
theorem test_add_carry :
    ends (step (start 0x0000 [(0x8000, 0x0005), (0x8002, 0xfffb), (0x0100, 0x21f8)])) [0x8002] =
      some ([0x0102, 0x8002, 0x9000, 0x0005, 0x0000], [some 0x0000]) := by decide

/-- Vector 2.6.4. -/
theorem test_add_carry_in :
    ends (step (start 0x000c [(0x0100, 0x2128), (0x0102, 0xffff), (0x0104, 0xffff)])) [0x7ffe] =
      some ([0x0106, 0x7ffe, 0x9000, 0x000c, 0x0000], [some 0xffff]) := by decide

/-- Vector 2.6.9. -/
theorem test_sub_borrow_in :
    ends (step (start 0x000c [(0x0100, 0x23a8), (0x0102, 0x0000), (0x0104, 0xffff)])) [0x7ffe] =
      some ([0x0106, 0x7ffe, 0x9000, 0x000d, 0x0000], [some 0x0000]) := by decide

/-- Vector 2.6.10. -/
theorem test_sub_negate :
    ends (step (start 0x0000 [(0x8000, 0x0005), (0x0100, 0x23e0)])) [0x8000] =
      some ([0x0102, 0x8000, 0x9000, 0x0006, 0x0000], [some 0xfffb]) := by decide

/-- Vector 2.6.12. -/
theorem test_mul_negative_carry :
    ends (step (start 0x0000 [(0x0100, 0x25a8), (0x0102, 0xffff), (0x0104, 0x0001)])) [0x7ffe] =
      some ([0x0106, 0x7ffe, 0x9000, 0x0006, 0x0000], [some 0xffff]) := by decide

/-- Vector 2.6.15. -/
theorem test_mul_zero_carry :
    ends (step (start 0x0000 [(0x0100, 0x25a8), (0x0102, 0x0100), (0x0104, 0x0100)])) [0x7ffe] =
      some ([0x0106, 0x7ffe, 0x9000, 0x0005, 0x0000], [some 0x0000]) := by decide

/-- Vector 2.6.18. -/
theorem test_div_truncates :
    ends (step (start 0x0004 [(0x0100, 0x27a8), (0x0102, 0xfff9), (0x0104, 0x0002)])) [0x7ffe] =
      some ([0x0106, 0x7ffe, 0x9000, 0x0006, 0x0000], [some 0xfffd]) := by decide

/-- Vector 2.6.27. -/
theorem test_div_zero_arith :
    ends (step (start 0x0010 [(0x0100, 0x2628), (0x0102, 0x0005), (0x0104, 0x0000)])) [] =
      some ([0x0106, 0x8000, 0x9000, 0x0010, 0x0010], []) := by decide

/-- Vector 2.6.23. -/
theorem test_mod_sign :
    ends (step (start 0x0000 [(0x0100, 0x2928), (0x0102, 0xfff9), (0x0104, 0x0002)])) [0x7ffe] =
      some ([0x0106, 0x7ffe, 0x9000, 0x0000, 0x0000], [some 0xffff]) := by decide

/-- Vector 2.6.29. -/
theorem test_mod_zero_arith :
    ends (step (start 0x0010 [(0x0100, 0x2828), (0x0102, 0x0000), (0x0104, 0x0000)])) [] =
      some ([0x0106, 0x8000, 0x9000, 0x0010, 0x0010], []) := by decide

/-- Vector 2.7.AND.f0f0. -/
theorem test_and :
    ends (step (start 0x0004 [(0x0100, 0x2ba8), (0x0102, 0xf0f0), (0x0104, 0x3c3c)])) [0x7ffe] =
      some ([0x0106, 0x7ffe, 0x9000, 0x0004, 0x0000], [some 0x3030]) := by decide

/-- Vector 2.7.OR.f0f0. -/
theorem test_or :
    ends (step (start 0x0004 [(0x0100, 0x2da8), (0x0102, 0xf0f0), (0x0104, 0x3c3c)])) [0x7ffe] =
      some ([0x0106, 0x7ffe, 0x9000, 0x0006, 0x0000], [some 0xfcfc]) := by decide

/-- Vector 2.7.XOR.f0f0. -/
theorem test_xor :
    ends (step (start 0x0004 [(0x0100, 0x2fa8), (0x0102, 0xf0f0), (0x0104, 0x3c3c)])) [0x7ffe] =
      some ([0x0106, 0x7ffe, 0x9000, 0x0006, 0x0000], [some 0xcccc]) := by decide

/-- Vector 2.7.NOT.1234. -/
theorem test_not :
    ends (step (start 0x0000 [(0x0100, 0x3108), (0x0102, 0x1234)])) [0x7ffe] =
      some ([0x0104, 0x7ffe, 0x9000, 0x0000, 0x0000], [some 0xedcb]) := by decide

/-- Vector 2.7.SIGNEXT.80. -/
theorem test_signext :
    ends (step (start 0x0000 [(0x0100, 0x3308), (0x0102, 0x0080)])) [0x7ffe] =
      some ([0x0104, 0x7ffe, 0x9000, 0x0000, 0x0000], [some 0xff80]) := by decide

/-- Vector 2.7.ROL.8001. -/
theorem test_rol :
    ends (step (start 0x0000 [(0x0100, 0x3508), (0x0102, 0x8001)])) [0x7ffe] =
      some ([0x0104, 0x7ffe, 0x9000, 0x0000, 0x0000], [some 0x0003]) := by decide

/-- Vector 2.7.ROR.8001. -/
theorem test_ror :
    ends (step (start 0x0000 [(0x0100, 0x3708), (0x0102, 0x8001)])) [0x7ffe] =
      some ([0x0104, 0x7ffe, 0x9000, 0x0000, 0x0000], [some 0xc000]) := by decide

/-- Vector 2.7.BSWAP.1234. -/
theorem test_bswap :
    ends (step (start 0x0000 [(0x0100, 0x3908), (0x0102, 0x1234)])) [0x7ffe] =
      some ([0x0104, 0x7ffe, 0x9000, 0x0000, 0x0000], [some 0x3412]) := by decide

/-- Vector 2.7.ASR.8001. -/
theorem test_asr :
    ends (step (start 0x0000 [(0x0100, 0x3b08), (0x0102, 0x8001)])) [0x7ffe] =
      some ([0x0104, 0x7ffe, 0x9000, 0x0000, 0x0000], [some 0xc000]) := by decide

/-- Vector 2.7.LSL.8001. -/
theorem test_lsl :
    ends (step (start 0x0000 [(0x0100, 0x3d08), (0x0102, 0x8001)])) [0x7ffe] =
      some ([0x0104, 0x7ffe, 0x9000, 0x0000, 0x0000], [some 0x0002]) := by decide

/-- Vector 2.7.LSR.8001. -/
theorem test_lsr :
    ends (step (start 0x0000 [(0x0100, 0x3f08), (0x0102, 0x8001)])) [0x7ffe] =
      some ([0x0104, 0x7ffe, 0x9000, 0x0000, 0x0000], [some 0x4000]) := by decide

/-- Vector 2.8.2. -/
theorem test_setip_call :
    ends (step (start 0x0000 [(0x0100, 0x4108), (0x0102, 0x0200)])) [0x7ffe] =
      some ([0x0200, 0x7ffe, 0x9000, 0x0000, 0x0000], [some 0x0104]) := by decide

/-- Vector 2.8.5. -/
theorem test_setip_returns_from_interrupt :
    ends (step (start 0x0000 [(0x8000, 0x0456), (0x8002, 0x0080), (0x0100, 0x4078)])) [] =
      some ([0x0456, 0x8004, 0x9000, 0x0080, 0x0000], []) := by decide

/-- Vector 2.8.18. -/
theorem test_addip_backward :
    ends (step { start 0x0000 [(0x0110, 0x420a), (0x0112, 0xfffa)] with ip := 0x0110#16 }) [] =
      some ([0x010e, 0x8000, 0x9000, 0x0000, 0x0000], []) := by decide

/-- Vector 2.8.21. -/
theorem test_addip_wraps :
    ends (step { start 0x0000 [(0xfff8, 0x4208), (0xfffa, 0x0010)] with ip := 0xfff8#16 }) [] =
      some ([0x000c, 0x8000, 0x9000, 0x0000, 0x0000], []) := by decide

/-- Vector 2.8.25. -/
theorem test_intr_sets_bit :
    ends (step (start 0x0020 [(0x0100, 0x4508), (0x0102, 0x0020)])) [0x7ffe] =
      some ([0x0104, 0x7ffe, 0x9000, 0x0020, 0x0020], [some 0x0020]) := by decide

/-- Vector 2.8.30. -/
theorem test_intr_on_markIIL : faults (step (onL (start 0x0000 [(0x0100, 0x4408), (0x0102, 0x0020)]))) =
    some .intrOnMark2L := by decide

/-- Vector 2.5.4. -/
theorem test_halt : (match step (start 0 [(0x0100, 0x1200)]) with
    | .next t => t.halted && t.ip == 0x0102#16 && t.sp == 0x8000#16
    | _ => false) = true := by decide

/-- Section 2.2: the reserved command 63 is skipped while its condition is false. -/
theorem test_reserved_skipped :
    ends (step (start 0x0000 [(0x0100, 0x7E29), (0x0102, 1), (0x0104, 2)])) [] =
      some ([0x0106, 0x8000, 0x9000, 0, 0], []) := by decide

/-- Section 2.2: it is undefined behaviour while its condition is true. -/
theorem test_reserved_executed :
    faults (step (start 0x0001 [(0x0100, 0x7E29), (0x0102, 1), (0x0104, 2)])) =
      some .reservedCommand := by decide

/-- The interrupt table of section 2.9, and a no-op at every handler the tests reach. -/
def table : List (Nat × Nat) :=
  [(0x00, 0x0010), (0x02, 0x0100), (0x04, 0x0200), (0x06, 0x0300), (0x08, 0x0400), (0x0A, 0x0500),
    (0x0C, 0x0600), (0x0E, 0x0700), (0x0010, 0), (0x0100, 0), (0x0200, 0), (0x0300, 0)]

/-- The start of section 2.9. -/
def pending (ir fr : Nat) : State := { start fr table with ip := 0x0300#16, ir := BitVec.ofNat 16 ir }

/-- Section 2.9 row 11: NMI and IRQ at one boundary; the no-op of the NMI handler has also run. -/
theorem test_nmi_before_irq :
    ends (step (pending 0x0082 0x0080)) [0x7FFE, 0x7FFC, 0x7FFA, 0x7FF8] =
      some ([0x0102, 0x7FF8, 0x9000, 0, 0], [some 0x0080, some 0x0300, some 0x0002, some 0x0700]) := by
  decide

/-- Section 2.9 row 13: three masked requests are dropped, SOFTWARE is taken (its handler is not in
this memory, so only the boundary phase is run). -/
theorem test_masked_dropped :
    (match boundary (pending 0x00F0 0x0020) with
      | .ok _ t => ends (.next t) [0x7FFE, 0x7FFC]
      | _ => none) = some ([0x0500, 0x7FFC, 0x9000, 0, 0], [some 0x0020, some 0x0300]) := by decide

/-- Section 2.9 row 3: reset discards every other request; the no-op at 0x0010 has also run. -/
theorem test_reset_discards :
    ends (step (pending 0x00F7 0x00FF)) [] = some ([0x0012, 0, 0, 0, 0], []) := by decide

/-- Section 2.9 row 18: an odd reset vector. -/
theorem test_odd_vector :
    faults (step { pending 1 0 with mem := words [(0, 0x0011)] }) = some .oddPointer := by decide

/-- Section 2.9, BUS: writes to 0xC000 and above are answered with BUS. -/
theorem test_bus_cancels :
    ends (step { start 0 [(0x0100, 0x0A78), (0x8000, 0xBEEF), (0x8002, 0xC000)] with
        platform := { Platform.default with busErrors := [⟨0xC000, 0x4000, .word, .write⟩] } })
      [0xC000] = some ([0x0100, 0x8000, 0x9000, 0, 4], [none]) := by decide

/-! ## Witnesses: a state and operands that meet the hypotheses of each obligation

The configuration takes two immediates, sets the flags and pushes; the two words stand behind the
opcode word at 0x0100. -/

/-- Two immediates, flags, push. -/
def cii : Cfg := ⟨.always, .imm, .imm, true, true⟩

/-- The condition that FR = 0 makes false. -/
def cskip : Cfg := ⟨.zero, .imm, .imm, true, true⟩

/-- A state in which an instruction with `cii` takes the inputs `a` and `b`. -/
def inputs (a b : Nat) (more : List (Nat × Nat)) : State :=
  start 0 ([(0x0102, a), (0x0104, b)] ++ more)

/-- The instruction with `cii` takes these inputs, from plain memory. -/
abbrev Takes (s : State) (a b : Word) : Prop := Executes cii s a b (afterInputs cii s)

/-- The same with other fields of the platform. -/
def withDivMod (d : DivMod) (s : State) : State :=
  { s with platform := { s.platform with divMod := d } }

/-- A platform with one region. -/
def withRegion (base size : Nat) (k : RegionKind) (s : State) : State :=
  { s with platform := { s.platform with map := [⟨base, size, k⟩] } }

/-- A platform that answers accesses of one kind at two addresses with BUS. -/
def withBus (base : Nat) (w : Width) (k : AccessKind) (s : State) : State :=
  { s with platform := { s.platform with busErrors := [⟨base, 2, w, k⟩] } }

theorem witness_decoding_undoes_encoding :
    [0x1234#16, 0xFFFF#16].length = (Instr.cfg (.intr cii)).immWords := rfl

theorem witness_encoding_undoes_decoding :
    (0x8000#16 : Word).getLsbD 15 = true ∧ (0x7FFF#16 : Word).getLsbD 15 = false := by decide

theorem witness_skipped : condHolds (Instr.cfg (.reserved63 cskip)).cond (start 0 []).fr = false := by
  decide

/-- The pops and the immediates at the end of memory, and two pops from a device. -/
theorem witness_inputs_in_order :
    (let s := { start 0 [(0xFFFC, 0x1111), (0xFFFE, 0x2222)] with sp := 0xFFFC#16, ip := 0xFFFC#16 };
      plainWord s .read s.sp = some 0x1111#16 ∧ plainWord s .read (s.sp + 2#16) = some 0x2222#16 ∧
      condHolds .always s.fr = true ∧ wordWritable s 0x2222#16 = true ∧
      plainWord s .fetch s.ip = some 0x1111#16 ∧
      plainWord s .fetch (s.ip + 2#16) = some 0x2222#16) ∧
    (let s := { start 0 [(0xFFFC, 0x1111), (0xFFFE, 0x2222)] with ip := 0xFFFA#16 };
      plainWord s .fetch (s.ip + 2#16) = some 0x1111#16 ∧
      plainWord s .fetch (s.ip + 4#16) = some 0x2222#16 ∧ wordWritable s 0x2222#16 = true) ∧
    ∃ x u y v, fetchInput .pop (withRegion 0x8000 4 .device (start 0 [])) = .ok x u ∧
      fetchInput .pop u = .ok y v ∧ v.draws = 2 :=
  ⟨by decide, by decide, _, _, _, _, rfl, rfl, rfl⟩

/-- An input popped from a device, one fetched from a device, and an output pushed onto one. -/
theorem witness_device_inputs :
    (∃ a t, Executes ⟨.always, .pop, .zero, false, false⟩ (withRegion 0x8000 2 .device (start 0 []))
      a 0#16 t ∧ t.draws = 1) ∧
    (∃ a t, Executes ⟨.always, .imm, .zero, false, false⟩ (withRegion 0x0102 2 .device (start 0 []))
      a 0#16 t ∧ t.draws = 1) ∧
    canOutput cii (afterInputs cii (withRegion 0x7FFE 2 .device (inputs 1 2 []))) = true :=
  ⟨⟨_, _, ⟨rfl, rfl⟩, rfl⟩, ⟨_, _, ⟨rfl, rfl⟩, rfl⟩, by decide⟩

/-- For COPY, HALT, FRGET, BPGET, SPGET, ADD, SUB, the logic and the shift commands. -/
theorem witness_completes :
    Takes (inputs 0xFFFF 0x8001 []) 0xFFFF#16 0x8001#16 ∧
    canOutput cii (afterInputs cii (inputs 0xFFFF 0x8001 [])) = true := by decide

/-- GET: the last word of memory, an odd BP, and a device. -/
theorem witness_get :
    (let s := inputs 0x37FF 0 [(0xFFFE, 0xCAFE)];
      Takes s 0x37FF#16 0#16 ∧ plainWord s .read (s.bp + 2#16 * 0x37FF#16) = some 0xCAFE#16 ∧
      canOutput cii (afterInputs cii s) = true) ∧
    (let s := { inputs 0x37FF 0 [] with bp := 0x9001#16 };
      Takes s 0x37FF#16 0#16 ∧ isOdd s.bp = true) ∧
    (let s := withRegion 0xFFFE 2 .device (inputs 0x37FF 0 []);
      Takes s 0x37FF#16 0#16 ∧
      ∃ v, readableWord (afterInputs cii s) .read (s.bp + 2#16 * 0x37FF#16) = some v) :=
  ⟨by decide, by decide, by decide, _, rfl⟩

theorem witness_set :
    (let s := inputs 0x37FF 0xBEEF [];
      Takes s 0x37FF#16 0xBEEF#16 ∧ wordWritable s (s.bp + 2#16 * 0x37FF#16) = true ∧
      canOutput cii (afterInputs cii s) = true) ∧
    (let s := { inputs 0x37FF 0xBEEF [] with bp := 0x9001#16 };
      Takes s 0x37FF#16 0xBEEF#16 ∧ isOdd s.bp = true) ∧
    (let s := withRegion 0xFFFF 1 .device (inputs 0x37FF 0xBEEF []);
      Takes s 0x37FF#16 0xBEEF#16 ∧ wordStorable s (s.bp + 2#16 * 0x37FF#16) = true ∧
      canOutput cii (afterInputs cii s) = true) := by decide

/-- STORE8 and LOAD8 at the last byte of memory, RAM and then a device. -/
theorem witness_byte_commands :
    (let s := inputs 0x12AB 0xFFFF [];
      Takes s 0x12AB#16 0xFFFF#16 ∧ byteWritable s 0xFFFF#16 = true ∧
      canOutput cii (afterInputs cii s) = true) ∧
    (let s := inputs 0xFFFF 0 [(0xFFFE, 0x80FF)];
      Takes s 0xFFFF#16 0#16 ∧ plainByte s 0xFFFF#16 = some 0x80#8 ∧
      canOutput cii (afterInputs cii s) = true) ∧
    (let s := withRegion 0xFFFF 1 .device (inputs 0xFFFF 0xFFFF []);
      Takes s 0xFFFF#16 0xFFFF#16 ∧ canOutput cii (afterInputs cii s) = true ∧
      byteStorable s 0xFFFF#16 = true ∧
      ∃ v, readableByte (afterInputs cii s) 0xFFFF#16 = some v) :=
  ⟨by decide, by decide, by decide, by decide, by decide, _, rfl⟩

theorem witness_store16 :
    (let s := inputs 0xBEEF 0xFFFE [];
      Takes s 0xBEEF#16 0xFFFE#16 ∧ wordWritable s 0xFFFE#16 = true ∧
      canOutput cii (afterInputs cii s) = true) ∧
    (Takes (inputs 1 0xFFFF []) 1#16 0xFFFF#16 ∧ isOdd 0xFFFF#16 = true) ∧
    (let s := withRegion 0xFFFE 2 .device (inputs 0xBEEF 0xFFFE []);
      Takes s 0xBEEF#16 0xFFFE#16 ∧ wordStorable s 0xFFFE#16 = true ∧
      canOutput cii (afterInputs cii s) = true) := by decide

theorem witness_load16 :
    (let s := inputs 0xFFFE 0 [(0xFFFE, 0x1357)];
      Takes s 0xFFFE#16 0#16 ∧ plainWord s .read 0xFFFE#16 = some 0x1357#16 ∧
      canOutput cii (afterInputs cii s) = true) ∧
    (Takes (inputs 0xFFFF 0 []) 0xFFFF#16 0#16 ∧ isOdd 0xFFFF#16 = true) ∧
    (let s := withRegion 0xFFFE 2 .device (inputs 0xFFFE 0 []);
      Takes s 0xFFFE#16 0#16 ∧ canOutput cii (afterInputs cii s) = true ∧
      ∃ v, readableWord (afterInputs cii s) .read 0xFFFE#16 = some v) :=
  ⟨by decide, by decide, by decide, by decide, _, rfl⟩

theorem witness_cpuid :
    (Takes (inputs 0 0 []) 0#16 0#16 ∧
      canOutput cii (afterInputs cii (inputs 0 0 [])) = true) ∧
    Takes (inputs 0 1 []) 0#16 1#16 := by decide

/-- FRSET: every legal bit set, and the lowest reserved bit of each variant. -/
theorem witness_frset :
    (let s := inputs 0x00FF 0 [];
      Takes s 0x00FF#16 0#16 ∧
      (0x00FF#16 &&& ~~~0#16 ||| s.fr &&& 0#16) &&& frReserved s.platform.variant = 0#16 ∧
      canOutput cii (afterInputs cii s) = true) ∧
    (let s := inputs 0x0100 0 [];
      Takes s 0x0100#16 0#16 ∧
      (0x0100#16 &&& ~~~0#16 ||| s.fr &&& 0#16) &&& frReserved s.platform.variant ≠ 0#16) ∧
    (let s := onL (inputs 0x0010 0 []);
      Takes s 0x0010#16 0#16 ∧
      (0x0010#16 &&& ~~~0#16 ||| s.fr &&& 0#16) &&& frReserved s.platform.variant ≠ 0#16) := by
  decide

/-- BPSET and SPSET: the highest even value and an odd one. -/
theorem witness_pointer_sets :
    (let s := inputs 0xFFFE 0 [];
      Takes s 0xFFFE#16 0#16 ∧ isOdd 0xFFFE#16 = false ∧
      canOutput cii (afterInputs cii s) = true ∧
      canOutput cii { afterInputs cii s with sp := 0xFFFE#16 } = true) ∧
    (Takes (inputs 0xFFFF 0 []) 0xFFFF#16 0#16 ∧ isOdd 0xFFFF#16 = true) := by decide

/-- MUL: the largest product without carry, under both readings. -/
theorem witness_mul :
    let s := inputs 0x00FF 0x0101 []
    let t := { s with platform := { s.platform with mulCarry := .unsigned } }
    Takes s 0x00FF#16 0x0101#16 ∧ canOutput cii (afterInputs cii s) = true ∧
    s.platform.mulCarry = .signed ∧ Takes t 0x00FF#16 0x0101#16 ∧
    canOutput cii (afterInputs cii t) = true ∧ t.platform.mulCarry = .unsigned := by decide

/-- DIV and MOD: -7 by 2 under the three conventions, 7 by 2 under the open one. -/
theorem witness_div_mod :
    Takes (inputs 0xFFF9 2 []) 0xFFF9#16 2#16 ∧
    canOutput cii (afterInputs cii (inputs 0xFFF9 2 [])) = true ∧
    ((-3 : Int) = (0xFFF9#16 : Word).toInt.tdiv (2#16 : Word).toInt) ∧
    ((-4 : Int) = (0xFFF9#16 : Word).toInt.fdiv (2#16 : Word).toInt) ∧
    ((-4 : Int) = (0xFFF9#16 : Word).toInt / (2#16 : Word).toInt) ∧
    Takes (withDivMod .floor (inputs 0xFFF9 2 [])) 0xFFF9#16 2#16 ∧
    Takes (withDivMod .euclid (inputs 0xFFF9 2 [])) 0xFFF9#16 2#16 ∧
    Takes (withDivMod .unspecified (inputs 7 2 [])) 7#16 2#16 ∧
    (0 ≤ (7#16 : Word).toInt ∧ 0 < (2#16 : Word).toInt ∧
      (3 : Int) = (7#16 : Word).toInt.tdiv (2#16 : Word).toInt) := by decide

theorem witness_div_mod_open :
    (let s := inputs 0x8000 0xFFFF [];
      Takes s 0x8000#16 0xFFFF#16 ∧ canOutput cii (afterInputs cii s) = true) ∧
    (let s := withDivMod .unspecified (inputs 0xFFFF 1 []);
      Takes s 0xFFFF#16 1#16 ∧ canOutput cii (afterInputs cii s) = true ∧
      s.platform.divMod = .unspecified ∧ (0xFFFF#16 : Word).toInt < 0) := by decide

theorem witness_divide_by_zero :
    (let s := inputs 5 0 [];
      Takes s 5#16 0#16 ∧ canOutput cii (afterInputs cii s) = true ∧
      s.platform.variant = .markII) ∧
    (let s := onL (inputs 5 0 []);
      Takes s 5#16 0#16 ∧ canOutput cii (afterInputs cii s) = true ∧
      s.platform.variant = .markIIL) := by decide

/-- -7 by 2 and by -2 under the three conventions, 7 by 2 under the open one. -/
theorem witness_quotient :
    (2#16 : Word) ≠ 0#16 ∧ ¬ ((0xFFF9#16 : Word) = 0x8000#16 ∧ (2#16 : Word) = 0xFFFF#16) ∧
    (0xFFFE#16 : Word) ≠ 0#16 ∧ ¬ ((0xFFF9#16 : Word) = 0x8000#16 ∧ (0xFFFE#16 : Word) = 0xFFFF#16) ∧
    (∀ d, (withDivMod d (start 0 [])).platform.divMod = d) ∧
    0 ≤ (7#16 : Word).toInt ∧ 0 ≤ (2#16 : Word).toInt :=
  ⟨by decide, by decide, by decide, by decide, fun _ => rfl, by decide, by decide⟩

/-- SETIP: the highest target, an odd one, a reserved bit of FR. -/
theorem witness_setip :
    (let s := inputs 0xFFFE 0x00FF [];
      Takes s 0xFFFE#16 0x00FF#16 ∧ isOdd 0xFFFE#16 = false ∧
      (s.fr ||| 0x00FF#16) &&& frReserved s.platform.variant = 0#16 ∧
      canOutput cii (afterInputs cii s) = true) ∧
    (Takes (inputs 0xFFFF 0 []) 0xFFFF#16 0#16 ∧ isOdd 0xFFFF#16 = true) ∧
    (let s := inputs 0xFFFE 0x0100 [];
      Takes s 0xFFFE#16 0x0100#16 ∧ isOdd 0xFFFE#16 = false ∧
      ¬ (s.fr ||| 0x0100#16) &&& frReserved s.platform.variant = 0#16) := by decide

/-- ADDIP: back to its own opcode word, an odd sum, a reserved bit of FR. -/
theorem witness_addip :
    (let s := inputs 0xFFFA 0x00FF [];
      let next := s.ip + BitVec.ofNat 16 (Instr.addip cii).length;
      Takes s 0xFFFA#16 0x00FF#16 ∧ isOdd (next + 0xFFFA#16) = false ∧
      (s.fr ||| 0x00FF#16) &&& frReserved s.platform.variant = 0#16 ∧
      canOutput cii (afterInputs cii s) = true) ∧
    (let s := inputs 3 0 [];
      Takes s 3#16 0#16 ∧
      isOdd (s.ip + BitVec.ofNat 16 (Instr.addip cii).length + 3#16) = true) ∧
    (let s := inputs 0xFFFA 0x8000 [];
      Takes s 0xFFFA#16 0x8000#16 ∧
      isOdd (s.ip + BitVec.ofNat 16 (Instr.addip cii).length + 0xFFFA#16) = false ∧
      ¬ (s.fr ||| 0x8000#16) &&& frReserved s.platform.variant = 0#16) := by decide

/-- INTR: every legal bit, the reserved bit 3, and the reduced variant. -/
theorem witness_intr :
    (let s := inputs 0x00F7 0 [];
      Takes s 0x00F7#16 0#16 ∧ s.platform.variant = .markII ∧ 0x00F7#16 &&& 0xFF08#16 = 0#16 ∧
      canOutput cii (afterInputs cii s) = true) ∧
    (Takes (inputs 8 0 []) 8#16 0#16 ∧ (8#16 : Word) &&& 0xFF08#16 ≠ 0#16) ∧
    (Takes (onL (inputs 1 0 [])) 1#16 0#16 ∧
      (onL (inputs 1 0 [])).platform.variant = .markIIL) := by decide

theorem witness_reserved :
    Instr.defined (.reserved35 cii) = false ∧
    Executes (Instr.cfg (.reserved35 cii)) (inputs 0 0 []) 0#16 0#16 (afterInputs (Instr.cfg (.reserved35 cii)) (inputs 0 0 [])) := by decide

/-- Every command of the frame statements completes in some state. The state has inputs 0 and 0 and a
word at the frame address, so that each of them does. -/
theorem witness_frames :
    let s := inputs 0 0 [(0x0000, 0), (0x9000, 0x1234)]
    ∀ i ∈ [Instr.copy cii, .get cii, .set cii, .store8 cii, .store16 cii, .load8 cii, .load16 cii,
      .cpuid cii, .halt cii, .frget cii, .frset cii, .bpget cii, .bpset cii, .spget cii, .spset cii,
      .add cii, .sub cii, .mul cii, .div cii, .mod cii, .and cii, .or cii, .xor cii, .not cii,
      .signext cii, .rol cii, .ror cii, .bswap cii, .asr cii, .lsl cii, .lsr cii, .setip cii,
      .addip cii, .intr cii], ∃ t, exec i s = .next t := by
  intro s i hi
  exact exists_of_nexts ((show ∀ i ∈ _, nexts (exec i s) = true by decide) i hi)

/-- The store frame's cases: skipped, cancelled with IP at the opcode word, and completed. -/
theorem witness_store_frame :
    condHolds cskip.cond (inputs 0 0 []).fr = false ∧ nexts (exec (.set cskip) (inputs 0 0 [])) = true ∧
    (let s := withBus 2 .word .write (inputs 1 2 []);
      ends (exec (.store16 cii) s) [2] = some ([0x0100, 0x8000, 0x9000, 0, 4], [none])) := by decide

/-- The inputs are taken, and in a device state or a stop they may not be: here the stack is odd. -/
theorem witness_frame_inputs :
    (fetchInput cii.in0 ((inputs 0 0 []).setIp 0x0102#16) =
      .ok 0#16 ((inputs 0 0 []).setIp 0x0104#16)) ∧
    (∀ a s0, fetchInput .pop { start 0 [] with sp := 1#16 } ≠ .ok a s0) := by
  refine ⟨by decide, fun a s0 h => ?_⟩
  have : fetchInput .pop { start 0 [] with sp := 1#16 } = .stop .unaligned := by decide
  rw [this] at h
  cases h

/-- ADD, SUB and MUL executed to their end, and commands that do not write C. -/
theorem witness_carry :
    Takes (inputs 0 0 []) 0#16 0#16 ∧
    (∀ i ∈ [Instr.add cii, .sub cii, .mul cii, .lsl cii], nexts (exec i (inputs 0 0 [])) = true) ∧
    Instr.lsl cii ∉ [Instr.add cii, .sub cii, .mul cii, .frset cii, .setip cii, .addip cii] := by
  decide

theorem witness_writers :
    (∃ t, exec (.intr cii) (inputs 0x0010 0 []) = .next t) ∧ Instr.intr cii ≠ .bpset cii ∧
    Instr.copy cii ≠ .intr cii ∧ (∃ t, exec (.copy cii) (inputs 0 0 []) = .next t) :=
  ⟨exists_of_nexts (by decide), by decide, by decide, exists_of_nexts (by decide)⟩

theorem witness_only_setip_and_addip_jump :
    Instr.copy cii ∉ [Instr.setip cii, .addip cii] ∧
    ∃ t, exec (.copy cii) (inputs 0 0 []) = .next t :=
  ⟨by decide, exists_of_nexts (by decide)⟩

/-- The last word of memory, not answered with BUS, and a later state whose IP stands there. -/
theorem witness_written_word :
    wordWritable (start 0 []) 0xFFFE#16 = true ∧
    let t := (start 0 []).setMem (memSetWord (start 0 []).mem 0xFFFE#16 0x1234#16)
    let u := { t with ip := 0xFFFE#16, mem := memSetWord t.mem 0x4000#16 1#16 }
    writeWord 0xFFFE#16 0x1234#16 (start 0 []) = .ok () t ∧ u.platform = t.platform ∧
    memByte u.mem 0xFFFE = memByte t.mem 0xFFFE ∧ memByte u.mem 0xFFFF = memByte t.mem 0xFFFF ∧
    (∀ k, busSignalled u 0xFFFE#16 .word k = false) ∧
    busSignalled u 0xFFFE#16 .byte .read = false ∧ busSignalled u 0xFFFF#16 .byte .read = false :=
  ⟨by decide, by decide, by decide, by decide, by decide, fun k => by cases k <;> decide, by decide,
    by decide⟩

theorem witness_odd :
    let s : State := { start 0 [] with ip := 0xFFFF#16, sp := 1#16, bp := 0xFFFF#16 }
    isOdd 0xFFFF#16 = true ∧ isOdd s.ip = true ∧ isOdd s.sp = true ∧ isOdd s.bp = true := by decide

/-- Any two kinds at the two bytes of the last word of memory, with values and without. -/
theorem witness_regions :
    let at2 := fun (r r' : RegionKind) (s : State) =>
      { s with platform := { s.platform with map := [⟨0xFFFE, 1, r⟩, ⟨0xFFFF, 1, r'⟩] } }
    isOdd 0xFFFE#16 = false ∧
    (∀ r r' k, busSignalled (at2 r r' (start 0 [])) 0xFFFE#16 .word k = false) ∧
    (∀ r r' k, busSignalled (at2 r r' (start 0 [])) 0xFFFF#16 .byte k = false) ∧
    (∀ r r', kindAt (at2 r r' (start 0 [])) (0xFFFE#16 : Word).toNat = r ∧
      kindAt (at2 r r' (start 0 [])) (0xFFFE#16 + 1#16 : Word).toNat = r') ∧
    memByte (start 0 []).mem 0xFFFE = none ∧ memByte (start 0 []).mem 0xFFFF = none ∧
    memWord (start 0 [(0xFFFE, 0x1234)]).mem 0xFFFE#16 = some 0x1234#16 ∧
    memByte (start 0 [(0xFFFE, 0x1234)]).mem 0xFFFE = some 0x34#8 ∧
    memByte (start 0 [(0xFFFE, 0x1234)]).mem 0xFFFF = some 0x12#8 :=
  ⟨by decide, fun r r' k => by cases r <;> cases r' <;> cases k <;> decide,
    fun r r' k => by cases r <;> cases r' <;> cases k <;> decide,
    fun r r' => by cases r <;> cases r' <;> decide, by decide, by decide, by decide, by decide, by decide⟩

/-- Two pops and a push. -/
def cpp : Cfg := ⟨.always, .pop, .pop, true, true⟩

/-- BUS on the inputs: each immediate and each pop. -/
theorem witness_bus_inputs :
    (let s := withBus 0x0102 .word .fetch (inputs 1 2 []);
      condHolds cii.cond s.fr = true ∧ isOdd s.ip = false ∧
      busSignalled s (s.ip + 2#16) .word .fetch = true) ∧
    (let s := withBus 0x8000 .word .read (start 0 []);
      condHolds cpp.cond s.fr = true ∧ isOdd s.sp = false ∧ busSignalled s s.sp .word .read = true) ∧
    (let s := withBus 0x0104 .word .fetch (inputs 1 2 []);
      let u := s.setIp 0x0104#16;
      takeInput cii.in0 (s.setIp (s.ip + 2#16)) = some (1#16, u) ∧ isOdd u.ip = false ∧
      busSignalled s u.ip .word .fetch = true) ∧
    (let s := withBus 0x8002 .word .read (start 0 [(0x8000, 7)]);
      let u := (s.setIp 0x0102#16).setSp 0x8002#16;
      takeInput cpp.in0 (s.setIp (s.ip + 2#16)) = some (7#16, u) ∧ isOdd u.sp = false ∧
      busSignalled s u.sp .word .read = true) := by decide

/-- BUS on the access of each command that makes one, at the last addresses of memory. -/
theorem witness_bus_commands :
    (let s := withBus 0xFFFE .word .read (inputs 0x37FF 0 []);
      takeInputs cii s = some (0x37FF#16, 0#16, afterInputs cii s) ∧ isOdd s.bp = false ∧
      busSignalled s (s.bp + 2#16 * 0x37FF#16) .word .read = true) ∧
    (let s := withBus 0xFFFE .word .write (inputs 0x37FF 0xFFFE []);
      takeInputs cii s = some (0x37FF#16, 0xFFFE#16, afterInputs cii s) ∧ isOdd s.bp = false ∧
      busSignalled s (s.bp + 2#16 * 0x37FF#16) .word .write = true ∧
      isOdd 0xFFFE#16 = false ∧ busSignalled s 0xFFFE#16 .word .write = true) ∧
    (let s := withBus 0xFFFE .byte .write (inputs 1 0xFFFF []);
      takeInputs cii s = some (1#16, 0xFFFF#16, afterInputs cii s) ∧
      busSignalled s 0xFFFF#16 .byte .write = true) ∧
    (let s := withBus 0xFFFE .byte .read (inputs 0xFFFF 0 []);
      takeInputs cii s = some (0xFFFF#16, 0#16, afterInputs cii s) ∧
      busSignalled s 0xFFFF#16 .byte .read = true) ∧
    (let s := withBus 0xFFFE .word .read (inputs 0xFFFE 0 []);
      takeInputs cii s = some (0xFFFE#16, 0#16, afterInputs cii s) ∧ isOdd 0xFFFE#16 = false ∧
      busSignalled s 0xFFFE#16 .word .read = true) := by decide

/-- BUS on a push, here of ADD, and on the opcode fetch. -/
theorem witness_bus_push :
    (let s := withBus 0x7FFE .word .write (inputs 1 2 []);
      Instr.cmd (.add { cii with out := false }) = Instr.cmd (.add cii) ∧ cii.out = true ∧
      ∃ t, exec (.add { cii with out := false }) s = .next t ∧ isOdd t.sp = false ∧
        busSignalled s (t.sp - 2#16) .word .write = true) ∧
    (let s := withBus 0x0100 .word .fetch (inputs 1 2 []);
      boundary s = .ok () s ∧ s.halted = false ∧ isOdd s.ip = false ∧
      busSignalled s s.ip .word .fetch = true) :=
  ⟨⟨rfl, rfl, _, rfl, by decide, by decide⟩, by decide⟩

/-- A reset pending in IR, one signalled on the pin, and an odd vector. -/
theorem witness_reset :
    (let s := pending 1 0x008F;
      s.platform.variant = .markII ∧ s.ir.getLsbD 0 = true ∧
      plainWord s .fetch 0#16 = some 0x0010#16 ∧ isOdd 0x0010#16 = false) ∧
    (let s := { pending 0 0 with pins := [⟨true, false, false⟩] };
      (pinsNow s).rst = true ∧ plainWord s .fetch 0#16 = some 0x0010#16) ∧
    (let s := start 0 [(0, 0x0011)];
      plainWord s .fetch 0#16 = some 0x0011#16 ∧ isOdd 0x0011#16 = true) := by decide

theorem witness_reset_markIIL :
    (let s := onL { start 0 [] with pins := [⟨true, true, true⟩] };
      s.platform.variant = .markIIL ∧ (pinsNow s).rst = true) ∧
    (let s := onL { start 0 [] with pins := [⟨false, true, true⟩] };
      s.platform.variant = .markIIL ∧ (pinsNow s).rst = false) := by decide

/-- Taking IRQ, the highest interrupt, and one with an odd table entry. -/
theorem witness_entry :
    (let s := pending 0x0080 0x0080;
      let m := memSetWord (memSetWord s.mem (s.sp - 2#16) (1#16 <<< 7)) (s.sp - 4#16) s.ip;
      wordWritable s (s.sp - 2#16) = true ∧ wordWritable s (s.sp - 4#16) = true ∧
      plainWord { s with mem := m } .fetch (BitVec.ofNat 16 (2 * 7)) = some 0x0700#16) ∧
    (let s := start 0 [(2, 0x0101)];
      let m := memSetWord (memSetWord s.mem (s.sp - 2#16) (1#16 <<< 1)) (s.sp - 4#16) s.ip;
      wordWritable s (s.sp - 2#16) = true ∧ wordWritable s (s.sp - 4#16) = true ∧
      plainWord { s with mem := m } .fetch (BitVec.ofNat 16 (2 * 1)) = some 0x0101#16 ∧
      isOdd 0x0101#16 = true) := by decide

/-- IRQ, enabled, is taken: all the premises of `ReturnUndoesEntry`. -/
theorem witness_return :
    (let s := pending 0 0x0080;
      s.platform.variant = .markII ∧ s.fr.getLsbD 7 = true ∧ s.fr &&& 0xFF00#16 = 0#16 ∧
      isOdd s.ip = false ∧ wordWritable s (s.sp - 2#16) = true ∧
      wordWritable s (s.sp - 4#16) = true ∧ busSignalled s (s.sp - 2#16) .word .read = false ∧
      busSignalled s (s.sp - 4#16) .word .read = false) ∧
    ∃ t, enterInterrupt 7 (pending 0 0x0080) = .ok () t := by
  refine ⟨by decide, ?_⟩
  have h : (match enterInterrupt 7 (pending 0 0x0080) with
      | .ok _ _ => true
      | _ => false) = true := by decide
  cases hr : enterInterrupt 7 (pending 0 0x0080) with
  | ok u t => exact ⟨t, rfl⟩
  | bus t => rw [hr] at h; cases h
  | stop f => rw [hr] at h; cases h

/-- Two masked requests; and a boundary that completes. -/
theorem witness_nothing_pending :
    (pending 0x0090 0).platform.variant = .markII ∧ (pending 0x0090 0).pins = [] ∧
    (∀ n, (pending 0x0090 0).ir.getLsbD n = true →
      4 ≤ n ∧ (pending 0x0090 0).fr.getLsbD n = false) ∧
    boundary (pending 0 0) = .ok () (pending 0 0) := by
  refine ⟨rfl, rfl, fun n hn => ?_, by decide⟩
  have h16 : n < 16 := by
    by_contra hc
    rw [BitVec.getLsbD_of_ge _ _ (by omega)] at hn
    cases hn
  exact (show ∀ n < 16, (pending 0x0090 0).ir.getLsbD n = true →
    4 ≤ n ∧ (pending 0x0090 0).fr.getLsbD n = false by decide) n h16 hn

/-- NMI and IRQ pending, with the lowest stack that lies clear of the table. -/
def lowStack : State := { pending 0x0082 0x0080 with sp := 24#16 }

/-- The premises of `LowerInterruptRunsFirst` for interrupts 1 and 7. -/
theorem witness_priority :
    lowStack.platform.variant = .markII ∧ lowStack.pins = [] ∧
    lowStack.ir = (1#16 <<< 1) ||| (1#16 <<< 7) ∧ lowStack.fr.getLsbD 7 = true ∧
    24 ≤ lowStack.sp.toNat ∧ (∀ d ∈ [2#16, 4#16, 6#16, 8#16],
      wordWritable lowStack (lowStack.sp - d) = true) := by
  refine ⟨rfl, rfl, by decide, by decide, by decide, fun d hd => ?_⟩
  simp only [List.mem_cons, List.mem_nil_iff, or_false] at hd
  rcases hd with rfl | rfl | rfl | rfl <;> decide

theorem witness_priority_handlers :
    plainWord lowStack .fetch (BitVec.ofNat 16 (2 * 1)) = some 0x0100#16 ∧ isOdd 0x0100#16 = false ∧
    plainWord lowStack .fetch (BitVec.ofNat 16 (2 * 7)) = some 0x0700#16 ∧
    isOdd 0x0700#16 = false := by decide

/-- A masked IRQ, an enabled one, and NMI, each alone. -/
theorem witness_pins :
    (⟨false, false, true⟩ : Pins).rst = false ∧ (⟨false, false, true⟩ : Pins).nmi = false ∧
    (start 0 []).fr.getLsbD 7 = false ∧ (start 0x0080 []).fr.getLsbD 7 = true ∧
    (⟨false, true, false⟩ : Pins).rst = false ∧ (⟨false, true, false⟩ : Pins).irq = false ∧
    (∀ p rest, { start 0 [] with pins := p :: rest }.platform.variant = .markII ∧
      { start 0 [] with pins := p :: rest }.ir = 0#16) :=
  ⟨by decide, by decide, by decide, by decide, by decide, by decide, fun _ _ => ⟨rfl, rfl⟩⟩

/-- Halted, with a masked IRQ on `MarkII` and with NMI and IRQ on `MarkII_L`. -/
theorem witness_halted :
    (let s := { start 0 [] with halted := true, pins := [⟨false, false, true⟩] };
      s.halted = true ∧ (pinsNow s).rst = false ∧ s.platform.variant = .markII ∧ s.ir = 0#16 ∧
      (pinsNow s).nmi = false ∧ s.fr.getLsbD 7 = false) ∧
    (let s := onL { start 0 [] with halted := true, pins := [⟨false, true, true⟩] };
      s.halted = true ∧ (pinsNow s).rst = false ∧ s.platform.variant ≠ .markII) := by decide

/-- BUS on the first push, the second push and the table fetch of NMI, which is taken first, and on the
fetch of the reset vector. -/
theorem witness_bus_during_entry :
    (∀ x ∈ [withBus 0x7FFE .word .write (pending 2 0), withBus 0x7FFC .word .write (pending 2 0),
        withBus 2 .word .fetch (pending 2 0)],
      x.platform.variant = .markII ∧ x.pins = [] ∧ x.ir.getLsbD 0 = false ∧
      boundary { x with ir := x.ir &&& (0xFFFE#16 <<< 1) } = .ok () { x with ir := 0#16 } ∧
      x.ir.getLsbD 1 = true ∧ isOdd x.sp = false) ∧
    busSignalled (withBus 0x7FFE .word .write (pending 2 0)) 0x7FFE#16 .word .write = true ∧
    (let s := withBus 0x7FFC .word .write (pending 2 0);
      wordStorable s 0x7FFE#16 = true ∧ busSignalled s 0x7FFC#16 .word .write = true) ∧
    (let s := withBus 2 .word .fetch (pending 2 0);
      wordStorable s 0x7FFE#16 = true ∧ wordStorable s 0x7FFC#16 = true ∧
      busSignalled s (BitVec.ofNat 16 (2 * 1)) .word .fetch = true) ∧
    (let s := withBus 0 .word .fetch (pending 1 0);
      s.platform.variant = .markII ∧ s.ir.getLsbD 0 = true ∧ busSignalled s 0#16 .word .fetch = true) := by
  refine ⟨fun x hx => ?_, by decide⟩
  simp only [List.mem_cons, List.mem_nil_iff, or_false] at hx
  rcases hx with rfl | rfl | rfl <;> decide

/-- BUS on a push of NMI that is entered after IRQ, at the same boundary. -/
theorem witness_bus_during_second_entry :
    let s := withBus 0x7FFA .word .write (pending 0x0082 0x0080)
    let t := { s with
      ir := 0#16
      sp := 0x7FFC#16
      ip := 0x0700#16
      fr := 0#16
      mem := memSetWord (memSetWord s.mem 0x7FFE#16 0x0080#16) 0x7FFC#16 s.ip }
    boundary { s with ir := s.ir &&& (0xFFFE#16 <<< 1) } = .ok () t ∧ s.ir.getLsbD 1 = true ∧
    isOdd t.sp = false ∧ busSignalled s (t.sp - 2#16) .word .write = true := by decide

/-- An instruction and a word with bit 15 set at the highest IP; a boundary that takes NMI. -/
theorem witness_step :
    (let s := { start 0 [(0xFFFE, 0x4078)] with ip := 0xFFFE#16 };
      s.ir = 0#16 ∧ s.pins = [] ∧ s.halted = false ∧
      plainWord s .fetch s.ip = some 0x4078#16 ∧ boundary s = .ok () s) ∧
    decodeWord 0x4078#16 = .ok (.setip ⟨.always, .pop, .pop, false, false⟩) ∧
    (let s := { start 0 [(0xFFFE, 0x8000)] with ip := 0xFFFE#16 };
      boundary s = .ok () s ∧ s.halted = false ∧ plainWord s .fetch s.ip = some 0x8000#16 ∧
      (0x8000#16 : Word).getLsbD 15 = true) := ⟨by decide, rfl, by decide⟩

/-- A step from a state with the invariant: NMI is taken and its handler's no-op runs. -/
theorem witness_invariant :
    (pending 0x0082 0x0080).inv = true ∧ ∃ t, step (pending 0x0082 0x0080) = .next t :=
  ⟨by decide, exists_of_nexts (by decide)⟩

theorem witness_power_on :
    Platform.default.variant = .markII ∧ Memory.wf (words [(0xFFFE, 0x1234)]) = true ∧
    { Platform.default with variant := .markIIL }.variant = .markIIL := by decide

end Sys2Proof.Tests
end

section
/-! PROOF. The parity of addresses and the accesses that it stops (20_memory.md R65, R66). -/

namespace Sys2Proof.Machine

/-! ## Parity -/

theorem isOdd_eq_decide_toNat (a : Word) : isOdd a = decide (a.toNat % 2 = 1) := by
  rw [isOdd, ← BitVec.testBit_toNat, Nat.testBit_zero]

/-- The address of an entry of the interrupt table is even, for every interrupt number. -/
theorem isOdd_ofNat_two_mul (n : Nat) : isOdd (BitVec.ofNat 16 (2 * n)) = false := by
  rw [isOdd_eq_decide_toNat, BitVec.toNat_ofNat, decide_eq_false_iff_not]
  omega

/-- A frame address has the parity of BP. -/
@[simp] theorem isOdd_frameAddr (bp index : Word) : isOdd (frameAddr bp index) = isOdd bp := by
  have hmod : (frameAddr bp index).toNat % 2 = bp.toNat % 2 := by
    rw [frameAddr, BitVec.toNat_add, BitVec.toNat_mul, BitVec.toNat_ofNat]
    omega
  rw [isOdd_eq_decide_toNat, isOdd_eq_decide_toNat, hmod]

/-! ## Word accesses at an odd address -/

theorem writeWord_odd {a v : Word} {s : State} (h : isOdd a = true) :
    writeWord a v s = .stop .unaligned := by
  simp only [writeWord, h, if_true]

/-- A push stores at the address two below SP, which has the parity of SP. -/
theorem push_of_odd_sp {v : Word} {s : State} (h : isOdd s.sp = true) :
    push v s = .stop .unaligned :=
  writeWord_odd ((isOdd_sub_two s.sp).trans h)

theorem peek_of_odd_sp {s : State} (h : isOdd s.sp = true) : peek s = .stop .unaligned :=
  readWord_odd h

theorem pop_of_odd_sp {s : State} (h : isOdd s.sp = true) : pop s = .stop .unaligned := by
  rw [pop, readWord_odd h, andThen_stop]

/-- An interrupt entry begins with a push. -/
theorem enterInterrupt_of_odd_sp {s : State} (n : Nat) (h : isOdd s.sp = true) :
    enterInterrupt n s = .stop .unaligned := by
  rw [enterInterrupt, push_of_odd_sp h, andThen_stop]

theorem fetchOpcode_of_odd_ip {s : State} (h : isOdd s.ip = true) :
    fetchOpcode s = .stop .unaligned := by
  rw [fetchOpcode, readWord_odd h, andThen_stop]

theorem fetchInput_imm_of_odd_ip {s : State} (h : isOdd s.ip = true) :
    fetchInput .imm s = .stop .unaligned := by
  rw [fetchInput, readWord_odd h, andThen_stop]

theorem cmdGet_of_odd_bp {a b : Word} {s : State} (h : isOdd s.bp = true) :
    cmdGet a b s = .stop .unaligned :=
  readWord_odd ((isOdd_frameAddr s.bp a).trans h)

theorem cmdSet_of_odd_bp {a b : Word} {s : State} (h : isOdd s.bp = true) :
    cmdSet a b s = .stop .unaligned := by
  rw [cmdSet, writeWord_odd ((isOdd_frameAddr s.bp a).trans h), andThen_stop]

theorem cmdLoad16_of_odd {a b : Word} {s : State} (h : isOdd a = true) :
    cmdLoad16 a b s = .stop .unaligned :=
  readWord_odd h

theorem cmdStore16_of_odd {a b : Word} {s : State} (h : isOdd b = true) :
    cmdStore16 a b s = .stop .unaligned := by
  rw [cmdStore16, writeWord_odd h, andThen_stop]

/-! ## Byte accesses -/

/-- A byte read stops for the kind of the byte it names, or for its missing value, alone. -/
theorem readByte_stop {a : Word} {s : State} {f : Fault} (h : readByte a s = .stop f) :
    f = .unmapped ∨ f = .undefinedMemory := by
  unfold readByte at h
  split at h
  · cases h
  · split at h
    case h_1 => cases h; exact .inl rfl
    case h_2 => cases h
    all_goals
      split at h
      · cases h
      · cases h; exact .inr rfl

/-- A byte write stops for the kind of the byte it names alone. -/
theorem writeByte_stop {a : Word} {b : Byte} {s : State} {f : Fault}
    (h : writeByte a b s = .stop f) : f = .unmapped ∨ f = .romWrite := by
  unfold writeByte at h
  split at h
  · cases h
  · split at h
    case h_1 => cases h; exact .inl rfl
    case h_2 => cases h; exact .inr rfl
    all_goals cases h

theorem readByte_ne_unaligned (a : Word) (s : State) : readByte a s ≠ .stop .unaligned :=
  fun h => by simpa using readByte_stop h

theorem writeByte_ne_unaligned (a : Word) (b : Byte) (s : State) :
    writeByte a b s ≠ .stop .unaligned :=
  fun h => by simpa using writeByte_stop h

/-! ## The statement -/

/-- Settles O44, access by access: each word access checks the parity of the address it names, and the
addresses derived from SP and BP have the parity of the register. -/
theorem oddWordAccessesStop : Obligations.OddWordAccessesStop := by
  intro s a v
  refine ⟨fun ha => ?_, fun hip => ?_, fun hsp => ?_, isOdd_ofNat_two_mul, fun hbp => ?_,
    readByte_ne_unaligned a s, fun b => writeByte_ne_unaligned a b s⟩
  · exact ⟨fun _ => readWord_odd ha, writeWord_odd ha, cmdLoad16_of_odd ha, cmdStore16_of_odd ha⟩
  · exact ⟨fetchOpcode_of_odd_ip hip, fetchInput_imm_of_odd_ip hip⟩
  · exact ⟨push_of_odd_sp hsp, pop_of_odd_sp hsp, peek_of_odd_sp hsp,
      fun n => enterInterrupt_of_odd_sp n hsp⟩
  · exact ⟨cmdGet_of_odd_bp hbp, cmdSet_of_odd_bp hbp⟩

end Sys2Proof.Machine
end

section
/-! PROOF. The conditions read from the opcode word and the flags that they test (30_encoding.md R93, R125). -/

namespace Sys2Proof.Machine

/-! ## Reading a condition's value back -/

@[simp] theorem ofBits_toBits_cond (c : Cond) : Cond.ofBits c.toBits = c := by
  cases c <;> rfl

theorem condHolds_ofBits_toBits (c : Cond) (fr : Word) :
    condHolds (Cond.ofBits c.toBits) fr = true ↔ condHolds c fr = true := by
  rw [ofBits_toBits_cond]

/-! ## What each condition tests -/

section
variable (fr : Word)

@[simp] theorem condHolds_always : condHolds .always fr = true := rfl

@[simp] theorem condHolds_zero : condHolds .zero fr = true ↔ fr.getLsbD 0 = true := Iff.rfl

@[simp] theorem condHolds_nonzero : condHolds .nonzero fr = true ↔ fr.getLsbD 0 = false := by
  rw [condHolds, zFlag, Bool.not_eq_true']

@[simp] theorem condHolds_greater :
    condHolds .greater fr = true ↔ fr.getLsbD 0 = false ∧ fr.getLsbD 1 = false := by
  rw [condHolds, zFlag, nFlag, Bool.and_eq_true, Bool.not_eq_true', Bool.not_eq_true']

@[simp] theorem condHolds_less : condHolds .less fr = true ↔ fr.getLsbD 1 = true := Iff.rfl

@[simp] theorem condHolds_gequal :
    condHolds .gequal fr = true ↔ fr.getLsbD 0 = true ∨ fr.getLsbD 1 = false := by
  rw [condHolds, zFlag, nFlag, Bool.or_eq_true, Bool.not_eq_true']

@[simp] theorem condHolds_lequal :
    condHolds .lequal fr = true ↔ fr.getLsbD 0 = true ∨ fr.getLsbD 1 = true := by
  rw [condHolds, zFlag, nFlag, Bool.or_eq_true]

@[simp] theorem condHolds_overflow : condHolds .overflow fr = true ↔ fr.getLsbD 2 = true := Iff.rfl

end

/-! ## The statement -/

/-- Settles O4, row by row: the value of each row is read as its condition, and the condition tests the
flags of that row. -/
theorem conditionsTestTheFlags : Obligations.ConditionsTestTheFlags := by
  intro fr
  have row (c : Cond) := condHolds_ofBits_toBits c fr
  exact ⟨(row .always).mpr (condHolds_always fr),
    (row .zero).trans (condHolds_zero fr),
    (row .nonzero).trans (condHolds_nonzero fr),
    (row .greater).trans (condHolds_greater fr),
    (row .less).trans (condHolds_less fr),
    (row .gequal).trans (condHolds_gequal fr),
    (row .lequal).trans (condHolds_lequal fr),
    (row .overflow).trans (condHolds_overflow fr)⟩

end Sys2Proof.Machine
end

section
/-! PROOF. The order in which an instruction takes its two inputs (40_execution_model.md R131). -/

namespace Sys2Proof.Machine

/-! ## Two inputs behind each other -/

/-- Stepping twice over a word is stepping once over two, modulo 65536. -/
theorem add_two_add_two (a : Word) : a + 2#16 + 2#16 = a + 4#16 :=
  BitVec.add_assoc a 2#16 2#16

/-- The first pop takes the top of the stack. It moves SP, so the second takes the word one below. -/
theorem takeInput_pop_pop {s : State} {x y : Word} (hx : plainWord s .read s.sp = some x)
    (hy : plainWord s .read (s.sp + 2#16) = some y) :
    takeInput .pop s = some (x, s.setSp (s.sp + 2#16)) ∧
      takeInput .pop (s.setSp (s.sp + 2#16)) = some (y, s.setSp (s.sp + 4#16)) := by
  have hsecond := takeInput_pop_of_plain (s := s.setSp (s.sp + 2#16)) hy
  rw [setSp_sp, add_two_add_two] at hsecond
  exact ⟨takeInput_pop_of_plain hx, hsecond⟩

/-- The first immediate is the word at IP. Taking it moves IP, so the second is the word behind it. -/
theorem takeInput_imm_imm {s : State} {x y : Word} (hx : plainWord s .fetch s.ip = some x)
    (hy : plainWord s .fetch (s.ip + 2#16) = some y) :
    takeInput .imm s = some (x, s.setIp (s.ip + 2#16)) ∧
      takeInput .imm (s.setIp (s.ip + 2#16)) = some (y, s.setIp (s.ip + 4#16)) := by
  have hsecond := takeInput_imm_of_plain (s := s.setIp (s.ip + 2#16)) hy
  rw [setIp_ip, add_two_add_two] at hsecond
  exact ⟨takeInput_imm_of_plain hx, hsecond⟩

/-- Taking no input answers 0 and changes nothing (R130). -/
@[simp] theorem fetchInput_zero (s : State) : fetchInput .zero s = .ok 0#16 s := rfl

section
variable {c : Cfg} {s u v : State} {x y : Word}

/-! ## The body of an instruction -/

/-- Once the inputs are taken, the body goes on as one without inputs that runs the command on them. -/
theorem runBody_of_fetchInput (h0 : fetchInput c.in0 s = .ok x u)
    (h1 : fetchInput c.in1 u = .ok y v) (cmd : Command) :
    runBody c cmd s = runBody { c with in0 := .zero, in1 := .zero } (fun _ _ => cmd x y) v := by
  simp only [runBody, h0, h1, fetchInput_zero, andThen_ok]

theorem runBody_of_takeInput (h0 : takeInput c.in0 s = some (x, u))
    (h1 : takeInput c.in1 u = some (y, v)) (cmd : Command) :
    runBody c cmd s = runBody { c with in0 := .zero, in1 := .zero } (fun _ _ => cmd x y) v :=
  runBody_of_fetchInput (fetchInput_of_take h0) (fetchInput_of_take h1) cmd

/-! ## The whole instruction -/

/-- Inputs that can be taken one after the other behind the opcode word are those of the instruction. -/
theorem executes_of_takeInput (hc : condHolds c.cond s.fr = true)
    (h0 : takeInput c.in0 (s.setIp (s.ip + 2#16)) = some (x, u))
    (h1 : takeInput c.in1 u = some (y, v)) : Executes c s x y v :=
  ⟨hc, by simp only [takeInputs, h0, h1, Option.bind_some, Option.map_some]⟩

theorem executes_of_pop_pop (h0 : c.in0 = .pop) (h1 : c.in1 = .pop)
    (hc : condHolds c.cond s.fr = true) (hx : plainWord s .read s.sp = some x)
    (hy : plainWord s .read (s.sp + 2#16) = some y) :
    Executes c s x y ((s.setIp (s.ip + 2#16)).setSp (s.sp + 4#16)) := by
  obtain ⟨hfirst, hsecond⟩ := takeInput_pop_pop (s := s.setIp (s.ip + 2#16)) hx hy
  rw [← h0] at hfirst
  rw [← h1] at hsecond
  exact executes_of_takeInput hc hfirst hsecond

theorem executes_of_imm_imm (h0 : c.in0 = .imm) (h1 : c.in1 = .imm)
    (hc : condHolds c.cond s.fr = true) (hx : plainWord s .fetch (s.ip + 2#16) = some x)
    (hy : plainWord s .fetch (s.ip + 4#16) = some y) :
    Executes c s x y (s.setIp (s.ip + 6#16)) := by
  have hy' : plainWord s .fetch (s.ip + 2#16 + 2#16) = some y := by rwa [add_two_add_two]
  have hip : s.ip + 2#16 + 4#16 = s.ip + 6#16 := BitVec.add_assoc s.ip 2#16 4#16
  obtain ⟨hfirst, hsecond⟩ := takeInput_imm_imm (s := s.setIp (s.ip + 2#16)) hx hy'
  rw [← h0] at hfirst
  rw [← h1, setIp_ip, hip] at hsecond
  exact executes_of_takeInput hc hfirst hsecond

/-- STORE16 without a push stores `input0` at `input1` in plain memory (R164). -/
theorem exec_store16_of_executes (hex : Executes c s x y u) (hout : c.out = false)
    (hw : wordWritable u y = true) :
    exec (.store16 c) s = .next (concluded c x (u.setMem (memSetWord u.mem y x))) := by
  have hcmd : cmdStore16 x y u = .ok x (u.setMem (memSetWord u.mem y x)) := by
    rw [cmdStore16, writeWord_of_writable x hw, andThen_ok]
  have hcan : canOutput c (u.setMem (memSetWord u.mem y x)) = true := by
    rw [canOutput, hout, Bool.not_false, Bool.true_or]
  exact instruction_completes hex hcmd hcan

end

/-! ## The statement -/

/-- Settles O7: what `in1` takes is taken from the state that `in0` left. Two pops and two immediates are
cases of it, for the body of any command and for STORE16. -/
theorem inputsAreTakenInOrder : Obligations.InputsAreTakenInOrder := by
  intro c s x y
  refine ⟨fun cmd u v h0 h1 => runBody_of_fetchInput h0 h1 cmd,
    fun h0 h1 hx hy => ⟨?_, fun hc hout hw => ?_⟩, fun h0 h1 hx hy => ?_,
    fun h0 h1 hx hy hc hout hw => ?_⟩
  · obtain ⟨hfirst, hsecond⟩ := takeInput_pop_pop hx hy
    exact runBody_of_takeInput (by rwa [h0]) (by rwa [h1])
  · exact (exec_store16_of_executes (executes_of_pop_pop h0 h1 hc hx hy) hout hw :)
  · obtain ⟨hfirst, hsecond⟩ := takeInput_imm_imm hx hy
    exact runBody_of_takeInput (by rwa [h0]) (by rwa [h1])
  · exact (exec_store16_of_executes (executes_of_imm_imm h0 h1 hc hx hy) hout hw :)

end Sys2Proof.Machine
end

section
/-! PROOF. The decoder and the encoder undo each other (30_encoding.md R90 to R99, R104). -/

namespace Sys2Proof.Machine

/-! ## The fields of the opcode word -/

@[simp] theorem ofBits_toBits_input (k : Input) : Input.ofBits k.toBits = k := by
  cases k <;> rfl

@[simp] theorem toBits_ofBits_cond (b : BitVec 3) : (Cond.ofBits b).toBits = b := by
  revert b; decide

@[simp] theorem toBits_ofBits_input (b : BitVec 2) : (Input.ofBits b).toBits = b := by
  revert b; decide

/-- An instruction is its command value and its configuration. -/
@[simp] theorem ofCmd_cmd_cfg (i : Instr) : Instr.ofCmd i.cmd i.cfg = i := by
  cases i <;> rfl

theorem cmd_cfg_ofCmd (b : BitVec 6) (c : Cfg) :
    (Instr.ofCmd b c).cmd = b ∧ (Instr.ofCmd b c).cfg = c := by
  obtain ⟨⟨n, hn⟩⟩ := b
  interval_cases n <;> exact ⟨rfl, rfl⟩

/-! ## The opcode word -/

/-- A field of the opcode word below bit 9 is a field of the configuration bits. -/
theorem extract_encodeWord_low {i : Instr} {start len : Nat} (h : start + len ≤ 9) :
    (encodeWord i).extractLsb' start len = i.cfg.toBits.extractLsb' start len :=
  BitVec.extractLsb'_append_eq_of_add_le (xhi := 0#1 ++ i.cmd) h

theorem getLsbD_encodeWord (i : Instr) (j : Nat) :
    (encodeWord i).getLsbD j =
      if j < 9 then i.cfg.toBits.getLsbD j
      else if j - 9 < 6 then i.cmd.getLsbD (j - 9) else false := by
  simp only [encodeWord, BitVec.getLsbD_append, BitVec.getLsbD_zero]

theorem extract_cmd_encodeWord (i : Instr) : (encodeWord i).extractLsb' 9 6 = i.cmd := by
  apply BitVec.eq_of_getLsbD_eq
  intro j hj
  simp [getLsbD_encodeWord, hj]

section
variable (c : Cfg)

theorem extract_cond_toBits : c.toBits.extractLsb' 0 3 = c.cond.toBits :=
  BitVec.extractLsb'_append_eq_right

theorem extract_in0_toBits : c.toBits.extractLsb' 3 2 = c.in0.toBits :=
  (BitVec.extractLsb'_append_eq_of_le (Nat.le_refl 3)).trans BitVec.extractLsb'_append_eq_right

theorem extract_in1_toBits : c.toBits.extractLsb' 5 2 = c.in1.toBits :=
  (BitVec.extractLsb'_append_eq_of_le (by decide)).trans
    ((BitVec.extractLsb'_append_eq_of_le (Nat.le_refl 2)).trans BitVec.extractLsb'_append_eq_right)

theorem getLsbD_toBits_flg : c.toBits.getLsbD 7 = c.flg := by
  simp only [Cfg.toBits, BitVec.getLsbD_append]
  simp

theorem getLsbD_toBits_out : c.toBits.getLsbD 8 = c.out := by
  simp only [Cfg.toBits, BitVec.getLsbD_append]
  simp

end

/-- The configuration read back from its bits (R91). -/
theorem ofWord_encodeWord (i : Instr) : Cfg.ofWord (encodeWord i) = i.cfg := by
  rw [Cfg.ofWord, getLsbD_encodeWord, getLsbD_encodeWord, extract_encodeWord_low (by decide),
    extract_encodeWord_low (by decide), extract_encodeWord_low (by decide), extract_cond_toBits,
    extract_in0_toBits, extract_in1_toBits, ofBits_toBits_cond, ofBits_toBits_input,
    ofBits_toBits_input, if_pos (by decide), if_pos (by decide), getLsbD_toBits_flg,
    getLsbD_toBits_out]

/-- Decoding an opcode word that was encoded (R91). -/
@[simp] theorem decodeWord_encodeWord (i : Instr) : decodeWord (encodeWord i) = .ok i := by
  rw [decodeWord, getLsbD_encodeWord, extract_cmd_encodeWord, ofWord_encodeWord,
    ofCmd_cmd_cfg]
  rfl

/-- The configuration bits of a word are its bits [8:0]. -/
theorem toBits_ofWord (w : Word) : (Cfg.ofWord w).toBits = w.extractLsb' 0 9 := by
  apply BitVec.eq_of_getLsbD_eq
  intro j hj
  simp only [Cfg.toBits, Cfg.ofWord, toBits_ofBits_cond, toBits_ofBits_input, BitVec.getLsbD_append]
  interval_cases j <;> simp

/-- Encoding what a word with bit 15 clear decodes to (R104). -/
theorem encodeWord_ofCmd_ofWord {w : Word} (h : w.getLsbD 15 = false) :
    encodeWord (Instr.ofCmd (w.extractLsb' 9 6) (Cfg.ofWord w)) = w := by
  obtain ⟨hcmd, hcfg⟩ := cmd_cfg_ofCmd (w.extractLsb' 9 6) (Cfg.ofWord w)
  apply BitVec.eq_of_getLsbD_eq
  intro j hj
  rw [getLsbD_encodeWord, hcmd, hcfg, toBits_ofWord]
  by_cases hlow : j < 9
  · simp [hlow]
  by_cases hmid : j - 9 < 6
  · have hj9 : 9 + (j - 9) = j := by omega
    simp [hlow, hmid, hj9]
  · have h15 : j = 15 := by omega
    rw [if_neg hlow, if_neg hmid, h15, h]

/-! ## Bytes -/

/-- As many words as were laid out are taken back, and the bytes behind them are left. -/
theorem takeWords_wordsBytes (ws : List Word) (rest : List Byte) :
    takeWords ws.length (wordsBytes ws ++ rest) = some (ws, rest) := by
  induction ws with
  | nil => rfl
  | cons w ws ih => simp [wordsBytes, takeWords, ih]

/-- Decoding reads the opcode word's two bytes, then the immediates that it announces. -/
theorem decode_wordsBytes {w : Word} {i : Instr} (hw : decodeWord w = .ok i) {imms : List Word}
    (himms : imms.length = i.cfg.immWords) (rest : List Byte) :
    decode (wordsBytes (w :: imms) ++ rest) = .ok (i, imms, rest) := by
  have htake := takeWords_wordsBytes imms rest
  rw [himms] at htake
  simp [wordsBytes, decode, hw, htake]

/-! ## The statements -/

/-- Settles O2: the opcode word decodes to the instruction, which announces as many immediates as were
laid out behind it. -/
theorem decodingUndoesEncoding : Obligations.DecodingUndoesEncoding :=
  fun i _ rest himms => decode_wordsBytes (decodeWord_encodeWord i) himms rest

/-- Settles O3: bit 15 decides, and below it the fields of the word are those of the instruction. -/
theorem encodingUndoesDecoding : Obligations.EncodingUndoesDecoding := by
  intro w
  refine ⟨fun h => ?_, fun h => ⟨Instr.ofCmd (w.extractLsb' 9 6) (Cfg.ofWord w), ?_, ?_⟩⟩
  · rw [decodeWord, h]; rfl
  · rw [decodeWord, h]; rfl
  · exact encodeWord_ofCmd_ofWord h

/-- Settles O1: each word is evaluated. -/
theorem sampleWordsDecode : Obligations.SampleWordsDecode :=
  ⟨rfl, rfl, rfl, rfl, rfl, rfl, rfl⟩

end Sys2Proof.Machine
end

section
/-! PROOF. What an instruction that answers a next state has done (40_execution_model.md R121), as one
inversion: the effects a command can have, the state they leave, and where BUS can be signalled (R260). -/

namespace Sys2Proof.Machine

/-! ## States that differ in what a device was asked and told -/

section
variable {s t : State} (h : SameButDevice s t)
include h

theorem SameButDevice.sp_eq : t.sp = s.sp := (congrArg State.sp h :)
theorem SameButDevice.bp_eq : t.bp = s.bp := (congrArg State.bp h :)
theorem SameButDevice.ip_eq : t.ip = s.ip := (congrArg State.ip h :)
theorem SameButDevice.fr_eq : t.fr = s.fr := (congrArg State.fr h :)
theorem SameButDevice.ir_eq : t.ir = s.ir := (congrArg State.ir h :)
theorem SameButDevice.halted_eq : t.halted = s.halted := (congrArg State.halted h :)
theorem SameButDevice.mem_eq : t.mem = s.mem := (congrArg State.mem h :)
theorem SameButDevice.platform_eq : t.platform = s.platform := (congrArg State.platform h :)

end

/-! ## Behind the instruction -/

/-- Stepping over the opcode word and then over the immediates is stepping over the instruction. -/
theorem add_two_add_immWords (i : Instr) (a : Word) :
    a + 2#16 + BitVec.ofNat 16 (2 * i.cfg.immWords) = a + BitVec.ofNat 16 i.length := by
  rw [BitVec.add_assoc, Instr.length, BitVec.ofNat_add]

/-- Taking the inputs moves IP behind the instruction. -/
theorem ipAfter_ipAfter (i : Instr) (a : Word) :
    ipAfter i.cfg.in1 (ipAfter i.cfg.in0 (a + 2#16)) = a + BitVec.ofNat 16 i.length := by
  rw [← add_two_add_immWords, Cfg.immWords]
  cases i.cfg.in0 <;> cases i.cfg.in1 <;>
    simp [ipAfter, Input.immWords, BitVec.add_assoc]

/-! ## Where BUS can be signalled -/

theorem busSignalled_markII {s : State} {a : Word} {w : Width} {k : AccessKind}
    (h : busSignalled s a w k = true) : s.platform.variant = .markII := by
  rw [busSignalled, Bool.and_eq_true, beq_iff_eq] at h
  exact h.1

/-- A BUS answer comes on the `MarkII` only (R260, R264). -/
def BusOnMarkII {α : Type} (s : State) (r : Res α) : Prop :=
  ∀ t, r = .bus t → s.platform.variant = .markII

theorem busOnMarkII_ok {α : Type} {s t : State} {a : α} : BusOnMarkII s (.ok a t) := nofun

theorem busOnMarkII_andThen {α β : Type} {s : State} {r : Res α} {k : α → State → Res β}
    (hr : BusOnMarkII s r) (hg : GrowsTo s r) (hk : ∀ a t, BusOnMarkII t (k a t)) :
    BusOnMarkII s (r.andThen k) := by
  intro t h
  rcases andThen_eq_bus.1 h with h | ⟨a, u, hu, h⟩
  · exact hr t h
  · obtain ⟨hp, -⟩ := hg.1 a u hu
    rw [← hp]
    exact hk a u t h

theorem readWord_busOnMarkII (k : AccessKind) (a : Word) (s : State) :
    BusOnMarkII s (readWord k a s) := fun _ h => busSignalled_markII (readWord_bus h).2

theorem readByte_busOnMarkII (a : Word) (s : State) : BusOnMarkII s (readByte a s) :=
  fun _ h => busSignalled_markII (readByte_bus h).2

theorem writeWord_busOnMarkII (a v : Word) (s : State) : BusOnMarkII s (writeWord a v s) :=
  fun _ h => busSignalled_markII (writeWord_bus h).2

theorem writeByte_busOnMarkII (a : Word) (b : Byte) (s : State) : BusOnMarkII s (writeByte a b s) :=
  fun _ h => busSignalled_markII (writeByte_bus h).2

theorem fetchInput_busOnMarkII (k : Input) (s : State) : BusOnMarkII s (fetchInput k s) := by
  cases k with
  | zero => exact busOnMarkII_ok
  | imm =>
    exact busOnMarkII_andThen (readWord_busOnMarkII _ _ s) (readWord_grows _ _ s)
      fun _ _ => busOnMarkII_ok
  | peek => exact readWord_busOnMarkII _ _ s
  | pop =>
    exact busOnMarkII_andThen (readWord_busOnMarkII _ _ s) (readWord_grows _ _ s)
      fun _ _ => busOnMarkII_ok

theorem handleOutput_busOnMarkII (out : Bool) (o : Word) (s : State) :
    BusOnMarkII s (handleOutput out o s) := by
  cases out with
  | false => exact busOnMarkII_ok
  | true => exact writeWord_busOnMarkII _ o (s.setSp (s.sp - 2#16))

theorem divideWith_busOnMarkII (f : Int → Int → Int → Int) (a b : Word) (s : State) :
    BusOnMarkII s (divideWith f a b s) := by
  unfold divideWith divideByZero draw
  repeat' split
  all_goals nofun

theorem transfer_ne_bus {x b : Word} {s t : State} : transfer x b s ≠ .bus t := by
  intro h
  rcases andThen_eq_bus.1 h with h | ⟨_, _, -, h⟩
  · exact writeIp_ne_bus h
  · exact writeFr_ne_bus h

/-- A command that writes a register meets no BUS. -/
theorem busOnMarkII_of_write {s : State} {r : Res Unit} {o : Word} (hr : ∀ t, r ≠ .bus t) :
    BusOnMarkII s (r.andThen fun _ t => (.ok o t : Res Word)) := by
  intro t h
  rcases andThen_eq_bus.1 h with h | ⟨_, _, -, h⟩
  · exact absurd h (hr t)
  · cases h

theorem commandOf_busOnMarkII (i : Instr) (a b : Word) (s : State) :
    BusOnMarkII s (commandOf i a b s) := by
  cases i with
  | get c => exact readWord_busOnMarkII _ _ s
  | load16 c => exact readWord_busOnMarkII _ _ s
  | load8 c =>
    exact busOnMarkII_andThen (readByte_busOnMarkII _ s) (readByte_grows _ s)
      fun _ _ => busOnMarkII_ok
  | set c =>
    exact busOnMarkII_andThen (writeWord_busOnMarkII _ _ s) (writeWord_grows _ _ s)
      fun _ _ => busOnMarkII_ok
  | store8 c =>
    exact busOnMarkII_andThen (writeByte_busOnMarkII _ _ s) (writeByte_grows _ _ s)
      fun _ _ => busOnMarkII_ok
  | store16 c =>
    exact busOnMarkII_andThen (writeWord_busOnMarkII _ _ s) (writeWord_grows _ _ s)
      fun _ _ => busOnMarkII_ok
  | cpuid c =>
    show BusOnMarkII s (cmdCpuid a b s)
    unfold cmdCpuid
    split <;> nofun
  | intr c =>
    show BusOnMarkII s (cmdIntr a b s)
    unfold cmdIntr
    split
    · nofun
    · split <;> nofun
  | frset c => exact busOnMarkII_of_write fun _ => writeFr_ne_bus
  | bpset c => exact busOnMarkII_of_write fun _ => writeBp_ne_bus
  | spset c => exact busOnMarkII_of_write fun _ => writeSp_ne_bus
  | setip c => exact busOnMarkII_of_write fun _ => transfer_ne_bus
  | addip c => exact busOnMarkII_of_write fun _ => transfer_ne_bus
  | div c => exact divideWith_busOnMarkII (fun _ _ q => q) a b s
  | mod c => exact divideWith_busOnMarkII (fun x y q => x - y * q) a b s
  | _ => nofun

theorem runOrSkip_busOnMarkII (i : Instr) (s : State) :
    BusOnMarkII s (runOrSkip i.cfg (commandOf i) s) := by
  unfold runOrSkip
  split
  · exact busOnMarkII_andThen (fetchInput_busOnMarkII _ s) (fetchInput_grows _ s) fun a s0 =>
      busOnMarkII_andThen (fetchInput_busOnMarkII _ s0) (fetchInput_grows _ s0) fun b s1 =>
      busOnMarkII_andThen (commandOf_busOnMarkII i a b s1) (commandOf_grows i a b s1) fun o s2 =>
      busOnMarkII_andThen (handleOutput_busOnMarkII _ o s2) (handleOutput_grows _ o s2) fun _ _ =>
      busOnMarkII_ok
  · exact busOnMarkII_ok

theorem fetchOpcode_bus {s t : State} (h : fetchOpcode s = .bus t) :
    s.platform.variant = .markII := by
  rcases andThen_eq_bus.1 h with h | ⟨w, u, -, h⟩
  · exact readWord_busOnMarkII _ _ s t h
  · split at h <;> cases h

/-! ## The effects of the commands -/

/-- What the command of an instruction can change, one constructor for each kind of effect. -/
inductive Effect : Instr → State → State → Prop
  /-- It changes nothing: it computes an output, or reads, and may ask a device. -/
  | output {i : Instr} {s t : State} (same : SameButDevice s t) : Effect i s t
  /-- It writes to memory or a device. -/
  | store {i : Instr} {s t : State} (isStore : i = .set i.cfg ∨ i = .store8 i.cfg ∨ i = .store16 i.cfg)
      (eq : t = (s.setMem t.mem).setDevice t.device) (wf : s.mem.wf = true → t.mem.wf = true) :
      Effect i s t
  /-- It sets the halt bit. -/
  | halt {c : Cfg} {s : State} : Effect (.halt c) s ((s.setHalted true).setDraws (s.draws + 1))
  /-- It writes C. -/
  | carry {i : Instr} {s : State} (isArith : i = .add i.cfg ∨ i = .sub i.cfg ∨ i = .mul i.cfg)
      (b : Bool) : Effect i s (s.setFr (setC s.fr b))
  /-- It triggers ARITH. -/
  | arith {i : Instr} {s : State} (isDiv : i = .div i.cfg ∨ i = .mod i.cfg)
      (markII : s.platform.variant = .markII) : Effect i s ((trigger 4 s).setDraws (s.draws + 1))
  /-- It writes FR as data. -/
  | frset {c : Cfg} {s : State} {v : Word} (clean : v &&& frReserved s.platform.variant = 0#16) :
      Effect (.frset c) s (s.setFr v)
  /-- It writes BP. -/
  | bpset {c : Cfg} {s : State} {v : Word} (even : isOdd v = false) : Effect (.bpset c) s (s.setBp v)
  /-- It writes SP. -/
  | spset {c : Cfg} {s : State} {v : Word} (even : isOdd v = false) : Effect (.spset c) s (s.setSp v)
  /-- It transfers control. -/
  | jump {i : Instr} {s : State} {x b : Word} (isJump : i = .setip i.cfg ∨ i = .addip i.cfg)
      (even : isOdd x = false) (clean : (s.fr ||| b) &&& frReserved s.platform.variant = 0#16) :
      Effect i s ((s.setIp x).setFr (s.fr ||| b))
  /-- It requests interrupts. -/
  | intr {c : Cfg} {s : State} {v : Word} (markII : s.platform.variant = .markII)
      (clean : v &&& irReserved = 0#16) : Effect (.intr c) s (s.setIr (s.ir ||| v))

theorem effect_of_divideWith {i : Instr} (hi : i = .div i.cfg ∨ i = .mod i.cfg)
    {f : Int → Int → Int → Int} {a b o : Word} {s t : State} (h : divideWith f a b s = .ok o t) :
    Effect i s t := by
  rcases divideWith_ok h with rfl | rfl | ⟨-, hv, rfl⟩
  · exact .output (sameButDevice_refl _)
  · exact .output rfl
  · exact .arith hi hv

/-- Everything a command that completes can do. -/
theorem commandOf_ok {i : Instr} {a b o : Word} {s t : State} (h : commandOf i a b s = .ok o t) :
    Effect i s t := by
  cases i with
  | get c => exact .output (cmdGet_ok (b := b) h)
  | load16 c => exact .output (cmdLoad16_ok (b := b) h)
  | load8 c => exact .output (cmdLoad8_ok (b := b) h)
  | set c =>
    obtain ⟨-, heq, -, hwf⟩ := cmdSet_ok h
    exact .store (.inl rfl) heq hwf
  | store8 c =>
    obtain ⟨-, heq, -, hwf⟩ := cmdStore8_ok h
    exact .store (.inr (.inl rfl)) heq hwf
  | store16 c =>
    obtain ⟨-, heq, -, hwf⟩ := cmdStore16_ok h
    exact .store (.inr (.inr rfl)) heq hwf
  | cpuid c =>
    obtain ⟨-, -, -, rfl⟩ := cmdCpuid_ok h
    exact .output (sameButDevice_refl _)
  | halt c => cases h; exact .halt
  | frset c =>
    obtain ⟨hclean, -, rfl⟩ := cmdFrset_ok h
    exact .frset hclean
  | bpset c =>
    obtain ⟨heven, -, rfl⟩ := cmdBpset_ok (b := b) h
    exact .bpset heven
  | spset c =>
    obtain ⟨heven, -, rfl⟩ := cmdSpset_ok (b := b) h
    exact .spset heven
  | add c => cases h; exact .carry (.inl rfl) _
  | sub c => cases h; exact .carry (.inr (.inl rfl)) _
  | mul c => cases h; exact .carry (.inr (.inr rfl)) _
  | div c => exact effect_of_divideWith (f := fun _ _ q => q) (a := a) (b := b) (.inl rfl) h
  | mod c =>
    exact effect_of_divideWith (f := fun x y q => x - y * q) (a := a) (b := b) (.inr rfl) h
  | setip c =>
    obtain ⟨heven, hclean, -, rfl⟩ := cmdSetip_ok h
    exact .jump (.inl rfl) heven hclean
  | addip c =>
    obtain ⟨heven, hclean, -, rfl⟩ := cmdAddip_ok h
    exact .jump (.inr rfl) heven hclean
  | intr c =>
    obtain ⟨hv, hclean, -, rfl⟩ := cmdIntr_ok (b := b) h
    exact .intr hv hclean
  | copy c | frget c | bpget c | spget c | and c | or c | xor c | not c | signext c | rol c | ror c
  | bswap c | asr c | lsl c | lsr c => cases h; exact .output (sameButDevice_refl _)
  | _ => cases h

/-! ## The course of an executed instruction -/

/-- Instruction `i`, begun in `s`, took the inputs `a` and `b`, which left `s1`; its command left `s2` and
the output `o`, which was dropped or pushed, and the flag step left `t` (R121). -/
structure Ran (i : Instr) (s : State) (a b o : Word) (s0 s1 s2 t : State) : Prop where
  cond : condHolds i.cfg.cond s.fr = true
  input0 : fetchInput i.cfg.in0 (s.setIp (s.ip + 2#16)) = .ok a s0
  input1 : fetchInput i.cfg.in1 s0 = .ok b s1
  command : commandOf i a b s1 = .ok o s2
  after : t = { s2 with
    sp := if i.cfg.out then s2.sp - 2#16 else s2.sp
    fr := modifyFlags i.cfg.flg o s2.fr
    mem := t.mem
    device := t.device }
  frame : ∀ x, ¬ (i.cfg.out = true ∧ inWord (s2.sp - 2#16) x) → memByte t.mem x = memByte s2.mem x
  wf : s2.mem.wf = true → t.mem.wf = true

section
variable {i : Instr} {s s0 s1 s2 t : State} {a b o : Word} (h : Ran i s a b o s0 s1 s2 t)
include h

theorem Ran.inputs : SameButDevice (afterInputs i.cfg s) s1 := inputs_ok h.input0 h.input1

theorem Ran.effect : Effect i s1 s2 := commandOf_ok h.command

theorem Ran.sp_eq : t.sp = if i.cfg.out then s2.sp - 2#16 else s2.sp := (congrArg State.sp h.after :)
theorem Ran.bp_eq : t.bp = s2.bp := (congrArg State.bp h.after :)
theorem Ran.ip_eq : t.ip = s2.ip := (congrArg State.ip h.after :)
theorem Ran.fr_eq : t.fr = modifyFlags i.cfg.flg o s2.fr := (congrArg State.fr h.after :)
theorem Ran.ir_eq : t.ir = s2.ir := (congrArg State.ir h.after :)
theorem Ran.halted_eq : t.halted = s2.halted := (congrArg State.halted h.after :)
theorem Ran.platform_eq : t.platform = s2.platform := (congrArg State.platform h.after :)

/-- At the command IP is behind the instruction. -/
theorem Ran.inputs_ip : s1.ip = s.ip + BitVec.ofNat 16 i.length :=
  h.inputs.ip_eq.trans (ipAfter_ipAfter i s.ip)

end

/-- A skipped instruction has moved IP behind itself (R127). -/
theorem skipImmediates_eq (i : Instr) (s : State) :
    skipImmediates i.cfg (s.setIp (s.ip + 2#16)) = s.setIp (s.ip + BitVec.ofNat 16 i.length) := by
  rw [← add_two_add_immWords]
  rfl

/-- Everything an instruction that completes can have done: it was skipped, or it ran. -/
theorem runOrSkip_ok {i : Instr} {s t : State}
    (h : runOrSkip i.cfg (commandOf i) (s.setIp (s.ip + 2#16)) = .ok () t) :
    (condHolds i.cfg.cond s.fr = false ∧ t = s.setIp (s.ip + BitVec.ofNat 16 i.length)) ∨
    ∃ a b o s0 s1 s2, Ran i s a b o s0 s1 s2 t := by
  unfold runOrSkip at h
  split at h
  · rename_i hc
    obtain ⟨a, s0, h0, h⟩ := andThen_eq_ok.1 h
    obtain ⟨b, s1, h1, h⟩ := andThen_eq_ok.1 h
    obtain ⟨o, s2, h2, h⟩ := andThen_eq_ok.1 h
    obtain ⟨_, s3, h3, h⟩ := andThen_eq_ok.1 h
    cases h
    obtain ⟨heq, hframe, hwf⟩ := handleOutput_ok h3
    have hfr : s3.fr = s2.fr := (congrArg State.fr heq :)
    refine .inr ⟨a, b, o, s0, s1, s2, hc, h0, h1, h2, ?_, hframe, hwf⟩
    rw [hfr, heq]
    rfl
  · rename_i hc
    cases h
    exact .inl ⟨Bool.eq_false_iff.2 hc, skipImmediates_eq i s⟩

/-- Everything an instruction that answers a next state can have done: it was skipped, cancelled by BUS,
or it ran. -/
theorem exec_next {i : Instr} {s t : State} (h : exec i s = .next t) :
    (condHolds i.cfg.cond s.fr = false ∧ t = s.setIp (s.ip + BitVec.ofNat 16 i.length)) ∨
    (s.platform.variant = .markII ∧ ∃ u, t = cancel s u) ∨
    ∃ a b o s0 s1 s2, Ran i s a b o s0 s1 s2 t := by
  rw [exec_eq, instruction] at h
  cases hr : runOrSkip i.cfg (commandOf i) (s.setIp (s.ip + 2#16)) with
  | stop f => rw [hr] at h; cases h
  | bus u =>
    rw [hr] at h; cases h
    exact .inr (.inl ⟨runOrSkip_busOnMarkII i (s.setIp (s.ip + 2#16)) u hr, u, rfl⟩)
  | ok _ u =>
    rw [hr] at h; cases h
    rcases runOrSkip_ok hr with hskip | hran
    · exact .inl hskip
    · exact .inr (.inr hran)

end Sys2Proof.Machine
end

section
/-! PROOF. The invariant of the machine and what a step keeps (10_state.md R22 to R24, R28, R32;
00_scope.md R8). -/

namespace Sys2Proof.Machine

/-! ## The invariant as a structure -/

/-- `State.inv`, field by field. -/
structure Inv (s : State) : Prop where
  mem : s.mem.wf = true
  ip : isOdd s.ip = false
  sp : isOdd s.sp = false
  bp : isOdd s.bp = false
  fr : s.fr &&& frReserved s.platform.variant = 0#16
  ir : s.ir &&& irReserved = 0#16
  noIr : s.platform.variant = .markIIL → s.ir = 0#16

theorem inv_iff {s : State} : s.inv = true ↔ Inv s := by
  have hvariant : (s.platform.variant == .markII || s.ir == 0#16) = true ↔
      (s.platform.variant = .markIIL → s.ir = 0#16) := by
    cases s.platform.variant <;> simp
  unfold State.inv
  simp only [Bool.and_eq_true, Bool.not_eq_true', beq_iff_eq, hvariant]
  exact ⟨fun ⟨⟨⟨⟨⟨⟨h1, h2⟩, h3⟩, h4⟩, h5⟩, h6⟩, h7⟩ => ⟨h1, h2, h3, h4, h5, h6, h7⟩,
    fun ⟨h1, h2, h3, h4, h5, h6, h7⟩ => ⟨⟨⟨⟨⟨⟨h1, h2⟩, h3⟩, h4⟩, h5⟩, h6⟩, h7⟩⟩

theorem Inv.markII_of_ir_ne {s : State} (h : Inv s) (hir : s.ir ≠ 0#16) :
    s.platform.variant = .markII := by
  cases hv : s.platform.variant with
  | markII => rfl
  | markIIL => exact absurd (h.noIr hv) hir

/-! ## Parities and masks -/

theorem isOdd_zero : isOdd 0#16 = false := by decide

theorem isOdd_add_ofNat_two_mul (a : Word) (n : Nat) :
    isOdd (a + BitVec.ofNat 16 (2 * n)) = isOdd a := by
  rw [isOdd_eq_decide_toNat, isOdd_eq_decide_toNat, BitVec.toNat_add, BitVec.toNat_ofNat,
    decide_eq_decide]
  omega

/-- The length of an instruction is even. -/
theorem isOdd_add_length (a : Word) (i : Instr) :
    isOdd (a + BitVec.ofNat 16 i.length) = isOdd a := by
  have hlen : i.length = 2 * (1 + i.cfg.immWords) := by rw [Instr.length]; omega
  rw [hlen, isOdd_add_ofNat_two_mul]

theorem isOdd_sub_four (a : Word) : isOdd (a - 4#16) = isOdd a := by
  have hsub : a - 4#16 = a - 2#16 - 2#16 := by bv_omega
  rw [hsub, isOdd_sub_two, isOdd_sub_two]

@[simp] theorem isOdd_spAfter (k : Input) (a : Word) : isOdd (spAfter k a) = isOdd a := by
  cases k with
  | pop => exact isOdd_add_two a
  | _ => rfl

theorem or_and_eq_zero {v w m : Word} (hv : v &&& m = 0#16) (hw : w &&& m = 0#16) :
    (v ||| w) &&& m = 0#16 := by
  rw [and_eq_zero_iff] at hv hw ⊢
  intro i hi
  rw [BitVec.getLsbD_or, hv i hi, hw i hi, Bool.or_false]

/-- Setting or clearing a bit outside a mask keeps the masked bits zero. -/
theorem setBit_and_eq_zero {w m : Word} {n : Nat} {b : Bool} (hn : n < 16)
    (hb : b = true → m.getLsbD n = false) (hw : w &&& m = 0#16) : setBit w n b &&& m = 0#16 := by
  rw [and_eq_zero_iff] at hw ⊢
  intro i hi
  rw [getLsbD_setBit b hn]
  split
  · rename_i hin
    subst hin
    cases b with
    | false => rfl
    | true => rw [hb rfl] at hi; cases hi
  · exact hw i hi

theorem modifyFlags_and_frReserved {flg : Bool} {o fr : Word} {v : Variant}
    (h : fr &&& frReserved v = 0#16) : modifyFlags flg o fr &&& frReserved v = 0#16 :=
  frReserved_congr (fun i hi hbit => by rwa [getLsbD_modifyFlags (by omega)] at hbit) h

/-! ## What keeps the invariant -/

/-- Only the seven fields it speaks of matter. -/
theorem Inv.congr {s t : State} (h : Inv s) (hmem : t.mem = s.mem) (hip : t.ip = s.ip)
    (hsp : t.sp = s.sp) (hbp : t.bp = s.bp) (hfr : t.fr = s.fr) (hir : t.ir = s.ir)
    (hp : t.platform = s.platform) : Inv t := by
  constructor
  · rw [hmem]; exact h.mem
  · rw [hip]; exact h.ip
  · rw [hsp]; exact h.sp
  · rw [hbp]; exact h.bp
  · rw [hfr, hp]; exact h.fr
  · rw [hir]; exact h.ir
  · rw [hir, hp]; exact h.noIr

theorem Inv.sameButDevice {s t : State} (h : Inv s) (hst : SameButDevice s t) : Inv t :=
  h.congr hst.mem_eq hst.ip_eq hst.sp_eq hst.bp_eq hst.fr_eq hst.ir_eq hst.platform_eq

theorem Inv.setIp {s : State} {v : Word} (h : Inv s) (hv : isOdd v = false) : Inv (s.setIp v) :=
  ⟨h.mem, hv, h.sp, h.bp, h.fr, h.ir, h.noIr⟩

theorem Inv.setSp {s : State} {v : Word} (h : Inv s) (hv : isOdd v = false) : Inv (s.setSp v) :=
  ⟨h.mem, h.ip, hv, h.bp, h.fr, h.ir, h.noIr⟩

theorem Inv.setBp {s : State} {v : Word} (h : Inv s) (hv : isOdd v = false) : Inv (s.setBp v) :=
  ⟨h.mem, h.ip, h.sp, hv, h.fr, h.ir, h.noIr⟩

theorem Inv.setFr {s : State} {v : Word} (h : Inv s)
    (hv : v &&& frReserved s.platform.variant = 0#16) : Inv (s.setFr v) :=
  ⟨h.mem, h.ip, h.sp, h.bp, hv, h.ir, h.noIr⟩

/-- On the `MarkII` IR may change, but for its reserved bits. -/
theorem Inv.setIr {s : State} {v : Word} (h : Inv s) (hv : v &&& irReserved = 0#16)
    (hp : s.platform.variant = .markII) : Inv (s.setIr v) :=
  ⟨h.mem, h.ip, h.sp, h.bp, h.fr, hv, fun hl => by rw [setIr_platform, hp] at hl; cases hl⟩

/-- The interrupts with a source have no reserved bit of IR. -/
theorem Inv.trigger {s : State} {n : Nat} (h : Inv s) (hn : n < 16)
    (hbit : irReserved.getLsbD n = false) (hp : s.platform.variant = .markII) :
    Inv (trigger n s) := by
  unfold Machine.trigger
  split
  · exact h.setIr (setBit_and_eq_zero hn (fun _ => hbit) h.ir) hp
  · exact h

/-! ## The instruction -/

theorem Inv.cancel {s u : State} (h : Inv s) (hp : s.platform.variant = .markII) :
    Inv (cancel s u) :=
  (h.setIr (setBit_and_eq_zero (n := 2) (b := true) (by decide) (fun _ => rfl) h.ir) hp).congr
    rfl rfl rfl rfl rfl rfl rfl

theorem Inv.afterInputs {i : Instr} {s : State} (h : Inv s) : Inv (afterInputs i.cfg s) := by
  have hip : isOdd (ipAfter i.cfg.in1 (ipAfter i.cfg.in0 (s.ip + 2#16))) = false := by
    rw [ipAfter_ipAfter, isOdd_add_length, h.ip]
  have hsp : isOdd (spAfter i.cfg.in1 (spAfter i.cfg.in0 s.sp)) = false := by
    rw [isOdd_spAfter, isOdd_spAfter, h.sp]
  exact (h.setIp hip).setSp hsp

theorem Inv.effect {i : Instr} {s t : State} (h : Inv s) (he : Effect i s t) : Inv t := by
  cases he with
  | output same => exact h.sameButDevice same
  | store _ heq hwf =>
    rw [heq]
    exact ⟨hwf h.mem, h.ip, h.sp, h.bp, h.fr, h.ir, h.noIr⟩
  | halt => exact h.congr rfl rfl rfl rfl rfl rfl rfl
  | carry _ b =>
    exact h.setFr (setBit_and_eq_zero (by decide) (fun _ => frReserved_low (by decide)) h.fr)
  | arith _ hv => exact (h.trigger (by decide) rfl hv).congr rfl rfl rfl rfl rfl rfl rfl
  | frset hclean => exact h.setFr hclean
  | bpset heven => exact h.setBp heven
  | spset heven => exact h.setSp heven
  | jump _ heven hclean => exact (h.setIp heven).setFr hclean
  | intr hv hclean => exact h.setIr (or_and_eq_zero h.ir hclean) hv

theorem Ran.inv {i : Instr} {s s0 s1 s2 t : State} {a b o : Word}
    (hr : Ran i s a b o s0 s1 s2 t) (h : Inv s) : Inv t := by
  have h2 : Inv s2 := (h.afterInputs.sameButDevice hr.inputs).effect hr.effect
  refine ⟨hr.wf h2.mem, ?_, ?_, ?_, ?_, ?_, ?_⟩
  · rw [hr.ip_eq, h2.ip]
  · rw [hr.sp_eq]
    split
    · rw [isOdd_sub_two, h2.sp]
    · exact h2.sp
  · rw [hr.bp_eq, h2.bp]
  · rw [hr.fr_eq, hr.platform_eq]
    exact modifyFlags_and_frReserved h2.fr
  · rw [hr.ir_eq, h2.ir]
  · rw [hr.ir_eq, hr.platform_eq]
    exact h2.noIr

theorem Inv.exec {i : Instr} {s t : State} (h : Inv s) (ht : exec i s = .next t) : Inv t := by
  rcases exec_next ht with ⟨-, rfl⟩ | ⟨hv, u, rfl⟩ | ⟨a, b, o, s0, s1, s2, hr⟩
  · exact h.setIp (by rw [isOdd_add_length, h.ip])
  · exact h.cancel hv
  · exact hr.inv h

/-! ## The boundary phase -/

theorem Inv.samplePins {s : State} {p : Pins} (h : Inv s) (hv : s.platform.variant = .markII) :
    Inv (samplePins p s) := by
  have keep {n : Nat} (hn : n < 16) (hbit : irReserved.getLsbD n = false) (b : Bool) (u : State)
      (hu : Inv u ∧ u.platform.variant = .markII) :
      Inv (if b then Machine.trigger n u else u) ∧
        (if b then Machine.trigger n u else u).platform.variant = .markII := by
    cases b with
    | false => exact hu
    | true => exact ⟨hu.1.trigger hn hbit hu.2, by
        rw [if_pos rfl, (trigger_grows n u).1]; exact hu.2⟩
  exact (keep (by decide) rfl p.irq _ (keep (by decide) rfl p.nmi _
    (keep (by decide) rfl p.rst s ⟨h, hv⟩))).1

theorem Inv.resetMarkII {s t : State} (h : Inv s) (ht : resetMarkII s = .ok () t) : Inv t := by
  obtain ⟨heven, heq⟩ := resetMarkII_ok ht
  rw [heq]
  exact ⟨h.mem, heven, isOdd_zero, isOdd_zero, BitVec.zero_and, BitVec.zero_and, fun _ => rfl⟩

theorem Inv.resetMarkIIL {s : State} (h : Inv s) : Inv (resetMarkIIL s) :=
  ⟨h.mem, isOdd_zero, isOdd_zero, isOdd_zero, BitVec.zero_and, h.ir, h.noIr⟩

theorem Inv.enterInterrupt {n : Nat} {s t : State} (hn : n < 16) (h : Inv s)
    (ht : enterInterrupt n s = .ok () t) : Inv t := by
  obtain ⟨-, heven, heq, -, hwf⟩ := enterInterrupt_ok ht
  have hfr : (if 4 ≤ n then setBit s.fr n false else s.fr) &&& frReserved s.platform.variant =
      0#16 := by
    split
    · exact setBit_and_eq_zero hn nofun h.fr
    · exact h.fr
  rw [heq]
  exact ⟨hwf h.mem, heven, by rw [isOdd_sub_four, h.sp], h.bp, hfr, h.ir, h.noIr⟩

theorem Inv.serve {n : Nat} {s t : State} (hn : n < 16) (h : Inv s) (ht : serve n s = .ok () t) :
    Inv t := by
  have hclear (hbit : s.ir.getLsbD n = true) : Inv (s.setIr (setBit s.ir n false)) := by
    refine h.setIr (setBit_and_eq_zero hn nofun h.ir) (h.markII_of_ir_ne fun h0 => ?_)
    rw [h0, BitVec.getLsbD_zero] at hbit
    cases hbit
  rcases serve_ok ht with ⟨-, rfl⟩ | ⟨hbit, -, -, rfl⟩ | ⟨hbit, -, he⟩
  · exact h
  · exact hclear hbit
  · exact (hclear hbit).enterInterrupt hn he

theorem Inv.dispatchDown {n : Nat} {s t : State} (hn : n < 16) (h : Inv s)
    (ht : dispatchDown n s = .ok () t) : Inv t := by
  induction n generalizing s with
  | zero => cases ht; exact h
  | succ n ih =>
    obtain ⟨_, u, h1, h2⟩ := andThen_eq_ok.1 ht
    exact ih (by omega) (h.serve hn h1) h2

theorem Inv.boundary {s t : State} (h : Inv s) (ht : boundary s = .ok () t) : Inv t := by
  have htail : Inv (s.setPins s.pins.tail) := h.congr rfl rfl rfl rfl rfl rfl rfl
  cases hv : s.platform.variant with
  | markII =>
    obtain ⟨r, w, rfl, hw, hd⟩ := boundary_markII hv ht
    have hr : Inv (Machine.samplePins (pinsNow s) (s.setPins s.pins.tail)) := htail.samplePins hv
    rcases hw with ⟨-, rfl⟩ | ⟨-, hw⟩
    · exact hr.dispatchDown (by decide) hd
    · exact (hr.resetMarkII hw).dispatchDown (by decide) hd
  | markIIL =>
    rw [boundary_markIIL hv] at ht
    cases ht
    split
    · exact htail.resetMarkIIL
    · exact htail

/-! ## The statements -/

/-- Settles O58: the boundary phase keeps the invariant, and so does what follows it, an instruction of
any kind or an opcode fetch that BUS answered. -/
theorem everyStepKeepsTheInvariant : Obligations.EveryStepKeepsTheInvariant := by
  intro s t hs ht
  obtain ⟨b, hb, hcase⟩ := step_next ht
  have hinv : Inv b := (inv_iff.1 hs).boundary hb
  rw [inv_iff]
  rcases hcase with ⟨-, rfl⟩ | ⟨-, i, u, hfetch, hexec⟩ | ⟨-, u, hfetch, rfl⟩
  · exact hinv
  · exact (hinv.sameButDevice (fetchOpcode_ok hfetch)).exec hexec
  · exact hinv.cancel (fetchOpcode_bus hfetch)

/-- Settles O59: every register is 0 at power-on but for IR[0] on the `MarkII`, which is not reserved. -/
theorem invariantHoldsAtPowerOn : Obligations.InvariantHoldsAtPowerOn := by
  have hpower (p : Platform) (image : Memory) (hwf : image.wf = true) :
      (State.powerOn p image).inv = true := by
    rw [inv_iff]
    refine ⟨hwf, isOdd_zero, isOdd_zero, isOdd_zero, BitVec.zero_and, ?_, fun hv => ?_⟩
    · unfold State.powerOn
      dsimp only
      split <;> decide
    · exact if_neg (by rw [show p.variant = .markIIL from hv]; decide)
  exact ⟨hpower, hpower _ _ rfl⟩

/-- Settles O60: the boundary phase consumes one boundary's signals, and what follows it consumes none. -/
theorem stepKeepsThePlatform : Obligations.StepKeepsThePlatform := by
  intro s t ht
  obtain ⟨b, hb, hcase⟩ := step_next ht
  suffices hgrows : Grows b t from grows_trans (boundary_grows hb) hgrows
  rcases hcase with ⟨-, rfl⟩ | ⟨-, i, u, hfetch, hexec⟩ | ⟨-, u, hfetch, rfl⟩
  · exact grows_refl _
  · exact grows_trans ((fetchOpcode_grows b).1 i u hfetch) (exec_grows hexec)
  · obtain ⟨-, -, hdraws, hdevice⟩ := (fetchOpcode_grows b).2 u hfetch
    exact ⟨rfl, rfl, hdraws, hdevice⟩

end Sys2Proof.Machine
end

section
/-! PROOF. When an executed instruction completes and when it stops: data movement, system commands,
logic, control (41_data_movement.md to 45_control.md). -/

namespace Sys2Proof.Machine

/-! ## The state in which the command is evaluated -/

section
variable {i : Instr} {c : Cfg} {s t u : State} {a b o : Word}

theorem executes_bp (h : Executes c s a b t) : t.bp = s.bp := (executes_same h).bp_eq
theorem executes_fr (h : Executes c s a b t) : t.fr = s.fr := (executes_same h).fr_eq
theorem executes_ir (h : Executes c s a b t) : t.ir = s.ir := (executes_same h).ir_eq
theorem executes_mem (h : Executes c s a b t) : t.mem = s.mem := (executes_same h).mem_eq
theorem executes_platform (h : Executes c s a b t) : t.platform = s.platform :=
  (executes_same h).platform_eq

/-- IP is behind the instruction when its command is evaluated (R136). -/
theorem executes_ip (h : Executes i.cfg s a b t) : t.ip = s.ip + BitVec.ofNat 16 i.length :=
  (executes_same h).ip_eq.trans (ipAfter_ipAfter i s.ip)

theorem executes_plainWord {k : AccessKind} {x : Word} (h : Executes c s a b t) :
    plainWord t k x = plainWord s k x := plainWord_congr (executes_platform h) (executes_mem h)

theorem executes_plainByte {x : Word} (h : Executes c s a b t) : plainByte t x = plainByte s x :=
  plainByte_congr (executes_platform h) (executes_mem h)

theorem executes_wordStorable {x : Word} (h : Executes c s a b t) :
    wordStorable t x = wordStorable s x := wordStorable_congr (executes_platform h)

theorem executes_wordWritable {x : Word} (h : Executes c s a b t) :
    wordWritable t x = wordWritable s x := wordWritable_congr (executes_platform h)

theorem executes_byteWritable {x : Word} (h : Executes c s a b t) :
    byteWritable t x = byteWritable s x := byteWritable_congr (executes_platform h)

theorem executes_byteStorable {x : Word} (h : Executes c s a b t) :
    byteStorable t x = byteStorable s x := by
  unfold byteStorable storable busSignalled kindAt
  rw [executes_platform h]

/-! ## The three ways an executed instruction ends, by its command -/

theorem exec_completes (h : Executes i.cfg s a b u) (hcmd : commandOf i a b u = .ok o t)
    (hout : canOutput i.cfg t = true) : exec i s = .next (concluded i.cfg o t) := by
  rw [exec_eq]
  exact instruction_completes h hcmd hout

theorem exec_stops {f : Fault} (h : Executes i.cfg s a b t) (hcmd : commandOf i a b t = .stop f) :
    exec i s = .fault f := by
  rw [exec_eq]
  exact instruction_stops h hcmd

theorem exec_cancels (h : Executes i.cfg s a b t) (hcmd : commandOf i a b t = .bus u) :
    exec i s = .next (cancel s u) := by
  rw [exec_eq]
  exact instruction_bus h hcmd

/-! ## What a read and a write leave for the output -/

@[simp] theorem afterRead_platform (s : State) (k : AccessKind) (x v : Word) :
    (afterRead s k x v).platform = s.platform := by unfold afterRead; split <;> rfl

@[simp] theorem afterReadByte_platform (s : State) (x : Word) (v : Byte) :
    (afterReadByte s x v).platform = s.platform := by unfold afterReadByte; split <;> rfl

@[simp] theorem afterReadByte_sp (s : State) (x : Word) (v : Byte) :
    (afterReadByte s x v).sp = s.sp := by unfold afterReadByte; split <;> rfl

@[simp] theorem storedWord_platform (x v : Word) (s : State) :
    (storedWord x v s).platform = s.platform := by unfold storedWord; dsimp only; split <;> rfl

@[simp] theorem storedWord_sp (x v : Word) (s : State) : (storedWord x v s).sp = s.sp := by
  unfold storedWord; dsimp only; split <;> rfl

@[simp] theorem storedByte_platform (x : Word) (v : Byte) (s : State) :
    (storedByte x v s).platform = s.platform := by unfold storedByte; split <;> rfl

@[simp] theorem storedByte_sp (x : Word) (v : Byte) (s : State) :
    (storedByte x v s).sp = s.sp := by unfold storedByte; split <;> rfl

/-- The output can be pushed where SP and the platform are as before. -/
theorem canOutput_of_eq (hout : canOutput c t = true) (hp : u.platform = t.platform)
    (hs : u.sp = t.sp) : canOutput c u = true := (canOutput_congr hp hs).trans hout

end

/-! ## Addresses and bytes -/

/-- The second byte of a word at an even address does not wrap. -/
theorem toNat_add_one_of_even {x : Word} (h : isOdd x = false) : (x + 1#16).toNat = x.toNat + 1 := by
  rw [isOdd_eq_decide_toNat, decide_eq_false_iff_not] at h
  bv_omega

theorem even_of_wordWritable {s : State} {x : Word} (h : wordWritable s x = true) :
    isOdd x = false := by
  simp only [wordWritable, Bool.and_eq_true, Bool.not_eq_true'] at h
  obtain ⟨⟨⟨heven, -⟩, -⟩, -⟩ := h
  exact heven

/-- A word at an even address is stored as two bytes, the less significant first. -/
theorem memSetWord_of_even {x : Word} (m : Memory) (v : Word) (h : isOdd x = false) :
    memSetWord m x v =
      memSetByte (memSetByte m x.toNat (v.extractLsb' 0 8)) (x.toNat + 1) (v.extractLsb' 8 8) := by
  rw [memSetWord, toNat_add_one_of_even h]
  rfl

/-! ## Data movement -/

section
variable {c : Cfg} {s t : State} {a b : Word}

theorem exec_get_of_readable {v : Word} (h : Executes c s a b t)
    (hread : readableWord t .read (s.bp + 2#16 * a) = some v) (hout : canOutput c t = true) :
    exec (.get c) s = .next (concluded c v (afterRead t .read (s.bp + 2#16 * a) v)) := by
  rw [← executes_bp h] at hread ⊢
  exact exec_completes (i := .get c) h (readWord_of_readable hread)
    (canOutput_of_eq hout (afterRead_platform ..) (afterRead_sp ..))

theorem exec_set_of_storable (h : Executes c s a b t)
    (hwrite : wordStorable s (s.bp + 2#16 * a) = true) (hout : canOutput c t = true) :
    exec (.set c) s = .next (concluded c b (storedWord (s.bp + 2#16 * a) b t)) := by
  rw [← executes_wordStorable h, ← executes_bp h] at hwrite
  rw [← executes_bp h]
  have hcmd : cmdSet a b t = .ok b (storedWord (t.bp + 2#16 * a) b t) := by
    rw [cmdSet, frameAddr, writeWord_of_storable b hwrite, andThen_ok]
  exact exec_completes (i := .set c) h hcmd
    (canOutput_of_eq hout (storedWord_platform ..) (storedWord_sp ..))

theorem wordStorable_of_writable {x : Word} (h : wordWritable s x = true) :
    wordStorable s x = true := by
  simp only [wordWritable, wordStorable, storable, Bool.and_eq_true, Bool.or_eq_true] at h ⊢
  obtain ⟨⟨haccess, hlow⟩, hhigh⟩ := h
  exact ⟨⟨haccess, .inl hlow⟩, .inl hhigh⟩

theorem exec_store8_of_storable (h : Executes c s a b t) (hwrite : byteStorable s b = true)
    (hout : canOutput c t = true) : exec (.store8 c) s =
      .next (concluded c (a &&& 0x00FF#16) (storedByte b (a.extractLsb' 0 8) t)) := by
  rw [← executes_byteStorable h] at hwrite
  have hcmd : cmdStore8 a b t = .ok (a &&& 0x00FF#16) (storedByte b (a.extractLsb' 0 8) t) := by
    rw [cmdStore8, writeByte_of_storable _ hwrite, andThen_ok]
    rfl
  exact exec_completes (i := .store8 c) h hcmd
    (canOutput_of_eq hout (storedByte_platform ..) (storedByte_sp ..))

theorem byteStorable_of_writable {x : Word} (h : byteWritable s x = true) :
    byteStorable s x = true := by
  simp only [byteWritable, byteStorable, storable, Bool.and_eq_true, Bool.or_eq_true] at h ⊢
  exact ⟨h.1, .inl h.2⟩

theorem storedByte_of_writable {x : Word} (v : Byte) (h : byteWritable s x = true) :
    storedByte x v s = s.setMem (memSetByte s.mem x.toNat v) := by
  have hstored := writeByte_of_storable v (byteStorable_of_writable h)
  rw [writeByte_of_writable v h] at hstored
  exact ((Res.ok.inj hstored).2).symm

/-- A byte widened with zeros. -/
theorem ofNat_toNat_byte (v : Byte) : BitVec.ofNat 16 v.toNat = v.zeroExtend 16 :=
  BitVec.ofNat_toNat 16 v

theorem exec_load8_of_readable {v : Byte} (h : Executes c s a b t)
    (hread : readableByte t a = some v) (hout : canOutput c t = true) :
    exec (.load8 c) s =
      .next (concluded c (BitVec.ofNat 16 v.toNat) (afterReadByte t a v)) := by
  have hcmd : cmdLoad8 a b t = .ok (BitVec.ofNat 16 v.toNat) (afterReadByte t a v) := by
    rw [cmdLoad8, readByte_of_readable hread, andThen_ok, ofNat_toNat_byte]
  exact exec_completes (i := .load8 c) h hcmd
    (canOutput_of_eq hout (afterReadByte_platform ..) (afterReadByte_sp ..))

theorem exec_store16_of_storable (h : Executes c s a b t) (hwrite : wordStorable s b = true)
    (hout : canOutput c t = true) :
    exec (.store16 c) s = .next (concluded c a (storedWord b a t)) := by
  have hcmd : cmdStore16 a b t = .ok a (storedWord b a t) := by
    rw [cmdStore16, writeWord_of_storable a ((executes_wordStorable h).trans hwrite), andThen_ok]
  exact exec_completes (i := .store16 c) h hcmd
    (canOutput_of_eq hout (storedWord_platform ..) (storedWord_sp ..))

/-! ## Control transfer, interrupt request and the reserved commands -/

/-- The three ways a transfer to `x` ends (R240, R241). -/
theorem exec_of_transfer {i : Instr} {x : Word} (h : Executes i.cfg s a b t)
    (hcmd : commandOf i a b t = (transfer x b t).andThen fun _ u => .ok t.ip u) :
    (isOdd x = false → (t.fr ||| b) &&& frReserved t.platform.variant = 0#16 →
      canOutput i.cfg t = true →
      exec i s = .next (concluded i.cfg t.ip { t with ip := x, fr := t.fr ||| b })) ∧
    (isOdd x = true → exec i s = .fault .oddPointer) ∧
    (isOdd x = false → ¬ (t.fr ||| b) &&& frReserved t.platform.variant = 0#16 →
      exec i s = .fault .frReservedBits) := by
  refine ⟨fun heven hclean hout => ?_, fun hodd => ?_, fun heven hreserved => ?_⟩
  · rw [transfer_of_clean heven hclean, andThen_ok] at hcmd
    exact exec_completes h hcmd (canOutput_of_eq hout rfl rfl)
  · rw [transfer_of_odd hodd, andThen_stop] at hcmd
    exact exec_stops h hcmd
  · rw [transfer_of_reserved heven hreserved, andThen_stop] at hcmd
    exact exec_stops h hcmd

theorem cmdIntr_markII (h : s.platform.variant = .markII) : cmdIntr a b s =
    if a &&& irReserved = 0#16 then .ok a (s.setIr (s.ir ||| a)) else .stop .irReservedBits := by
  simp only [cmdIntr, h]

theorem cmdIntr_markIIL (h : s.platform.variant = .markIIL) :
    cmdIntr a b s = .stop .intrOnMark2L := by
  simp only [cmdIntr, h]

end

/-- The commands that are not defined are the reserved ones (R101). -/
theorem commandOf_of_not_defined {i : Instr} (h : i.defined = false) : commandOf i = cmdReserved := by
  cases i with
  | reserved1 c | reserved35 c | reserved36 c | reserved37 c | reserved38 c | reserved39 c
  | reserved40 c | reserved41 c | reserved42 c | reserved43 c | reserved44 c | reserved45 c
  | reserved46 c | reserved47 c | reserved48 c | reserved49 c | reserved50 c | reserved51 c
  | reserved52 c | reserved53 c | reserved54 c | reserved55 c | reserved56 c | reserved57 c
  | reserved58 c | reserved59 c | reserved60 c | reserved61 c | reserved62 c | reserved63 c => rfl
  | _ => cases h

/-! ## The statements -/

/-- Settles O9: the command reads at the frame address, which has the parity of BP. -/
theorem getCompletes : Obligations.GetCompletes := by
  intro c s t a b v h
  refine ⟨fun hread hout => exec_get_of_readable h hread hout, fun hread hout => ?_, fun hodd => ?_⟩
  · have hplain := (executes_plainWord h).trans hread
    have hexec := exec_get_of_readable h (readableWord_of_plain hplain) hout
    rwa [afterRead_of_plain hplain] at hexec
  · rw [← executes_bp h] at hodd
    exact exec_stops (i := .get c) h (cmdGet_of_odd_bp (b := b) hodd)

/-- Settles O10: the command writes at the frame address, which has the parity of BP. -/
theorem setCompletes : Obligations.SetCompletes := by
  intro c s t a b h
  refine ⟨fun hwrite hout => exec_set_of_storable h hwrite hout, fun hwrite hout => ?_,
    fun hodd => ?_⟩
  · have hexec := exec_set_of_storable h (wordStorable_of_writable hwrite) hout
    rw [storedWord_of_writable b ((executes_wordWritable h).trans hwrite), executes_mem h] at hexec
    exact hexec
  · rw [← executes_bp h] at hodd
    exact exec_stops (i := .set c) h (cmdSet_of_odd_bp hodd)

/-- Settles O11: the byte accesses have no parity to meet, and their value is the low byte or a byte
widened with zeros. -/
theorem byteCommandsComplete : Obligations.ByteCommandsComplete := by
  intro c s t a b h hout
  refine ⟨fun hwrite => exec_store8_of_storable h hwrite hout, fun hwrite => ?_,
    fun v hread => exec_load8_of_readable h hread hout, fun v hread => ?_⟩
  · have hexec := exec_store8_of_storable h (byteStorable_of_writable hwrite) hout
    rw [storedByte_of_writable _ ((executes_byteWritable h).trans hwrite), executes_mem h] at hexec
    exact hexec
  · have hcmd : cmdLoad8 a b t = .ok (BitVec.ofNat 16 v.toNat) t := by
      rw [cmdLoad8, readByte_of_plainByte ((executes_plainByte h).trans hread), andThen_ok,
        ofNat_toNat_byte]
    exact exec_completes (i := .load8 c) h hcmd hout

/-- Settles O12: an ordinary write is at an even address, where the word is its two bytes in order. -/
theorem store16Completes : Obligations.Store16Completes := by
  intro c s t a b
  refine ⟨(Laws.TableRow.store16 c).1, fun h =>
    ⟨fun hwrite hout => exec_store16_of_storable h hwrite hout, fun hwrite hout => ?_,
      fun hodd => exec_stops (i := .store16 c) h (cmdStore16_of_odd hodd)⟩⟩
  have hexec := exec_store16_of_storable h (wordStorable_of_writable hwrite) hout
  rw [storedWord_of_writable a ((executes_wordWritable h).trans hwrite), executes_mem h,
    memSetWord_of_even _ _ (even_of_wordWritable hwrite)] at hexec
  exact hexec

/-- Settles O13: the command is one word read. -/
theorem load16Completes : Obligations.Load16Completes := by
  intro c s t a b v
  refine ⟨(Laws.TableRow.load16 c).1, fun h => ⟨fun hread hout => ?_, fun hread hout => ?_,
    fun hodd => exec_stops (i := .load16 c) (b := b) h (cmdLoad16_of_odd (b := b) hodd)⟩⟩
  · exact exec_completes (i := .load16 c) h (readWord_of_readable hread)
      (canOutput_of_eq hout (afterRead_platform ..) (afterRead_sp ..))
  · exact exec_completes (i := .load16 c) h
      (readWord_of_plainWord ((executes_plainWord h).trans hread)) hout

/-- Settles O8: the command answers `input0`. -/
theorem copyCompletes : Obligations.CopyCompletes :=
  fun c _ _ _ _ => ⟨(Laws.TableRow.copy c).1, fun h hout => exec_completes (i := .copy c) h rfl hout⟩

/-- Settles O14: the command tests both inputs for 0. -/
theorem cpuidCompletes : Obligations.CpuidCompletes := by
  intro c s t a b h
  refine ⟨fun ha hb hout => ?_, fun hne => ?_⟩
  · exact exec_completes (i := .cpuid c) h (if_pos ⟨ha, hb⟩) hout
  · exact exec_stops (i := .cpuid c) h (if_neg fun hab => hne.elim (· hab.1) (· hab.2))

/-- Settles O15: the command sets the halt bit and draws its output. -/
theorem haltCompletes : Obligations.HaltCompletes :=
  fun c _ _ _ _ h hout =>
    exec_completes (i := .halt c) h rfl (canOutput_of_eq hout rfl rfl)

/-- Settles O16: the command answers FR under the complement of the mask. -/
theorem frgetCompletes : Obligations.FrgetCompletes := by
  intro c s t a b
  refine ⟨(Laws.TableRow.frget c).1, fun h hout => ?_⟩
  rw [← executes_fr h]
  exact exec_completes (i := .frget c) h rfl hout

/-- Settles O17: the command writes FR as data, or stops for a reserved bit. -/
theorem frsetCompletes : Obligations.FrsetCompletes := by
  intro c s t a b h
  dsimp only
  rw [← executes_fr h, ← executes_platform h]
  refine ⟨fun hclean hout => ?_, fun hreserved => ?_⟩
  · have hcmd : cmdFrset a b t = .ok t.fr (t.setFr ((a &&& ~~~b) ||| (t.fr &&& b))) := by
      rw [cmdFrset, writeFr_of_clean hclean, andThen_ok]
    exact exec_completes (i := .frset c) h hcmd (canOutput_of_eq hout rfl rfl)
  · have hcmd : cmdFrset a b t = .stop .frReservedBits := by
      rw [cmdFrset, writeFr_of_reserved hreserved, andThen_stop]
    exact exec_stops (i := .frset c) h hcmd

/-- Settles O18: the two commands answer a register and change nothing. -/
theorem pointerReadsComplete : Obligations.PointerReadsComplete := by
  intro c s t a b h hout
  rw [← executes_bp h]
  exact ⟨exec_completes (i := .bpget c) h rfl hout, exec_completes (i := .spget c) h rfl hout⟩

/-- Settles O19: the command writes an even BP and stops for an odd one. -/
theorem bpsetCompletes : Obligations.BpsetCompletes := by
  intro c s t a b h
  rw [← executes_bp h]
  refine ⟨fun heven hout => ?_, fun hodd => ?_⟩
  · have hcmd : cmdBpset a b t = .ok t.bp (t.setBp a) := by
      rw [cmdBpset, writeBp_of_even heven, andThen_ok]
    exact exec_completes (i := .bpset c) h hcmd (canOutput_of_eq hout rfl rfl)
  · have hcmd : cmdBpset a b t = .stop .oddPointer := by
      rw [cmdBpset, writeBp_of_odd hodd, andThen_stop]
    exact exec_stops (i := .bpset c) h hcmd

/-- Settles O20: the command writes an even SP and stops for an odd one; the output goes to the stack
that the new SP names. -/
theorem spsetCompletes : Obligations.SpsetCompletes := by
  intro c s t a b h
  refine ⟨fun heven hout => ?_, fun hodd => ?_⟩
  · have hcmd : cmdSpset a b t = .ok t.sp (t.setSp a) := by
      rw [cmdSpset, writeSp_of_even heven, andThen_ok]
    exact exec_completes (i := .spset c) h hcmd hout
  · have hcmd : cmdSpset a b t = .stop .oddPointer := by
      rw [cmdSpset, writeSp_of_odd hodd, andThen_stop]
    exact exec_stops (i := .spset c) h hcmd

/-- Settles O31: the command is the transfer to `input0`. -/
theorem setipCompletes : Obligations.SetipCompletes := by
  intro c s t a b h
  dsimp only
  rw [← executes_ip (i := .setip c) h, ← executes_fr h, ← executes_platform h]
  exact exec_of_transfer (i := .setip c) h rfl

/-- Settles O32: the command is the transfer to IP, which is behind the instruction, plus `input0`. -/
theorem addipCompletes : Obligations.AddipCompletes := by
  intro c s t a b h
  dsimp only
  rw [← executes_ip (i := .addip c) h, ← executes_fr h, ← executes_platform h]
  exact exec_of_transfer (i := .addip c) h rfl

/-- Settles O33: the variant and the reserved bits of IR decide. -/
theorem intrCompletes : Obligations.IntrCompletes := by
  intro c s t a b h
  rw [← executes_ir h, ← executes_platform h]
  refine ⟨fun hv hclean hout => ?_, fun hv hreserved => ?_, fun hv => ?_⟩
  · exact exec_completes (i := .intr c) h ((cmdIntr_markII (b := b) hv).trans (if_pos hclean))
      (canOutput_of_eq hout rfl rfl)
  · exact exec_stops (i := .intr c) (b := b) h ((cmdIntr_markII (b := b) hv).trans (if_neg hreserved))
  · exact exec_stops (i := .intr c) (b := b) h (cmdIntr_markIIL (b := b) hv)

/-- Settles O34: the command of each of the 30 values stops on any inputs. -/
theorem reservedCommandsStopWhenExecuted : Obligations.ReservedCommandsStopWhenExecuted :=
  fun _ _ _ _ _ hdef h => exec_stops h (by rw [commandOf_of_not_defined hdef, cmdReserved])

/-- Settles O6: the command of a skipped instruction is never evaluated. -/
theorem skippedInstructionOnlyMovesIp : Obligations.SkippedInstructionOnlyMovesIp := by
  intro i s h
  rw [exec_eq, instruction_skips h, skipImmediates_eq]
  rfl

end Sys2Proof.Machine
end

section
/-! PROOF. The flag step, and when the arithmetic and logic commands complete (40_execution_model.md R140;
43_arithmetic.md; 44_logic_shift.md). -/

namespace Sys2Proof.Machine

/-! ## ADD and SUB -/

/-- A word is a number modulo 65536. -/
theorem ofNat_mod_word (n : Nat) : BitVec.ofNat 16 (n % 65536) = BitVec.ofNat 16 n := by
  apply BitVec.eq_of_toNat_eq
  rw [BitVec.toNat_ofNat, BitVec.toNat_ofNat, Nat.mod_mod]

/-- The difference modulo 65536, written with the subtraction of words (R201). -/
theorem ofInt_subDiff (a b fr : Word) :
    BitVec.ofInt 16 (subDiff a b fr) = a - b - BitVec.ofNat 16 (carryIn fr) := by
  have ha := a.isLt
  have hb := b.isLt
  have hc : carryIn fr ≤ 1 := by unfold carryIn; split <;> decide
  apply BitVec.eq_of_toNat_eq
  simp only [subDiff, BitVec.toNat_ofInt, BitVec.toNat_sub, BitVec.toNat_ofNat]
  omega

/-- The borrow, written without a negative number. -/
theorem subBorrow_eq (a b fr : Word) :
    subBorrow a b fr = decide (a.toNat < b.toNat + carryIn fr) := by
  rw [subBorrow, subDiff, decide_eq_decide]
  omega

/-! ## MUL -/

theorem ofNat_toNat_mul (a b : Word) : BitVec.ofNat 16 (a.toNat * b.toNat) = a * b := by
  apply BitVec.eq_of_toNat_eq
  rw [BitVec.toNat_ofNat, BitVec.toNat_mul]

theorem ofInt_toInt_mul (a b : Word) : BitVec.ofInt 16 (a.toInt * b.toInt) = a * b := by
  apply BitVec.eq_of_toInt_eq
  rw [BitVec.toInt_ofInt, BitVec.toInt_mul]

/-- The upper half of a 32-bit word is zero exactly if the word fits the lower half. -/
theorem upper_half_ne_zero (p : BitVec 32) :
    (p.extractLsb' 16 16 != 0#16) = decide (65535 < p.toNat) := by
  have hp := p.isLt
  rw [Bool.eq_iff_iff, bne_iff_ne, decide_eq_true_iff, ne_eq, ← BitVec.toNat_inj,
    BitVec.extractLsb'_toNat, BitVec.toNat_ofNat, Nat.shiftRight_eq_div_pow]
  omega

theorem mulCarryOut_unsigned (a b : Word) :
    mulCarryOut .unsigned a b = decide (65535 < a.toNat * b.toNat) := by
  have hlt : a.toNat * b.toNat < 2 ^ 32 :=
    (Nat.mul_lt_mul'' a.isLt b.isLt : a.toNat * b.toNat < 2 ^ 16 * 2 ^ 16)
  rw [mulCarryOut, upper_half_ne_zero, mulProduct, BitVec.toNat_ofNat, Nat.mod_eq_of_lt hlt]

/-- The signed product of two words lies well within 32 bits. -/
theorem toInt_mul_toInt_bounds (a b : Word) :
    -1073741824 ≤ a.toInt * b.toInt ∧ a.toInt * b.toInt ≤ 1073741824 := by
  have ha := a.toInt_lt
  have ha' := a.le_toInt
  have hb := b.toInt_lt
  have hb' := b.le_toInt
  norm_num at ha ha' hb hb'
  constructor <;> nlinarith

theorem mulCarryOut_signed (a b : Word) :
    mulCarryOut .signed a b =
      (decide (a.toInt * b.toInt < 0) || decide (65535 < a.toInt * b.toInt)) := by
  obtain ⟨hlow, hhigh⟩ := toInt_mul_toInt_bounds a b
  rw [mulCarryOut, upper_half_ne_zero, mulProduct, BitVec.toNat_ofInt, ← Bool.decide_or,
    decide_eq_decide]
  omega

/-! ## Quotient and remainder -/

/-- What the conventions say of the remainder `r` of `a` by `b` (R204 (b), (c)). -/
structure RemainderFits (d : DivMod) (a b r : Int) : Prop where
  small : |r| < |b|
  truncate : d = .truncate → (0 ≤ a → 0 ≤ r) ∧ (a ≤ 0 → r ≤ 0)
  floor : d = .floor → (0 < b → 0 ≤ r) ∧ (b < 0 → r ≤ 0)
  euclid : d = .euclid → 0 ≤ r
  unspecified : d = .unspecified → 0 ≤ r

theorem abs_tmod_lt (a : Int) {b : Int} (hb : b ≠ 0) : |a.tmod b| < |b| := by
  rw [abs_lt]
  rcases lt_or_gt_of_ne hb with hneg | hpos
  · rw [← Int.tmod_neg, abs_of_neg hneg]
    exact ⟨Int.lt_tmod_of_pos a (by omega), Int.tmod_lt_of_pos a (by omega)⟩
  · rw [abs_of_pos hpos]
    exact ⟨Int.lt_tmod_of_pos a hpos, Int.tmod_lt_of_pos a hpos⟩

theorem tmod_nonpos {a : Int} (b : Int) (ha : a ≤ 0) : a.tmod b ≤ 0 := by
  have hneg := Int.tmod_nonneg b (Int.neg_nonneg_of_nonpos ha)
  rw [Int.neg_tmod] at hneg
  omega

/-- The remainder of floor division lies between 0 and the divisor. -/
theorem fmod_bounds (a b : Int) :
    (0 < b → 0 ≤ a.fmod b ∧ a.fmod b < b) ∧ (b < 0 → b < a.fmod b ∧ a.fmod b ≤ 0) := by
  refine ⟨fun hpos => ⟨Int.fmod_nonneg_of_pos a hpos, Int.fmod_lt_of_pos a hpos⟩, fun hneg => ?_⟩
  have hpos : 0 < -b := by omega
  have hnonneg := Int.fmod_nonneg_of_pos (-a) hpos
  have hlt := Int.fmod_lt_of_pos (-a) hpos
  rw [Int.neg_fmod_neg] at hnonneg hlt
  omega

/-- Every convention that gives a quotient gives one with the remainder it asks for. -/
theorem quotient_spec {d : DivMod} {a b : Int} (hb : b ≠ 0)
    (hsign : d = .unspecified → 0 ≤ a ∧ 0 ≤ b) :
    ∃ q, quotient d a b = some q ∧ RemainderFits d a b (a - b * q) := by
  have hemod : a - b * (a / b) = a % b := (Int.emod_def a b).symm
  cases d with
  | truncate =>
    refine ⟨a.tdiv b, rfl, ?_⟩
    rw [← Int.tmod_def]
    exact ⟨abs_tmod_lt a hb, fun _ => ⟨Int.tmod_nonneg b, tmod_nonpos b⟩, nofun, nofun, nofun⟩
  | floor =>
    refine ⟨a.fdiv b, rfl, ?_⟩
    rw [← Int.fmod_def]
    obtain ⟨hpos, hneg⟩ := fmod_bounds a b
    refine ⟨?_, nofun, fun _ => ⟨fun h => (hpos h).1, fun h => (hneg h).2⟩, nofun, nofun⟩
    rcases lt_or_gt_of_ne hb with h | h
    · rw [abs_of_neg h, abs_of_nonpos (hneg h).2]
      have := (hneg h).1
      omega
    · rw [abs_of_pos h, abs_of_nonneg (hpos h).1]
      exact (hpos h).2
  | euclid =>
    refine ⟨a / b, rfl, ?_⟩
    rw [hemod]
    have hnonneg := Int.emod_nonneg a hb
    exact ⟨by rw [abs_of_nonneg hnonneg]; exact Int.emod_lt_abs a hb, nofun, nofun,
      fun _ => hnonneg, nofun⟩
  | unspecified =>
    obtain ⟨ha, hb'⟩ := hsign rfl
    refine ⟨a / b, if_neg (by omega), ?_⟩
    rw [hemod]
    have hnonneg := Int.emod_nonneg a hb
    exact ⟨by rw [abs_of_nonneg hnonneg]; exact Int.emod_lt_abs a hb, nofun, nofun, nofun,
      fun _ => hnonneg⟩

theorem toInt_bounds (a : Word) : -32768 ≤ a.toInt ∧ a.toInt ≤ 32767 := by
  have hlt := a.toInt_lt
  have hle := a.le_toInt
  norm_num at hlt hle
  omega

/-- Whatever the convention, only -32768 by -1 has a quotient that is no signed word. -/
theorem quotient_bounds {a b q : Int} (ha : -32768 ≤ a ∧ a ≤ 32767) (hb : b ≠ 0)
    (hpair : ¬ (a = -32768 ∧ b = -1)) (hsmall : |a - b * q| < |b|) :
    -32768 ≤ q ∧ q ≤ 32767 := by
  rw [abs_lt] at hsmall
  obtain ⟨hlow, hhigh⟩ := hsmall
  rcases lt_or_gt_of_ne hb with hneg | hpos
  · rw [abs_of_neg hneg] at hlow hhigh
    constructor
    · by_contra hq
      nlinarith
    · by_contra hq
      have hone : b = -1 := by nlinarith
      subst hone
      omega
  · rw [abs_of_pos hpos] at hlow hhigh
    constructor
    · by_contra hq
      nlinarith
    · by_contra hq
      nlinarith

theorem toInt_ofInt_of_bounds {x : Int} (h : -32768 ≤ x ∧ x ≤ 32767) :
    (BitVec.ofInt 16 x).toInt = x :=
  BitVec.toInt_ofInt_eq_self (by decide) (by norm_num; omega) (by norm_num; omega)

theorem toInt_ne_zero {b : Word} (hb : b ≠ 0#16) : b.toInt ≠ 0 :=
  fun h => hb (BitVec.eq_of_toInt_eq h)

theorem toInt_pair {a b : Word} (h : ¬ (a = 0x8000#16 ∧ b = 0xFFFF#16)) :
    ¬ (a.toInt = -32768 ∧ b.toInt = -1) :=
  fun hab => h ⟨BitVec.eq_of_toInt_eq hab.1, BitVec.eq_of_toInt_eq hab.2⟩

/-! ## DIV and MOD -/

section
variable {f : Int → Int → Int → Int} {a b : Word} {s : State}

theorem divideWith_of_quotient {q : Int} (hb : b ≠ 0#16) (hpair : ¬ (a = 0x8000#16 ∧ b = 0xFFFF#16))
    (hq : quotient s.platform.divMod a.toInt b.toInt = some q) :
    divideWith f a b s = .ok (BitVec.ofInt 16 (f a.toInt b.toInt q)) s := by
  rw [divideWith, if_neg hb, if_neg hpair]
  simp only [hq]

/-- The two cases in which the spec leaves the result open. -/
theorem divideWith_of_open (h : (a = 0x8000#16 ∧ b = 0xFFFF#16) ∨
    (s.platform.divMod = .unspecified ∧ b ≠ 0#16 ∧ (a.toInt < 0 ∨ b.toInt < 0))) :
    divideWith f a b s = draw s := by
  by_cases hpair : a = 0x8000#16 ∧ b = 0xFFFF#16
  · have hb : b ≠ 0#16 := by rw [hpair.2]; decide
    rw [divideWith, if_neg hb, if_pos hpair]
  · obtain ⟨hd, hb, hneg⟩ := h.resolve_left hpair
    have hq : quotient s.platform.divMod a.toInt b.toInt = none := by
      rw [hd]
      exact if_pos hneg
    rw [divideWith, if_neg hb, if_neg hpair]
    simp only [hq]

/-- ARITH becomes pending if it is enabled. -/
theorem trigger_arith (s : State) :
    trigger 4 s = s.setIr (if s.fr.getLsbD 4 then s.ir ||| 0x0010#16 else s.ir) := by
  by_cases h : s.fr.getLsbD 4 = true
  · rw [trigger_of_unmasked (.inr h), if_pos h]
    rfl
  · rw [trigger_of_masked (by simpa using h), if_neg h]
    rfl

theorem divideWith_zero_markII (hv : s.platform.variant = .markII) :
    divideWith f a 0#16 s = draw (trigger 4 s) := by
  rw [divideWith, if_pos rfl, divideByZero]
  simp only [hv]

theorem divideWith_zero_markIIL (hv : s.platform.variant = .markIIL) :
    divideWith f a 0#16 s = .stop .divideByZero := by
  rw [divideWith, if_pos rfl, divideByZero]
  simp only [hv]

end

/-- DIV and MOD are one division, with the result read off differently. -/
theorem commandOf_div_mod {c : Cfg} {i : Instr} (hi : i ∈ [Instr.div c, .mod c]) :
    i.cfg = c ∧ ∃ f, ∀ a b s, commandOf i a b s = divideWith f a b s := by
  simp only [List.mem_cons, List.not_mem_nil, or_false] at hi
  rcases hi with rfl | rfl
  · exact ⟨rfl, fun _ _ q => q, fun _ _ _ => rfl⟩
  · exact ⟨rfl, fun x y q => x - y * q, fun _ _ _ => rfl⟩

/-! ## Logic, rotates and shifts -/

theorem not_eq_sub (a : Word) : ~~~a = 0xFFFF#16 - a := (BitVec.allOnes_sub_eq_not a).symm

/-- The mask puts zeros, and the or ones, above the byte whose top bit decides between them. -/
theorem signExtByte_eq (a : Word) : signExtByte a = (a.extractLsb' 0 8).signExtend 16 := by
  have hones : 0xFF00#16 = BitVec.allOnes 8 ++ 0#8 := by decide
  have hzeros : 0x00FF#16 = 0#8 ++ BitVec.allOnes 8 := by decide
  have hmsb : (a.extractLsb' 0 8).msb = a.getLsbD 7 := by simp [BitVec.msb_eq_getLsbD_last]
  apply BitVec.eq_of_getLsbD_eq
  intro j hj
  have hj8 : j - 8 < 8 := by omega
  rw [BitVec.getLsbD_signExtend, hmsb, signExtByte]
  cases a.getLsbD 7 with
  | false =>
    rw [if_neg Bool.false_ne_true, hzeros, BitVec.getLsbD_and, BitVec.getLsbD_append,
      BitVec.getLsbD_allOnes]
    by_cases h8 : j < 8 <;> simp [h8, hj]
  | true =>
    rw [if_pos rfl, hones, BitVec.getLsbD_or, BitVec.getLsbD_append, BitVec.getLsbD_allOnes]
    by_cases h8 : j < 8 <;> simp [h8, hj, hj8]

theorem rotateLeft1_eq (a : Word) : rotateLeft1 a = a.rotateLeft 1 := by
  apply BitVec.eq_of_getLsbD_eq
  intro j hj
  rw [rotateLeft1, BitVec.getLsbD_append, BitVec.getLsbD_rotateLeft]
  interval_cases j <;> simp

theorem rotateRight1_eq (a : Word) : rotateRight1 a = a.rotateRight 1 := by
  apply BitVec.eq_of_getLsbD_eq
  intro j hj
  rw [rotateRight1, BitVec.getLsbD_append, BitVec.getLsbD_rotateRight]
  interval_cases j <;> simp

theorem swapBytes_eq (a : Word) : swapBytes a = a.rotateLeft 8 := by
  apply BitVec.eq_of_getLsbD_eq
  intro j hj
  rw [swapBytes, BitVec.getLsbD_append, BitVec.getLsbD_rotateLeft]
  interval_cases j <;> simp

theorem shiftRightArith1_eq (a : Word) : shiftRightArith1 a = a.sshiftRight 1 := by
  apply BitVec.eq_of_getLsbD_eq
  intro j hj
  rw [shiftRightArith1, BitVec.getLsbD_append, BitVec.getLsbD_sshiftRight]
  interval_cases j <;> simp [BitVec.msb_eq_getLsbD_last]

theorem shiftLeft1_eq (a : Word) : shiftLeft1 a = a <<< 1 := by
  apply BitVec.eq_of_getLsbD_eq
  intro j hj
  rw [shiftLeft1, BitVec.getLsbD_append, BitVec.getLsbD_shiftLeft]
  interval_cases j <;> simp

theorem shiftRight1_eq (a : Word) : shiftRight1 a = a >>> 1 := by
  apply BitVec.eq_of_getLsbD_eq
  intro j hj
  rw [shiftRight1, BitVec.getLsbD_append, BitVec.getLsbD_ushiftRight]
  interval_cases j <;> simp

/-! ## The statements -/

/-- Settles O5: the step sets bit 0, then bit 1, and no other. -/
theorem flagStepWritesZeroAndNegative : Obligations.FlagStepWritesZeroAndNegative := by
  intro o fr
  have hstep (n : Nat) : (modifyFlags true o fr).getLsbD n =
      if n = 1 then o.getLsbD 15 else if n = 0 then o == 0#16 else fr.getLsbD n := by
    rw [modifyFlags, if_pos rfl, getLsbD_setBit _ (by decide), getLsbD_setBit _ (by decide)]
  refine ⟨?_, hstep 1, fun n hn => getLsbD_modifyFlags hn, modifyFlags_false o fr⟩
  rw [hstep 0, if_neg (by decide), if_pos rfl, beq_iff_eq]

/-- Settles O21: the low half of the sum is the sum modulo 65536. -/
theorem addCompletes : Obligations.AddCompletes := by
  intro c s t a b h hout
  dsimp only
  rw [← executes_fr h, ofNat_mod_word]
  exact exec_completes (i := .add c) h rfl (canOutput_of_eq hout rfl rfl)

/-- Settles O22: the difference and the borrow are those of the unbounded difference. -/
theorem subCompletes : Obligations.SubCompletes := by
  intro c s t a b h hout
  dsimp only
  rw [← executes_fr h]
  have hcmd : cmdSub a b t = .ok (a - b - BitVec.ofNat 16 (carryIn t.fr))
      (t.setFr (setBit t.fr 2 (decide (a.toNat < b.toNat + carryIn t.fr)))) := by
    rw [cmdSub, ofInt_subDiff, subBorrow_eq, setC]
  exact exec_completes (i := .sub c) h hcmd (canOutput_of_eq hout rfl rfl)

/-- Settles O23: C is a statement about the upper half of the 32-bit product, under either reading. -/
theorem mulCompletes : Obligations.MulCompletes := by
  intro c s t a b h hout
  rw [← executes_fr h, ← executes_platform h]
  have hexec := exec_completes (i := .mul c) h rfl (canOutput_of_eq hout rfl rfl)
  refine ⟨fun hm => ?_, fun hm => ?_⟩
  · rw [hm, mulCarryOut_unsigned] at hexec
    rw [ofNat_toNat_mul]
    exact hexec
  · rw [hm, mulCarryOut_signed] at hexec
    rw [ofInt_toInt_mul]
    exact hexec

/-- Settles O24: the quotient that the statement names is the one that the convention gives. -/
theorem divAndModComplete : Obligations.DivAndModComplete := by
  intro c s t a b q h hout hb hpair hq
  rw [← executes_platform h] at hq
  have hquot : quotient t.platform.divMod a.toInt b.toInt = some q := by
    cases hd : t.platform.divMod with
    | truncate => simp only [hd] at hq; rw [hq]; rfl
    | floor => simp only [hd] at hq; rw [hq]; rfl
    | euclid => simp only [hd] at hq; rw [hq]; rfl
    | unspecified =>
      simp only [hd] at hq
      obtain ⟨ha, hb', hq⟩ := hq
      rw [quotient, if_neg (by omega), hq, Int.tdiv_eq_ediv_of_nonneg ha]
  have hdiv := divideWith_of_quotient (f := fun _ _ q => q) hb hpair hquot
  have hmod := divideWith_of_quotient (f := fun x y q => x - y * q) hb hpair hquot
  exact ⟨exec_completes (i := .div c) h hdiv hout, exec_completes (i := .mod c) h hmod hout⟩

/-- Settles O25: in the open cases the division is a draw. -/
theorem divAndModOpenResultsAreFree : Obligations.DivAndModOpenResultsAreFree := by
  intro c s t a b h hout hopen i hi
  obtain ⟨rfl, f, hf⟩ := commandOf_div_mod hi
  rw [← executes_platform h] at hopen
  exact exec_completes h ((hf a b t).trans (divideWith_of_open hopen)) (canOutput_of_eq hout rfl rfl)

/-- Settles O26: a division by zero triggers ARITH and draws, or stops, by the variant. -/
theorem divisionByZeroTriggersArith : Obligations.DivisionByZeroTriggersArith := by
  intro c s t a h hout i hi
  obtain ⟨rfl, f, hf⟩ := commandOf_div_mod hi
  rw [← executes_platform h, ← executes_fr h, ← executes_ir h]
  refine ⟨fun hv => ?_, fun hv => ?_⟩
  · have hcmd := (hf a 0#16 t).trans (divideWith_zero_markII hv)
    rw [trigger_arith] at hcmd
    exact exec_completes h hcmd (canOutput_of_eq hout rfl rfl)
  · exact exec_stops h ((hf a 0#16 t).trans (divideWith_zero_markIIL hv))

/-- Settles O27: quotient and remainder are those of the integers, since both fit a signed word. -/
theorem quotientAndRemainderBelongTogether : Obligations.QuotientAndRemainderBelongTogether := by
  intro s a b hb hpair hsign
  obtain ⟨q, hq, hfits⟩ := quotient_spec (toInt_ne_zero hb) hsign
  have hqb := quotient_bounds (toInt_bounds a) (toInt_ne_zero hb) (toInt_pair hpair) hfits.small
  have hrb : -32768 ≤ a.toInt - b.toInt * q ∧ a.toInt - b.toInt * q ≤ 32767 := by
    obtain ⟨hlow, hhigh⟩ := abs_lt.1 hfits.small
    obtain ⟨hblow, hbhigh⟩ := toInt_bounds b
    have habs : |b.toInt| ≤ 32768 := abs_le.2 ⟨hblow, by omega⟩
    omega
  refine ⟨BitVec.ofInt 16 q, BitVec.ofInt 16 (a.toInt - b.toInt * q),
    divideWith_of_quotient hb hpair hq, divideWith_of_quotient hb hpair hq, ?_⟩
  rw [toInt_ofInt_of_bounds hqb, toInt_ofInt_of_bounds hrb]
  exact ⟨by ring, hfits.small, hfits.truncate, hfits.floor, hfits.euclid, hfits.unspecified⟩

/-- Settles O28: the commands compute their output alone. -/
theorem logicCommandsComplete : Obligations.LogicCommandsComplete := by
  intro c s t a b
  refine ⟨⟨(Laws.TableRow.and c).1, (Laws.TableRow.xor c).1, (Laws.TableRow.not c).1⟩,
    fun h hout => ?_⟩
  rw [← not_eq_sub]
  exact ⟨exec_completes (i := .and c) h rfl hout, exec_completes (i := .xor c) h rfl hout,
    exec_completes (i := .not c) h rfl hout⟩

/-- Settles O29: the commands compute their output alone. -/
theorem orAndSignextComplete : Obligations.OrAndSignextComplete := by
  intro c s t a b h hout
  rw [← signExtByte_eq]
  exact ⟨exec_completes (i := .or c) h rfl hout, exec_completes (i := .signext c) h rfl hout⟩

/-- Settles O30: each moved word, put together from its fields, is the library's. -/
theorem shiftCommandsComplete : Obligations.ShiftCommandsComplete := by
  intro c s t a b
  refine ⟨⟨(Laws.TableRow.rol c).1, (Laws.TableRow.ror c).1, (Laws.TableRow.bswap c).1,
    (Laws.TableRow.asr c).1, (Laws.TableRow.lsl c).1, (Laws.TableRow.lsr c).1⟩, fun h hout => ?_⟩
  rw [← rotateLeft1_eq, ← rotateRight1_eq, ← swapBytes_eq, ← shiftRightArith1_eq, ← shiftLeft1_eq,
    ← shiftRight1_eq]
  exact ⟨exec_completes (i := .rol c) h rfl hout, exec_completes (i := .ror c) h rfl hout,
    exec_completes (i := .bswap c) h rfl hout, exec_completes (i := .asr c) h rfl hout,
    exec_completes (i := .lsl c) h rfl hout, exec_completes (i := .lsr c) h rfl hout⟩

end Sys2Proof.Machine
end

section
/-! PROOF. The frames: what each instruction leaves unchanged (40_execution_model.md R121, R142;
10_state.md R23, R25, R31, R36; 60_exceptions.md R264). -/

namespace Sys2Proof.Machine

/-! ## What the effects leave unchanged -/

section
variable {i : Instr} {s t : State} (h : Effect i s t)
include h

theorem Effect.bp_eq (hi : i ≠ .bpset i.cfg) : t.bp = s.bp := by
  cases h with
  | output same => exact same.bp_eq
  | store _ eq _ => rw [eq]; rfl
  | arith _ _ => rw [trigger_arith]; rfl
  | bpset _ => exact absurd rfl hi
  | _ => rfl

theorem Effect.halted_eq (hi : i ≠ .halt i.cfg) : t.halted = s.halted := by
  cases h with
  | output same => exact same.halted_eq
  | store _ eq _ => rw [eq]; rfl
  | arith _ _ => rw [trigger_arith]; rfl
  | halt => exact absurd rfl hi
  | _ => rfl

theorem Effect.sp_eq (hi : i ≠ .spset i.cfg) : t.sp = s.sp := by
  cases h with
  | output same => exact same.sp_eq
  | store _ eq _ => rw [eq]; rfl
  | arith _ _ => rw [trigger_arith]; rfl
  | spset _ => exact absurd rfl hi
  | _ => rfl

theorem Effect.ip_eq (hi : i ∉ [Instr.setip i.cfg, .addip i.cfg]) : t.ip = s.ip := by
  cases h with
  | output same => exact same.ip_eq
  | store _ eq _ => rw [eq]; rfl
  | arith _ _ => rw [trigger_arith]; rfl
  | jump isJump _ _ => exact absurd (by simpa using isJump) hi
  | _ => rfl

theorem Effect.mem_eq (hi : i ∉ [Instr.set i.cfg, .store8 i.cfg, .store16 i.cfg]) : t.mem = s.mem := by
  cases h with
  | output same => exact same.mem_eq
  | store isStore _ _ => exact absurd (by simpa using isStore) hi
  | arith _ _ => rw [trigger_arith]; rfl
  | _ => rfl

/-- A bit of FR other than C changes only where FR is written as data. -/
theorem Effect.fr_bit (hi : i ∉ [Instr.frset i.cfg, .setip i.cfg, .addip i.cfg]) {n : Nat}
    (hn : n ≠ 2) : t.fr.getLsbD n = s.fr.getLsbD n := by
  cases h with
  | output same => rw [same.fr_eq]
  | store _ eq _ => rw [eq]; rfl
  | carry _ b => rw [setFr_fr, getLsbD_setC, if_neg hn]
  | arith _ _ => rw [trigger_arith]; rfl
  | frset _ => exact absurd (by simp [Instr.cfg]) hi
  | jump isJump _ _ => exact absurd (by simp only [List.mem_cons]; tauto) hi
  | _ => rfl

theorem Effect.carry_eq (hi : i ∉ [Instr.add i.cfg, .sub i.cfg, .mul i.cfg, .frset i.cfg, .setip i.cfg,
    .addip i.cfg]) : t.fr.getLsbD 2 = s.fr.getLsbD 2 := by
  cases h with
  | output same => rw [same.fr_eq]
  | store _ eq _ => rw [eq]; rfl
  | carry isArith _ => exact absurd (by simp only [List.mem_cons]; tauto) hi
  | arith _ _ => rw [trigger_arith]; rfl
  | frset _ => exact absurd (by simp [Instr.cfg]) hi
  | jump isJump _ _ => exact absurd (by simp only [List.mem_cons]; tauto) hi
  | _ => rfl

theorem Effect.ir_eq (hi : i ∉ [Instr.div i.cfg, .mod i.cfg, .intr i.cfg]) : t.ir = s.ir := by
  cases h with
  | output same => exact same.ir_eq
  | store _ eq _ => rw [eq]; rfl
  | arith isDiv _ => exact absurd (by simp only [List.mem_cons]; tauto) hi
  | intr _ _ => exact absurd (by simp [Instr.cfg]) hi
  | _ => rfl

/-- Of the commands but INTR, none sets another bit of IR than ARITH, and that only if it is enabled. -/
theorem Effect.ir_arith (hi : i ≠ .intr i.cfg) :
    t.ir = s.ir ∨ s.fr.getLsbD 4 = true ∧ t.ir = setBit s.ir 4 true := by
  cases h with
  | output same => exact .inl same.ir_eq
  | store _ eq _ => rw [eq]; exact .inl rfl
  | arith _ _ =>
    rw [trigger_arith]
    by_cases hfr : s.fr.getLsbD 4 = true
    · exact .inr ⟨hfr, if_pos hfr⟩
    · exact .inl (if_neg hfr)
  | intr _ _ => exact absurd rfl hi
  | _ => exact .inl rfl

/-- No command clears a bit of IR. -/
theorem Effect.ir_mono {n : Nat} (hn : s.ir.getLsbD n = true) : t.ir.getLsbD n = true := by
  by_cases hi : i = .intr i.cfg
  · cases h with
    | intr _ _ => rw [setIr_ir, BitVec.getLsbD_or, hn, Bool.true_or]
    | output same => rwa [same.ir_eq]
    | store _ eq _ => rw [eq]; exact hn
    | carry _ _ => exact hn
    | jump _ _ _ => exact hn
    | arith isDiv _ => rcases isDiv with h | h <;> rw [h] at hi <;> cases hi
    | _ => cases hi
  · rcases h.ir_arith hi with heq | ⟨-, heq⟩
    · rwa [heq]
    · rw [heq, getLsbD_setBit true (by decide), hn, ite_self]

end

/-! ## The BUS answer -/

theorem cancel_eq_busCancelled (s u : State) : cancel s u = busCancelled s u := rfl

/-- A cancelled instruction's state, written from itself. -/
theorem eq_busCancelled_of_cancel {s t : State} (h : ∃ u, t = cancel s u) : t = busCancelled s t := by
  obtain ⟨u, rfl⟩ := h
  rfl

/-! ## What an instruction that answers a next state leaves unchanged -/

section
variable {i : Instr} {s t : State} (h : exec i s = .next t)
include h

theorem exec_platform : t.platform = s.platform := (exec_grows h).1

theorem exec_pins : t.pins = s.pins := (exec_grows h).2.1

theorem exec_bp (hi : i ≠ .bpset i.cfg) : t.bp = s.bp := by
  rcases exec_next h with ⟨-, rfl⟩ | ⟨-, u, rfl⟩ | ⟨a, b, o, s0, s1, s2, hr⟩
  · rfl
  · rfl
  · rw [hr.bp_eq, hr.effect.bp_eq hi, hr.inputs.bp_eq, afterInputs_bp]

theorem exec_halted (hi : i ≠ .halt i.cfg) : t.halted = s.halted := by
  rcases exec_next h with ⟨-, rfl⟩ | ⟨-, u, rfl⟩ | ⟨a, b, o, s0, s1, s2, hr⟩
  · rfl
  · rfl
  · rw [hr.halted_eq, hr.effect.halted_eq hi, hr.inputs.halted_eq, afterInputs_halted]

theorem exec_sp (hi : i ≠ .spset i.cfg) :
    t.sp = s.sp ∨ t.sp = (afterInputs i.cfg s).sp - (if i.cfg.out then 2#16 else 0#16) := by
  rcases exec_next h with ⟨-, rfl⟩ | ⟨-, u, rfl⟩ | ⟨a, b, o, s0, s1, s2, hr⟩
  · exact .inl rfl
  · exact .inl rfl
  · right
    rw [hr.sp_eq, hr.effect.sp_eq hi, hr.inputs.sp_eq]
    split
    · rfl
    · exact (BitVec.sub_zero _).symm

theorem exec_ip (hi : i ∉ [Instr.setip i.cfg, .addip i.cfg]) :
    t.ip = s.ip + BitVec.ofNat 16 i.length ∨ ∃ u, t = cancel s u := by
  rcases exec_next h with ⟨-, rfl⟩ | ⟨-, hcancel⟩ | ⟨a, b, o, s0, s1, s2, hr⟩
  · exact .inl rfl
  · exact .inr hcancel
  · exact .inl (by rw [hr.ip_eq, hr.effect.ip_eq hi, hr.inputs_ip])

/-- Memory changes at most at the pushed word, unless the command stores or moves the stack. -/
theorem exec_mem (hi : i ∉ [Instr.set i.cfg, .store8 i.cfg, .store16 i.cfg]) (hsp : i ≠ .spset i.cfg)
    {x : Nat} (hx : ¬ (i.cfg.out = true ∧ inWord ((afterInputs i.cfg s).sp - 2#16) x)) :
    memByte t.mem x = memByte s.mem x := by
  rcases exec_next h with ⟨-, rfl⟩ | ⟨-, u, rfl⟩ | ⟨a, b, o, s0, s1, s2, hr⟩
  · rfl
  · rfl
  · have hs2 : s2.sp = (afterInputs i.cfg s).sp := (hr.effect.sp_eq hsp).trans hr.inputs.sp_eq
    rw [hr.frame x (by rwa [hs2]), hr.effect.mem_eq hi, hr.inputs.mem_eq, afterInputs_mem]

theorem exec_ir (hi : i ∉ [Instr.div i.cfg, .mod i.cfg, .intr i.cfg]) :
    t.ir = s.ir ∨ ∃ u, t = cancel s u := by
  rcases exec_next h with ⟨-, rfl⟩ | ⟨-, hcancel⟩ | ⟨a, b, o, s0, s1, s2, hr⟩
  · exact .inl rfl
  · exact .inr hcancel
  · exact .inl (by rw [hr.ir_eq, hr.effect.ir_eq hi, hr.inputs.ir_eq, afterInputs_ir])

theorem exec_ir_arith (hi : i ≠ .intr i.cfg) :
    t.ir = s.ir ∨ (s.fr.getLsbD 4 = true ∧ t.ir = setBit s.ir 4 true) ∨ ∃ u, t = cancel s u := by
  rcases exec_next h with ⟨-, rfl⟩ | ⟨-, hcancel⟩ | ⟨a, b, o, s0, s1, s2, hr⟩
  · exact .inl rfl
  · exact .inr (.inr hcancel)
  · have hir := hr.effect.ir_arith hi
    rw [hr.inputs.ir_eq, hr.inputs.fr_eq, ← hr.ir_eq] at hir
    exact hir.imp_right .inl

theorem exec_ir_mono {n : Nat} (hn : s.ir.getLsbD n = true) : t.ir.getLsbD n = true := by
  rcases exec_next h with ⟨-, rfl⟩ | ⟨-, u, rfl⟩ | ⟨a, b, o, s0, s1, s2, hr⟩
  · exact hn
  · rw [cancel_ir, getLsbD_setBit true (by decide), hn, ite_self]
  · rw [hr.ir_eq]
    exact hr.effect.ir_mono (by rwa [hr.inputs.ir_eq])

/-- The flag step changes Z and N alone, and nothing where it is disabled. -/
theorem exec_fr_bit (hi : i ∉ [Instr.frset i.cfg, .setip i.cfg, .addip i.cfg]) {n : Nat} (hn : n ≠ 2)
    (hstep : 2 ≤ n ∨ i.cfg.flg = false) : t.fr.getLsbD n = s.fr.getLsbD n := by
  rcases exec_next h with ⟨-, rfl⟩ | ⟨-, u, rfl⟩ | ⟨a, b, o, s0, s1, s2, hr⟩
  · rfl
  · rfl
  · have hflags : (modifyFlags i.cfg.flg o s2.fr).getLsbD n = s2.fr.getLsbD n := by
      rcases hstep with hn | hflg
      · exact getLsbD_modifyFlags hn
      · rw [hflg, modifyFlags_false]
    rw [hr.fr_eq, hflags, hr.effect.fr_bit hi hn, hr.inputs.fr_eq, afterInputs_fr]

theorem exec_carry (hi : i ∉ [Instr.add i.cfg, .sub i.cfg, .mul i.cfg, .frset i.cfg, .setip i.cfg,
    .addip i.cfg]) : t.fr.getLsbD 2 = s.fr.getLsbD 2 := by
  rcases exec_next h with ⟨-, rfl⟩ | ⟨-, u, rfl⟩ | ⟨a, b, o, s0, s1, s2, hr⟩
  · rfl
  · rfl
  · rw [hr.fr_eq, getLsbD_modifyFlags (Nat.le_refl 2), hr.effect.carry_eq hi, hr.inputs.fr_eq,
      afterInputs_fr]

/-- FR changes by the flag step alone where the command writes neither C nor FR. -/
theorem exec_fr (hi : i ∉ [Instr.add i.cfg, .sub i.cfg, .mul i.cfg, .frset i.cfg, .setip i.cfg,
    .addip i.cfg]) :
    (∀ n, 2 ≤ n → t.fr.getLsbD n = s.fr.getLsbD n) ∧ (i.cfg.flg = false → t.fr = s.fr) := by
  have hdata : i ∉ [Instr.frset i.cfg, .setip i.cfg, .addip i.cfg] := by
    simp only [List.mem_cons, not_or] at hi ⊢
    tauto
  have hbit (n : Nat) (hstep : 2 ≤ n ∨ i.cfg.flg = false) :
      t.fr.getLsbD n = s.fr.getLsbD n := by
    by_cases hn : n = 2
    · rw [hn, exec_carry h hi]
    · exact exec_fr_bit h hdata hn hstep
  exact ⟨fun n hn => hbit n (.inl hn), fun hflg =>
    BitVec.eq_of_getLsbD_eq fun n _ => hbit n (.inr hflg)⟩

end

/-! ## Stores -/

/-- An instruction does not end where it stands. -/
theorem add_length_ne (a : Word) (i : Instr) : a + BitVec.ofNat 16 i.length ≠ a := by
  rcases Laws.length_cases i with h | h | h <;> rw [h] <;> bv_omega

/-- What SET, STORE8 and STORE16 store outside of is unchanged. -/
theorem commandOf_store_mem {c : Cfg} {i : Instr} {a b o : Word} {s t : State} {x : Nat}
    (hi : i ∈ [Instr.set c, .store8 c, .store16 c]) (h : commandOf i a b s = .ok o t)
    (hset : i = .set c → ¬ inWord (frameAddr s.bp a) x) (hstore8 : i = .store8 c → x ≠ b.toNat)
    (hstore16 : i = .store16 c → ¬ inWord b x) : memByte t.mem x = memByte s.mem x := by
  simp only [List.mem_cons, List.not_mem_nil, or_false] at hi
  rcases hi with rfl | rfl | rfl
  · obtain ⟨-, -, hmem, -⟩ := cmdSet_ok h
    exact hmem x (hset rfl)
  · obtain ⟨-, -, hmem, -⟩ := cmdStore8_ok h
    exact hmem x (hstore8 rfl)
  · obtain ⟨-, -, hmem, -⟩ := cmdStore16_ok h
    exact hmem x (hstore16 rfl)

section
variable {i : Instr} {s t : State} (h : exec i s = .next t)
include h

/-- Memory is unchanged unless the instruction ran. -/
theorem exec_mem_or_ran : t.mem = s.mem ∨ ∃ a b o s0 s1 s2, Ran i s a b o s0 s1 s2 t := by
  rcases exec_next h with ⟨-, rfl⟩ | ⟨-, u, rfl⟩ | hran
  · exact .inl rfl
  · exact .inl rfl
  · exact .inr hran

theorem exec_mem_of_skipped (hc : condHolds i.cfg.cond s.fr = false) : t.mem = s.mem := by
  rcases exec_mem_or_ran h with hmem | ⟨a, b, o, s0, s1, s2, hr⟩
  · exact hmem
  · rw [hr.cond] at hc
    cases hc

theorem exec_mem_of_ip_eq (hi : i ∉ [Instr.setip i.cfg, .addip i.cfg]) (hip : t.ip = s.ip) :
    t.mem = s.mem := by
  rcases exec_mem_or_ran h with hmem | ⟨a, b, o, s0, s1, s2, hr⟩
  · exact hmem
  · rw [hr.ip_eq, hr.effect.ip_eq hi, hr.inputs_ip] at hip
    exact absurd hip (add_length_ne s.ip i)

end

/-- After a command that cannot meet BUS, an instruction completes with its output and the flag step, or
its push is answered with BUS. -/
theorem exec_after_command {i : Instr} {s u w t : State} {a b o : Word} (h : Executes i.cfg s a b u)
    (hcmd : commandOf i a b u = .ok o w) (ht : exec i s = .next t) :
    t = busCancelled s t ∨ t.fr = modifyFlags i.cfg.flg o w.fr := by
  rw [exec_eq, instruction_of_executes h, hcmd, andThen_ok] at ht
  cases hout : handleOutput i.cfg.out o w with
  | stop f => rw [hout] at ht; cases ht
  | bus v => rw [hout] at ht; cases ht; exact .inl rfl
  | ok _ v =>
    rw [hout] at ht; cases ht
    obtain ⟨heq, -⟩ := handleOutput_ok hout
    have hfr : v.fr = w.fr := (congrArg State.fr heq :)
    exact .inr (by rw [setFr_fr, hfr])

/-! ## The statements -/

/-- None of the nineteen commands has another effect than its output. -/
theorem not_mem_of_outputOnly {c : Cfg} {i : Instr}
    (hi : i ∈ [Instr.copy c, .get c, .load8 c, .load16 c, .cpuid c, .frget c, .bpget c, .spget c,
      .and c, .or c, .xor c, .not c, .signext c, .rol c, .ror c, .bswap c, .asr c, .lsl c, .lsr c]) :
    i.cfg = c ∧ i ∉ [Instr.bpset i.cfg, .halt i.cfg, .spset i.cfg] ∧
      i ∉ [Instr.setip i.cfg, .addip i.cfg] ∧
      i ∉ [Instr.set i.cfg, .store8 i.cfg, .store16 i.cfg] ∧
      i ∉ [Instr.div i.cfg, .mod i.cfg, .intr i.cfg] ∧
      i ∉ [Instr.add i.cfg, .sub i.cfg, .mul i.cfg, .frset i.cfg, .setip i.cfg, .addip i.cfg] := by
  simp only [List.mem_cons, List.not_mem_nil, or_false] at hi
  rcases hi with rfl | rfl | rfl | rfl | rfl | rfl | rfl | rfl | rfl | rfl | rfl | rfl | rfl | rfl |
    rfl | rfl | rfl | rfl | rfl <;> simp [Instr.cfg]

/-- Settles O35, register by register: an output is all that these commands have. -/
theorem outputOnlyCommandsFrame : Obligations.OutputOnlyCommandsFrame := by
  intro c s t i hi h
  obtain ⟨rfl, hregs, hjump, hstore, hir, hfr⟩ := not_mem_of_outputOnly hi
  simp only [List.mem_cons, List.not_mem_nil, or_false, not_or] at hregs
  obtain ⟨hbp, hhalt, hsp⟩ := hregs
  obtain ⟨hfrBits, hfrAll⟩ := exec_fr h hfr
  exact ⟨(exec_ip h hjump).imp_right eq_busCancelled_of_cancel, exec_bp h hbp, exec_halted h hhalt,
    exec_platform h, exec_pins h, exec_ir h hir, hfrBits, hfrAll, exec_sp h hsp,
    fun _ hx => exec_mem h hstore hsp hx⟩

/-- Settles O36, register by register: ADD, SUB and MUL write C, DIV and MOD may trigger ARITH. -/
theorem arithmeticCommandsFrame : Obligations.ArithmeticCommandsFrame := by
  intro c s t i hi h
  obtain ⟨rfl, hbp, hhalt, hsp, hintr, hstore, hdata⟩ : i.cfg = c ∧ i ≠ .bpset i.cfg ∧
      i ≠ .halt i.cfg ∧ i ≠ .spset i.cfg ∧ i ≠ .intr i.cfg ∧
      i ∉ [Instr.set i.cfg, .store8 i.cfg, .store16 i.cfg] ∧
      i ∉ [Instr.frset i.cfg, .setip i.cfg, .addip i.cfg] := by
    simp only [List.mem_cons, List.not_mem_nil, or_false] at hi
    rcases hi with rfl | rfl | rfl | rfl | rfl <;> simp [Instr.cfg]
  refine ⟨exec_bp h hbp, exec_halted h hhalt, exec_platform h, exec_pins h,
    fun n hn => exec_fr_bit h hdata (by omega) (.inl (by omega)),
    fun hflg n hn => exec_fr_bit h hdata hn (.inr hflg), fun hcarry => exec_ir h ?_,
    fun hdiv => ⟨exec_ir_arith h hintr, exec_carry h ?_⟩, exec_sp h hsp,
    fun _ hx => exec_mem h hstore hsp hx⟩
  · simp only [List.mem_cons, List.not_mem_nil, or_false] at hcarry
    rcases hcarry with hi | hi | hi <;> rw [hi] <;> simp
  · simp only [List.mem_cons, List.not_mem_nil, or_false] at hdiv
    rcases hdiv with hi | hi <;> rw [hi] <;> simp

/-- Settles O37: an instruction that ran stored at the address that its inputs name, and one that did not
run stored nothing. -/
theorem storeCommandsFrame : Obligations.StoreCommandsFrame := by
  intro c s t i hi h
  obtain ⟨rfl, hbp, hhalt, hsp, hjump, hir, hfr⟩ : i.cfg = c ∧ i ≠ .bpset i.cfg ∧
      i ≠ .halt i.cfg ∧ i ≠ .spset i.cfg ∧ i ∉ [Instr.setip i.cfg, .addip i.cfg] ∧
      i ∉ [Instr.div i.cfg, .mod i.cfg, .intr i.cfg] ∧
      i ∉ [Instr.add i.cfg, .sub i.cfg, .mul i.cfg, .frset i.cfg, .setip i.cfg, .addip i.cfg] := by
    simp only [List.mem_cons, List.not_mem_nil, or_false] at hi
    rcases hi with rfl | rfl | rfl <;> simp [Instr.cfg]
  obtain ⟨hfrBits, hfrAll⟩ := exec_fr h hfr
  refine ⟨exec_bp h hbp, exec_halted h hhalt, exec_platform h, exec_pins h, exec_ir h hir, hfrBits,
    hfrAll, exec_sp h hsp, (exec_ip h hjump).imp_right eq_busCancelled_of_cancel,
    exec_mem_of_skipped h, exec_mem_of_ip_eq h hjump,
    fun a b s0 s1 h0 h1 x hx hset hstore8 hstore16 => ?_, fun hnot => ?_⟩
  · rcases exec_mem_or_ran h with hmem | ⟨a', b', o, s0', s1', s2, hr⟩
    · rw [hmem]
    · obtain ⟨rfl, rfl⟩ := Res.ok.inj (hr.input0.symm.trans h0)
      obtain ⟨rfl, rfl⟩ := Res.ok.inj (hr.input1.symm.trans h1)
      rw [hr.frame x (by rwa [hr.effect.sp_eq hsp]),
        commandOf_store_mem hi hr.command hset hstore8 hstore16, hr.inputs.mem_eq, afterInputs_mem]
  · rcases exec_mem_or_ran h with hmem | ⟨a, b, o, s0, s1, s2, hr⟩
    · exact hmem
    · exact absurd hr.input1 (hnot a b s0 s1 hr.input0)

/-- Settles O38, register by register: each register has the command that writes it. -/
theorem registerCommandsFrame : Obligations.RegisterCommandsFrame := by
  intro c s t i hi h
  obtain ⟨rfl, hsp, hstore, hdiv, harith⟩ : i.cfg = c ∧ i ≠ .spset i.cfg ∧
      i ∉ [Instr.set i.cfg, .store8 i.cfg, .store16 i.cfg] ∧ i ∉ [Instr.div i.cfg, .mod i.cfg] ∧
      i ∉ [Instr.add i.cfg, .sub i.cfg, .mul i.cfg] := by
    simp only [List.mem_cons, List.not_mem_nil, or_false] at hi
    rcases hi with rfl | rfl | rfl | rfl | rfl | rfl <;> simp [Instr.cfg]
  refine ⟨exec_platform h, exec_pins h, exec_bp h, exec_halted h, fun hintr => exec_ir h ?_,
    fun hdata => exec_fr h ?_, exec_sp h hsp, fun _ hx => exec_mem h hstore hsp hx⟩
  · simp only [List.mem_cons, not_or] at hdiv ⊢
    tauto
  · simp only [List.mem_cons, not_or] at harith hdata ⊢
    tauto

/-- Settles O39: SPSET that ran has moved SP to `input0`, and its output is pushed from there. -/
theorem spsetFrame : Obligations.SpsetFrame := by
  intro c s t h
  obtain ⟨hfrBits, hfrAll⟩ := exec_fr h (by simp)
  have hcases : (t.sp = s.sp ∧ t.mem = s.mem) ∨
      ∃ a b o s0 s1 s2, Ran (.spset c) s a b o s0 s1 s2 t := by
    rcases exec_next h with ⟨-, rfl⟩ | ⟨-, u, rfl⟩ | hran
    · exact .inl ⟨rfl, rfl⟩
    · exact .inl ⟨rfl, rfl⟩
    · exact .inr hran
  refine ⟨exec_bp h nofun, exec_halted h nofun, exec_platform h, exec_pins h, exec_ir h (by simp),
    hfrBits, hfrAll, fun a s0 h0 => ?_, fun hnot => ?_⟩
  · rcases hcases with ⟨hsp, hmem⟩ | ⟨a', b, o, s0', s1, s2, hr⟩
    · exact ⟨.inl hsp, fun x _ => by rw [hmem]⟩
    · obtain ⟨rfl, rfl⟩ := Res.ok.inj (hr.input0.symm.trans h0)
      obtain ⟨-, -, rfl⟩ := cmdSpset_ok (b := b) hr.command
      refine ⟨.inr ?_, fun x hx => ?_⟩
      · rw [hr.sp_eq, setSp_sp]
        split
        · rw [if_pos ‹_›]
        · rw [if_neg ‹_›, BitVec.sub_zero]
      · rw [hr.frame x hx, setSp_mem, hr.inputs.mem_eq, afterInputs_mem]
  · rcases hcases with hsame | ⟨a, b, o, s0, s1, s2, hr⟩
    · exact hsame
    · exact absurd hr.input0 (hnot a s0)

/-- Settles O40: the flag step never touches C, and of the commands six write it. -/
theorem onlyArithmeticWritesCarry : Obligations.OnlyArithmeticWritesCarry := by
  refine ⟨fun i s t hi h => exec_carry h hi, fun c s t u a b h => ?_⟩
  have hcarry {i : Instr} {o : Word} {v : Bool} (h : Executes i.cfg s a b u)
      (hcmd : commandOf i a b u = .ok o (u.setFr (setC u.fr v))) (ht : exec i s = .next t) :
      t = busCancelled s t ∨ t.fr.getLsbD 2 = v := by
    refine (exec_after_command h hcmd ht).imp_right fun hfr => ?_
    rw [hfr, getLsbD_modifyFlags (Nat.le_refl 2), setFr_fr, getLsbD_setC, if_pos rfl]
  rw [← executes_fr h, ← executes_platform h]
  exact ⟨hcarry (i := .add c) h rfl, hcarry (i := .sub c) h rfl, hcarry (i := .mul c) h rfl⟩

/-- Settles O41: the commands but SETIP and ADDIP leave IP where the inputs have moved it. -/
theorem onlySetipAndAddipJump : Obligations.OnlySetipAndAddipJump := by
  intro i s t hi h
  refine (exec_ip h hi).imp_right fun hcancel => ⟨?_, hcancel⟩
  obtain ⟨u, rfl⟩ := hcancel
  rfl

/-- Settles O42: the effects that write a register belong to its own commands. -/
theorem specialRegistersHaveTheirWriters : Obligations.SpecialRegistersHaveTheirWriters := by
  intro i s t h
  refine ⟨exec_bp h, exec_halted h, fun n => ⟨exec_ir_mono h, fun hi h2 h4 => ?_⟩⟩
  rcases exec_ir_arith h hi with heq | ⟨-, heq⟩ | ⟨u, rfl⟩
  · rw [heq]
  · rw [heq, getLsbD_setBit true (by decide), if_neg h4]
  · rw [cancel_ir, getLsbD_setBit true (by decide), if_neg h2]

end Sys2Proof.Machine
end

section
/-! PROOF. Memory as the platform maps it: a stored word read back, and what every kind of region answers
(20_memory.md R61, R62, R69, R74). -/

namespace Sys2Proof.Machine

/-! ## A stored word read back -/

theorem memByte_memSetWord_low (m : Memory) (a v : Word) :
    memByte (memSetWord m a v) a.toNat = some (lowByte v) := by
  rw [memSetWord, memByte_memSetByte_other _ _ (toNat_ne_succ a), memByte_memSetByte_same]

theorem memByte_memSetWord_high (m : Memory) (a v : Word) :
    memByte (memSetWord m a v) (a + 1#16).toNat = some (highByte v) :=
  memByte_memSetByte_same _ _ _

theorem memWord_of_bytes {m : Memory} {a v : Word} (hlow : memByte m a.toNat = some (lowByte v))
    (hhigh : memByte m (a + 1#16).toNat = some (highByte v)) : memWord m a = some v := by
  simp only [memWord, hlow, hhigh, joinBytes_bytes]

/-- Where a word can be written both of its bytes can be read. -/
theorem readable_of_wordWritable {s : State} {a : Word} (h : wordWritable s a = true) :
    readable s a = true ∧ readable s (a + 1#16) = true := by
  simp only [wordWritable, Bool.and_eq_true] at h
  obtain ⟨⟨-, hlow⟩, hhigh⟩ := h
  simp only [readable, hlow, hhigh, Bool.true_or, and_self]

theorem readable_congr {s t : State} {a : Word} (hp : t.platform = s.platform) :
    readable t a = readable s a := by
  unfold readable kindAt
  rw [hp]

theorem plainWord_of_readable {s : State} {k : AccessKind} {a v : Word} (heven : isOdd a = false)
    (hbus : busSignalled s a .word k = false) (hlow : readable s a = true)
    (hhigh : readable s (a + 1#16) = true) (hmem : memWord s.mem a = some v) :
    plainWord s k a = some v := by
  rw [plainWord, heven, hbus, hlow, hhigh]
  exact hmem

theorem plainByte_of_readable {s : State} {a : Word} {b : Byte}
    (hbus : busSignalled s a .byte .read = false) (hread : readable s a = true)
    (hmem : memByte s.mem a.toNat = some b) : plainByte s a = some b := by
  rw [plainByte, hbus, hread]
  exact hmem

/-! ## What stands at the two bytes of a word -/

section
variable {s : State} {a : Word}

theorem wordTouches_iff {k : RegionKind} :
    wordTouches s a k = true ↔ kindAt s a.toNat = k ∨ kindAt s (a + 1#16).toNat = k := by
  rw [wordTouches, Bool.or_eq_true, beq_iff_eq, beq_iff_eq]

theorem wordTouches_eq_false {k : RegionKind} (hlow : kindAt s a.toNat ≠ k)
    (hhigh : kindAt s (a + 1#16).toNat ≠ k) : wordTouches s a k = false :=
  Bool.eq_false_iff.2 fun h => (wordTouches_iff.1 h).elim hlow hhigh

theorem cellRead_device {d : Byte} (h : kindAt s a.toNat = .device) : cellRead s d a = some d := by
  rw [cellRead, h]

theorem cellRead_memory {d : Byte} (h : kindAt s a.toNat = .ram ∨ kindAt s a.toNat = .rom) :
    cellRead s d a = memByte s.mem a.toNat := by
  rcases h with h | h <;> rw [cellRead, h]

/-- A byte that is no device's and holds no value is not read. -/
theorem cellRead_missing {d : Byte} (h : kindAt s a.toNat ≠ .device)
    (hmem : memByte s.mem a.toNat = none) : cellRead s d a = none := by
  unfold cellRead
  split
  · exact absurd ‹_› h
  · exact hmem
  · exact hmem
  · rfl

theorem readable_of_kind (h : kindAt s a.toNat = .ram ∨ kindAt s a.toNat = .rom) :
    readable s a = true := by
  rcases h with h | h <;> rw [readable, h] <;> rfl

theorem cellWrite_ram {m : Memory} {b : Byte} (h : kindAt s a.toNat = .ram) :
    cellWrite s m a b = memSetByte m a.toNat b := if_pos h

theorem cellWrite_device {m : Memory} {b : Byte} (h : kindAt s a.toNat = .device) :
    cellWrite s m a b = m := if_neg (by rw [h]; nofun)

/-! ## Word accesses that BUS does not answer -/

variable {k : AccessKind} {v : Word} (heven : isOdd a = false)

section
variable (hbus : busSignalled s a .word k = false)
include heven hbus

theorem readWord_of_unmapped (h : wordTouches s a .unmapped = true) :
    readWord k a s = .stop .unmapped := by
  simp only [readWord, heven, hbus, h, Bool.false_eq_true, if_false, if_true]

theorem readWord_of_missing (hmapped : wordTouches s a .unmapped = false)
    (h : (∀ d, cellRead s d a = none) ∨ ∀ d, cellRead s d (a + 1#16) = none) :
    readWord k a s = .stop .undefinedMemory := by
  simp only [readWord, heven, hbus, hmapped, Bool.false_eq_true, if_false]
  split
  · rename_i hlow hhigh
    rcases h with h | h
    · rw [h] at hlow; cases hlow
    · rw [h] at hhigh; cases hhigh
  · rfl

/-- A word of which a byte is a device's is a free value there, drawn and recorded once. -/
theorem readWord_of_device {low high : Byte} (hdev : wordTouches s a .device = true)
    (hlow : cellRead s (lowByte (Config.freeWord s.draws)) a = some low)
    (hhigh : cellRead s (highByte (Config.freeWord s.draws)) (a + 1#16) = some high) :
    readWord k a s = .ok (joinBytes high low) { s with
      draws := s.draws + 1
      device := ⟨a, .word, k, joinBytes high low⟩ :: s.device } := by
  have hread : readableWord s k a = some (joinBytes high low) := by
    simp only [readableWord, heven, hbus, hlow, hhigh, Bool.not_false, Bool.and_self, if_true]
  rw [readWord_of_readable hread, afterRead, if_pos hdev]
  rfl

end

section
variable (hbus : busSignalled s a .word .write = false)
include heven hbus

theorem writeWord_of_unmapped (h : wordTouches s a .unmapped = true) :
    writeWord a v s = .stop .unmapped := by
  simp only [writeWord, heven, hbus, h, Bool.false_eq_true, if_false, if_true]

theorem writeWord_of_rom (hmapped : wordTouches s a .unmapped = false)
    (h : wordTouches s a .rom = true) : writeWord a v s = .stop .romWrite := by
  simp only [writeWord, heven, hbus, hmapped, h, Bool.false_eq_true, if_false, if_true]

/-- A write that touches a device is recorded, and the bytes of RAM are stored. -/
theorem writeWord_of_device (hdev : wordTouches s a .device = true) (hlow : storable s a = true)
    (hhigh : storable s (a + 1#16) = true) :
    writeWord a v s = .ok () { s with
      mem := cellWrite s (cellWrite s s.mem a (lowByte v)) (a + 1#16) (highByte v)
      device := ⟨a, .word, .write, v⟩ :: s.device } := by
  have hwrite : wordStorable s a = true := by
    simp only [wordStorable, heven, hbus, hlow, hhigh, Bool.not_false, Bool.and_self]
  rw [writeWord_of_storable v hwrite, storedWord]
  simp only [hdev, if_true]
  rfl

end

theorem storable_of_kind (h : kindAt s a.toNat = .ram ∨ kindAt s a.toNat = .device) :
    storable s a = true := by
  rcases h with h | h <;> rw [storable, h] <;> rfl

/-! ## Byte accesses that BUS does not answer -/

/-- The low byte of a word, widened with zeros. -/
theorem zeroExtend_lowByte (w : Word) : (lowByte w).zeroExtend 16 = w &&& 0x00FF#16 := by
  apply BitVec.eq_of_getLsbD_eq
  intro j hj
  rw [lowByte, BitVec.getLsbD_setWidth, BitVec.getLsbD_extractLsb', BitVec.getLsbD_and]
  interval_cases j <;> simp

section
variable (hbus : busSignalled s a .byte .read = false)
include hbus

theorem cmdLoad8_of_unmapped (h : kindAt s a.toNat = .unmapped) :
    cmdLoad8 a v s = .stop .unmapped := by
  simp only [cmdLoad8, readByte, hbus, h, Bool.false_eq_true, if_false, andThen_stop]

theorem cmdLoad8_of_missing (h : kindAt s a.toNat = .ram ∨ kindAt s a.toNat = .rom)
    (hmem : memByte s.mem a.toNat = none) : cmdLoad8 a v s = .stop .undefinedMemory := by
  rcases h with h | h <;>
    simp only [cmdLoad8, readByte, hbus, h, hmem, Bool.false_eq_true, if_false, andThen_stop]

theorem cmdLoad8_of_memory {b : Byte} (h : kindAt s a.toNat = .ram ∨ kindAt s a.toNat = .rom)
    (hmem : memByte s.mem a.toNat = some b) :
    cmdLoad8 a v s = .ok (BitVec.ofNat 16 b.toNat) s := by
  rw [cmdLoad8, readByte_of_plainByte (plainByte_of_readable hbus (readable_of_kind h) hmem),
    andThen_ok, ofNat_toNat_byte]

theorem cmdLoad8_of_device (h : kindAt s a.toNat = .device) :
    cmdLoad8 a v s = .ok ((Config.freeWord s.draws) &&& 0x00FF#16) { s with
      draws := s.draws + 1
      device := ⟨a, .byte, .read, (Config.freeWord s.draws) &&& 0x00FF#16⟩ :: s.device } := by
  simp only [cmdLoad8, readByte, hbus, h, Bool.false_eq_true, if_false, andThen_ok,
    zeroExtend_lowByte]
  rfl

end

section
variable (hbus : busSignalled s a .byte .write = false)
include hbus

theorem cmdStore8_of_unmapped (h : kindAt s a.toNat = .unmapped) :
    cmdStore8 v a s = .stop .unmapped := by
  simp only [cmdStore8, writeByte, hbus, h, Bool.false_eq_true, if_false, andThen_stop]

theorem cmdStore8_of_rom (h : kindAt s a.toNat = .rom) : cmdStore8 v a s = .stop .romWrite := by
  simp only [cmdStore8, writeByte, hbus, h, Bool.false_eq_true, if_false, andThen_stop]

theorem cmdStore8_of_ram (h : kindAt s a.toNat = .ram) : cmdStore8 v a s =
    .ok (v &&& 0x00FF#16) { s with mem := memSetByte s.mem a.toNat (v.extractLsb' 0 8) } := by
  simp only [cmdStore8, writeByte, hbus, h, Bool.false_eq_true, if_false, andThen_ok]
  rfl

theorem cmdStore8_of_device (h : kindAt s a.toNat = .device) : cmdStore8 v a s =
    .ok (v &&& 0x00FF#16)
      { s with device := ⟨a, .byte, .write, v &&& 0x00FF#16⟩ :: s.device } := by
  simp only [cmdStore8, writeByte, hbus, h, Bool.false_eq_true, if_false, andThen_ok,
    zeroExtend_lowByte]
  rfl

end

end

/-! ## The statements -/

/-- Settles O43: while the two bytes stand, the word is plain memory that reads as what was written. -/
theorem writtenWordIsReadBack : Obligations.WrittenWordIsReadBack := by
  intro s a v h
  refine ⟨_, writeWord_of_writable v h, fun u hp hlow hhigh => ?_⟩
  obtain ⟨hreadLow, hreadHigh⟩ := readable_of_wordWritable h
  rw [← readable_congr (s := s) (t := u) hp] at hreadLow hreadHigh
  rw [setMem_mem, memByte_memSetWord_low] at hlow
  rw [setMem_mem, memByte_memSetWord_high] at hhigh
  refine ⟨fun k hbus => ?_, fun hbus => ?_, fun hbus => ?_⟩
  · exact readWord_of_plainWord (plainWord_of_readable (even_of_wordWritable h) hbus hreadLow
      hreadHigh (memWord_of_bytes hlow hhigh))
  · exact readByte_of_plainByte (plainByte_of_readable hbus hreadLow hlow)
  · exact readByte_of_plainByte (plainByte_of_readable hbus hreadHigh hhigh)

/-- Settles O45, clause by clause: the kinds of the bytes decide what an access finds. -/
theorem regionsAnswerAsMapped : Obligations.RegionsAnswerAsMapped := by
  constructor
  · intro s a v heven hbus
    dsimp only
    refine ⟨fun h => ?_, fun hlow hhigh h => ?_, fun hlow hhigh h k => ?_, fun hlow hhigh k x hx => ?_,
      fun hlow hhigh => ?_, fun hlow hhigh k h hmem => ?_, fun hlow hhigh k l hmem => ?_,
      fun hlow hhigh => ?_, fun hlow hhigh => ?_⟩
    · exact ⟨fun k => readWord_of_unmapped heven (hbus k) (wordTouches_iff.2 h),
        writeWord_of_unmapped heven (hbus .write) (wordTouches_iff.2 h)⟩
    · exact writeWord_of_rom heven (hbus .write) (wordTouches_eq_false hlow hhigh)
        (wordTouches_iff.2 h)
    · exact readWord_of_missing heven (hbus k) (wordTouches_eq_false hlow hhigh)
        (h.imp (fun h _ => cellRead_missing h.1 h.2) fun h _ => cellRead_missing h.1 h.2)
    · exact readWord_of_plainWord (plainWord_of_readable heven (hbus k) (readable_of_kind hlow)
        (readable_of_kind hhigh) hx)
    · have hdev := wordTouches_iff.2 (.inl hlow)
      refine ⟨fun k => ?_, ?_⟩
      · have hread := readWord_of_device heven (hbus k) hdev (cellRead_device hlow)
          (cellRead_device hhigh)
        rwa [joinBytes_bytes] at hread
      · rw [writeWord_of_device heven (hbus .write) hdev (storable_of_kind (.inr hlow))
          (storable_of_kind (.inr hhigh)), cellWrite_device hhigh, cellWrite_device hlow]
    · exact readWord_of_device heven (hbus k) (wordTouches_iff.2 (.inl hlow)) (cellRead_device hlow)
        ((cellRead_memory hhigh).trans hmem)
    · exact readWord_of_device heven (hbus k) (wordTouches_iff.2 (.inr hhigh))
        ((cellRead_memory hlow).trans hmem) (cellRead_device hhigh)
    · rw [writeWord_of_device heven (hbus .write) (wordTouches_iff.2 (.inl hlow))
        (storable_of_kind (.inr hlow)) (storable_of_kind (.inl hhigh)), cellWrite_ram hhigh,
        cellWrite_device hlow]
      rfl
    · rw [writeWord_of_device heven (hbus .write) (wordTouches_iff.2 (.inr hhigh))
        (storable_of_kind (.inl hlow)) (storable_of_kind (.inr hhigh)), cellWrite_device hhigh,
        cellWrite_ram hlow]
      rfl
  · intro s a v
    dsimp only
    exact ⟨fun hbus => ⟨cmdLoad8_of_unmapped hbus, cmdLoad8_of_missing hbus,
        fun h _ hmem => cmdLoad8_of_memory hbus h hmem, cmdLoad8_of_device hbus⟩,
      fun hbus => ⟨cmdStore8_of_unmapped hbus, cmdStore8_of_rom hbus, cmdStore8_of_ram hbus,
        cmdStore8_of_device hbus⟩⟩

end Sys2Proof.Machine
end

section
/-! PROOF. A BUS answer to any access of an instruction cancels it (60_exceptions.md R264). -/

namespace Sys2Proof.Machine

/-! ## The command does not depend on the configuration -/

theorem commandOf_ofCmd (b : BitVec 6) (c c' : Cfg) :
    commandOf (Instr.ofCmd b c) = commandOf (Instr.ofCmd b c') := by
  obtain ⟨⟨n, hn⟩⟩ := b
  interval_cases n <;> rfl

/-- Instructions of one command value have one command. -/
theorem commandOf_congr {i j : Instr} (h : j.cmd = i.cmd) : commandOf j = commandOf i := by
  rw [← ofCmd_cmd_cfg j, h, commandOf_ofCmd _ j.cfg i.cfg, ofCmd_cmd_cfg]

/-! ## Accesses that BUS answers -/

theorem busSignalled_congr {s t : State} {a : Word} {w : Width} {k : AccessKind}
    (hp : t.platform = s.platform) : busSignalled t a w k = busSignalled s a w k := by
  unfold busSignalled
  rw [hp]

section
variable {s : State} {a v : Word}

theorem readWord_of_bus {k : AccessKind} (heven : isOdd a = false)
    (hbus : busSignalled s a .word k = true) : readWord k a s = .bus s := by
  simp only [readWord, heven, hbus, Bool.false_eq_true, if_false, if_true]

theorem writeWord_of_bus (heven : isOdd a = false) (hbus : busSignalled s a .word .write = true) :
    writeWord a v s = .bus s := by
  simp only [writeWord, heven, hbus, Bool.false_eq_true, if_false, if_true]

theorem readByte_of_bus (hbus : busSignalled s a .byte .read = true) : readByte a s = .bus s := by
  simp only [readByte, hbus, if_true]

theorem writeByte_of_bus {b : Byte} (hbus : busSignalled s a .byte .write = true) :
    writeByte a b s = .bus s := by
  simp only [writeByte, hbus, if_true]

theorem push_of_bus (heven : isOdd s.sp = false)
    (hbus : busSignalled s (s.sp - 2#16) .word .write = true) :
    push v s = .bus (s.setSp (s.sp - 2#16)) :=
  writeWord_of_bus (s := s.setSp (s.sp - 2#16)) (by rw [isOdd_sub_two, heven]) hbus

theorem fetchInput_imm_of_bus (heven : isOdd s.ip = false)
    (hbus : busSignalled s s.ip .word .fetch = true) : fetchInput .imm s = .bus s := by
  rw [fetchInput, readWord_of_bus heven hbus, andThen_bus]

theorem fetchInput_stack_of_bus {k : Input} (hk : k = .peek ∨ k = .pop) (heven : isOdd s.sp = false)
    (hbus : busSignalled s s.sp .word .read = true) : fetchInput k s = .bus s := by
  rcases hk with rfl | rfl
  · exact readWord_of_bus heven hbus
  · rw [fetchInput, pop, readWord_of_bus heven hbus, andThen_bus]

end

/-! ## An instruction up to its output -/

/-- The inputs and the command of an executed instruction, without its output and the flag step. -/
def evaluate (c : Cfg) (cmd : Command) (s : State) : Res Word :=
  (fetchInput c.in0 s).andThen fun a s0 => (fetchInput c.in1 s0).andThen fun b s1 => cmd a b s1

theorem andThen_assoc {α β γ : Type} (r : Res α) (k : α → State → Res β) (l : β → State → Res γ) :
    (r.andThen k).andThen l = r.andThen fun a s => (k a s).andThen l := by
  cases r <;> rfl

theorem runBody_eq_evaluate (c : Cfg) (cmd : Command) (s : State) :
    runBody c cmd s = (evaluate c cmd s).andThen fun o s2 =>
      (handleOutput c.out o s2).andThen fun _ s3 =>
        .ok () (s3.setFr (modifyFlags c.flg o s3.fr)) := by
  simp only [runBody, evaluate, andThen_assoc]

section
variable {i : Instr} {s u : State} (hc : condHolds i.cfg.cond s.fr = true)
include hc

theorem exec_of_cond : exec i s =
    settle s ((evaluate i.cfg (commandOf i) (s.setIp (s.ip + 2#16))).andThen fun o s2 =>
      (handleOutput i.cfg.out o s2).andThen fun _ s3 =>
        .ok () (s3.setFr (modifyFlags i.cfg.flg o s3.fr))) := by
  rw [exec_eq, instruction, runOrSkip, setIp_fr, if_pos hc, runBody_eq_evaluate]

theorem exec_of_evaluate_bus (h : evaluate i.cfg (commandOf i) (s.setIp (s.ip + 2#16)) = .bus u) :
    exec i s = .next (cancel s u) := by
  rw [exec_of_cond hc, h, andThen_bus, settle]

theorem exec_of_input0_bus (h : fetchInput i.cfg.in0 (s.setIp (s.ip + 2#16)) = .bus u) :
    exec i s = .next (cancel s u) :=
  exec_of_evaluate_bus hc (by rw [evaluate, h, andThen_bus])

theorem exec_of_input1_bus {a : Word} (h0 : takeInput i.cfg.in0 (s.setIp (s.ip + 2#16)) = some (a, u))
    (h1 : fetchInput i.cfg.in1 u = .bus u) : exec i s = .next (cancel s u) :=
  exec_of_evaluate_bus hc (by rw [evaluate, fetchInput_of_take h0, andThen_ok, h1, andThen_bus])

/-- An instruction that pushes, where the same one without the push ended in `t`: if the push is answered
with BUS, it is cancelled with what the environment was asked and told by then. -/
theorem exec_of_push_bus {j : Instr} {t : State} (hout : i.cfg.out = true) (hcmd : j.cmd = i.cmd)
    (hcfg : j.cfg = { i.cfg with out := false }) (hj : exec j s = .next t)
    (heven : isOdd t.sp = false) (hbus : busSignalled s (t.sp - 2#16) .word .write = true) :
    exec i s = .next (busCancelled s t) := by
  have hplatform := exec_platform hj
  have heval : evaluate j.cfg (commandOf j) = evaluate i.cfg (commandOf i) := by
    rw [commandOf_congr hcmd, hcfg]
    rfl
  have hcj : condHolds j.cfg.cond s.fr = true := by rw [hcfg]; exact hc
  rw [exec_of_cond hcj, heval] at hj
  cases he : evaluate i.cfg (commandOf i) (s.setIp (s.ip + 2#16)) with
  | stop f => rw [he] at hj; cases hj
  | bus u =>
    rw [he] at hj; cases hj
    rw [exec_of_evaluate_bus hc he, cancel_eq_busCancelled]
    rfl
  | ok o w =>
    have houtj : j.cfg.out = false := by rw [hcfg]
    rw [he, houtj] at hj; cases hj
    have hpush : handleOutput i.cfg.out o w = .bus (w.setSp (w.sp - 2#16)) := by
      rw [hout]
      exact push_of_bus heven ((busSignalled_congr hplatform).trans hbus)
    rw [exec_of_cond hc, he, andThen_ok, hpush, andThen_bus]
    rfl

end

/-! ## The accesses of the commands -/

section
variable {s t : State} {a b : Word} (hp : t.platform = s.platform)
include hp

theorem cmdGet_of_bus (hbp : t.bp = s.bp) (heven : isOdd s.bp = false)
    (hbus : busSignalled s (s.bp + 2#16 * a) .word .read = true) : cmdGet a b t = .bus t := by
  rw [← hbp] at heven hbus
  exact readWord_of_bus ((isOdd_frameAddr t.bp a).trans heven) ((busSignalled_congr hp).trans hbus)

theorem cmdSet_of_bus (hbp : t.bp = s.bp) (heven : isOdd s.bp = false)
    (hbus : busSignalled s (s.bp + 2#16 * a) .word .write = true) : cmdSet a b t = .bus t := by
  rw [← hbp] at heven hbus
  rw [cmdSet, writeWord_of_bus ((isOdd_frameAddr t.bp a).trans heven)
    ((busSignalled_congr hp).trans hbus), andThen_bus]

theorem cmdStore8_of_bus (hbus : busSignalled s b .byte .write = true) :
    cmdStore8 a b t = .bus t := by
  rw [cmdStore8, writeByte_of_bus ((busSignalled_congr hp).trans hbus), andThen_bus]

theorem cmdStore16_of_bus (heven : isOdd b = false) (hbus : busSignalled s b .word .write = true) :
    cmdStore16 a b t = .bus t := by
  rw [cmdStore16, writeWord_of_bus heven ((busSignalled_congr hp).trans hbus), andThen_bus]

theorem cmdLoad8_of_bus (hbus : busSignalled s a .byte .read = true) : cmdLoad8 a b t = .bus t := by
  rw [cmdLoad8, readByte_of_bus ((busSignalled_congr hp).trans hbus), andThen_bus]

theorem cmdLoad16_of_bus (heven : isOdd a = false) (hbus : busSignalled s a .word .read = true) :
    cmdLoad16 a b t = .bus t :=
  readWord_of_bus heven ((busSignalled_congr hp).trans hbus)

end

/-- An opcode fetch that BUS answers. -/
theorem fetchOpcode_of_bus {s : State} (heven : isOdd s.ip = false)
    (hbus : busSignalled s s.ip .word .fetch = true) : fetchOpcode s = .bus s := by
  rw [fetchOpcode, readWord_of_bus heven hbus, andThen_bus]

/-! ## The statement -/

/-- Settles O46, access by access: the first one that BUS answers ends the instruction. -/
theorem busAnswerCancelsInstruction : Obligations.BusAnswerCancelsInstruction := by
  constructor
  · intro i s hc
    refine ⟨fun hk heven hbus => ?_, fun hk heven hbus => ?_, fun a u h0 => ?_, fun a b t htake => ?_,
      fun j t => exec_of_push_bus hc⟩
    · refine exec_of_input0_bus hc (u := s.setIp (s.ip + 2#16)) ?_
      rw [hk]
      exact fetchInput_imm_of_bus (by rw [setIp_ip, isOdd_add_two, heven]) hbus
    · exact exec_of_input0_bus hc (u := s.setIp (s.ip + 2#16)) (fetchInput_stack_of_bus hk heven hbus)
    · have hp : u.platform = s.platform := (fetchInput_ok (fetchInput_of_take h0)).platform_eq
      refine ⟨fun hk heven hbus => exec_of_input1_bus hc h0 ?_, fun hk heven hbus =>
        exec_of_input1_bus hc h0 (fetchInput_stack_of_bus hk heven ((busSignalled_congr hp).trans hbus))⟩
      rw [hk]
      exact fetchInput_imm_of_bus heven ((busSignalled_congr hp).trans hbus)
    · have hex : Executes i.cfg s a b t := ⟨hc, htake⟩
      have hp := executes_platform hex
      have hbp := executes_bp hex
      refine ⟨fun hi heven hbus => exec_cancels hex ?_, fun hi heven hbus => exec_cancels hex ?_,
        fun hi hbus => exec_cancels hex ?_, fun hi heven hbus => exec_cancels hex ?_,
        fun hi hbus => exec_cancels hex ?_, fun hi heven hbus => exec_cancels hex ?_⟩ <;> rw [hi]
      · exact cmdGet_of_bus (b := b) hp hbp heven hbus
      · exact cmdSet_of_bus hp hbp heven hbus
      · exact cmdStore8_of_bus hp hbus
      · exact cmdStore16_of_bus hp heven hbus
      · exact cmdLoad8_of_bus (b := b) hp hbus
      · exact cmdLoad16_of_bus (b := b) hp heven hbus
  · intro s t hb hh heven hbus
    rw [step_of_boundary hb hh, fetchOpcode_of_bus heven hbus]
    rfl

end Sys2Proof.Machine
end

section
/-! PROOF. The boundary phase: the pins, the dispatch loop and the reset sequences (60_exceptions.md R262
to R278; 70_reset_and_hazards.md R321, R323), and the step behind it (40_execution_model.md R120). -/

namespace Sys2Proof.Machine

/-! ## The step by its boundary phase -/

theorem step_of_boundary_stop {s : State} {f : Fault} (h : boundary s = .stop f) :
    step s = .fault f := by
  simp only [step, h]

theorem step_of_boundary_halted {s t : State} (h : boundary s = .ok () t) (hh : t.halted = true) :
    step s = .next t := by
  simp only [step, h, hh, if_true]

theorem fetchOpcode_of_plainWord {s : State} {w : Word} {i : Instr}
    (h : plainWord s .fetch s.ip = some w) (hd : decodeWord w = .ok i) :
    fetchOpcode s = .ok i s := by
  rw [fetchOpcode, readWord_of_plainWord h, andThen_ok]
  simp only [hd]

theorem fetchOpcode_of_bit15 {s : State} {w : Word} (h : plainWord s .fetch s.ip = some w)
    (hw : w.getLsbD 15 = true) : fetchOpcode s = .stop .reservedBit15 := by
  have hd : decodeWord w = .error .reservedBit15 := if_pos hw
  rw [fetchOpcode, readWord_of_plainWord h, andThen_ok]
  simp only [hd]

/-! ## The pins -/

/-- The boundary of the `MarkII` is the dispatch after the pins have acted. -/
theorem boundary_eq_noBus {s : State} (hv : s.platform.variant = .markII) :
    boundary s = noBus (boundaryMarkII (samplePins (pinsNow s) (s.setPins s.pins.tail))) := by
  simp only [boundary, hv]

theorem pinsNow_nil {s : State} (h : s.pins = []) : pinsNow s = noPins := by
  rw [pinsNow, h]
  rfl

theorem pinsNow_cons {s : State} {p : Pins} {rest : List Pins} (h : s.pins = p :: rest) :
    pinsNow s = p := by
  rw [pinsNow, h]
  rfl

theorem setPins_self {s : State} {ps : List Pins} (h : s.pins = ps) : s.setPins ps = s := by
  rw [← h]
  rfl

/-- With no signal the boundary of the `MarkII` is the dispatch alone. -/
theorem boundary_of_no_pins {s : State} (hv : s.platform.variant = .markII) (hp : s.pins = []) :
    boundary s = noBus (boundaryMarkII s) := by
  rw [boundary_eq_noBus hv, pinsNow_nil hp, samplePins_noPins, setPins_self (by rw [hp]; rfl)]

theorem getLsbD_trigger {n : Nat} (hn : n < 16) (s : State) (i : Nat) :
    (trigger n s).ir.getLsbD i =
      (s.ir.getLsbD i || (i == n && (decide (n < 4) || s.fr.getLsbD n))) := by
  by_cases h : n < 4 ∨ s.fr.getLsbD n = true
  · have hopen : (decide (n < 4) || s.fr.getLsbD n) = true := by simpa using h
    rw [trigger_of_unmasked h, setIr_ir, getLsbD_setBit true hn, hopen, Bool.and_true]
    by_cases hi : i = n <;> simp [hi]
  · have hmasked : (decide (n < 4) || s.fr.getLsbD n) = false := by simpa using h
    rw [trigger_of_masked h, hmasked, Bool.and_false, Bool.or_false]

theorem trigger_fr (n : Nat) (s : State) : (trigger n s).fr = s.fr := by
  unfold trigger
  split <;> rfl

/-- The pending bits after the pins have acted (R262, R263, R267). -/
theorem getLsbD_samplePins (p : Pins) (s : State) (i : Nat) :
    (samplePins p s).ir.getLsbD i = (s.ir.getLsbD i || (i == 0 && p.rst) || (i == 1 && p.nmi) ||
      (i == 7 && p.irq && s.fr.getLsbD 7)) := by
  have hpin {n : Nat} (hn : n < 16) (b : Bool) (u : State) :
      (if b then trigger n u else u).ir.getLsbD i =
        (u.ir.getLsbD i || (i == n && b && (decide (n < 4) || u.fr.getLsbD n))) ∧
      (if b then trigger n u else u).fr = u.fr := by
    cases b with
    | false => simp
    | true => exact ⟨by rw [if_pos rfl, getLsbD_trigger hn, Bool.and_true], trigger_fr n u⟩
  obtain ⟨hbit0, hfr0⟩ := hpin (n := 0) (by decide) p.rst s
  obtain ⟨hbit1, hfr1⟩ := hpin (n := 1) (by decide) p.nmi (if p.rst then trigger 0 s else s)
  obtain ⟨hbit7, -⟩ := hpin (n := 7) (by decide) p.irq
    (if p.nmi then trigger 1 (if p.rst then trigger 0 s else s) else if p.rst then trigger 0 s else s)
  rw [samplePins, hbit7, hbit1, hbit0, hfr1, hfr0]
  simp

/-- A pending bit set under a condition. -/
theorem getLsbD_ite_bitWord {n : Nat} (hn : n < 16) (b : Bool) (i : Nat) :
    (if b then bitWord n else 0#16).getLsbD i = (i == n && b) := by
  cases b with
  | false => simp
  | true => rw [if_pos rfl, getLsbD_bitWord hn, Bool.and_true, beq_eq_decide]

/-- Pins that can request nothing leave no trace (R266). -/
theorem samplePins_of_masked {p : Pins} {s : State} (hrst : p.rst = false) (hnmi : p.nmi = false)
    (hirq : p.irq = true → s.fr.getLsbD 7 = false) : samplePins p s = s := by
  rw [samplePins, hrst, hnmi]
  cases h : p.irq with
  | false => rfl
  | true => exact trigger_of_masked (s := s) (by rw [hirq h]; decide)

/-! ## The dispatch loop -/

section
variable {n : Nat} {s : State}

theorem serve_of_clear (h : s.ir.getLsbD n = false) : serve n s = .ok () s := by
  rw [serve, if_neg (by rw [h]; exact Bool.false_ne_true)]

theorem serve_of_taken (h : s.ir.getLsbD n = true) (hm : n < 4 ∨ s.fr.getLsbD n = true) :
    serve n s = enterInterrupt n (s.setIr (setBit s.ir n false)) := by
  rw [serve, if_pos h]
  exact if_pos hm

theorem serve_of_masked (h : s.ir.getLsbD n = true) (hm : 4 ≤ n ∧ s.fr.getLsbD n = false) :
    serve n s = .ok () (s.setIr (setBit s.ir n false)) := by
  rw [serve, if_pos h]
  exact if_neg (by simp [hm])

/-- The loop passes over the bits that are not pending. -/
theorem dispatchDown_skip {k : Nat} (hk : k ≤ n)
    (h : ∀ i, k < i → i ≤ n → s.ir.getLsbD i = false) : dispatchDown n s = dispatchDown k s := by
  induction n, hk using Nat.le_induction with
  | base => rfl
  | succ n hkn ih =>
    rw [dispatchDown, serve_of_clear (h (n + 1) (by omega) (Nat.le_refl _)), andThen_ok]
    exact ih fun i hi hin => h i hi (by omega)

/-- Masked requests are cleared and nothing else happens (R278). -/
theorem dispatchDown_of_masked (h : ∀ i, s.ir.getLsbD i = true → 4 ≤ i ∧ s.fr.getLsbD i = false)
    (hn : n < 16) : ∃ w, dispatchDown n s = .ok () (s.setIr w) := by
  induction n generalizing s with
  | zero => exact ⟨s.ir, rfl⟩
  | succ n ih =>
    rw [dispatchDown]
    cases hbit : s.ir.getLsbD (n + 1) with
    | false =>
      rw [serve_of_clear hbit, andThen_ok]
      exact ih h (by omega)
    | true =>
      rw [serve_of_masked hbit (h _ hbit), andThen_ok]
      refine ih (s := s.setIr (setBit s.ir (n + 1) false)) (fun i hi => h i ?_) (by omega)
      rw [setIr_ir, getLsbD_setBit false hn] at hi
      split at hi
      · cases hi
      · exact hi

end

/-- With no reset requested the dispatch of the `MarkII` is the loop. -/
theorem boundaryMarkII_of_no_reset {s : State} (h : s.ir.getLsbD 0 = false) :
    boundaryMarkII s = dispatchDown 15 s := by
  rw [boundaryMarkII, if_neg (by rw [h]; exact Bool.false_ne_true), andThen_ok]

/-- One request alone, not masked, is that interrupt taken. -/
theorem boundaryMarkII_of_single {n : Nat} {s : State} (h1 : 1 ≤ n) (hn : n < 16) (hir : s.ir = 0#16)
    (hm : n < 4 ∨ s.fr.getLsbD n = true) :
    boundaryMarkII (s.setIr (bitWord n)) = enterInterrupt n s := by
  have hbit (i : Nat) : (s.setIr (bitWord n)).ir.getLsbD i = decide (i = n) := getLsbD_bitWord hn
  obtain ⟨k, rfl⟩ : ∃ k, n = k + 1 := ⟨n - 1, by omega⟩
  have hclear : setBit (bitWord (k + 1)) (k + 1) false = 0#16 := by
    apply BitVec.eq_of_getLsbD_eq
    intro i _
    rw [getLsbD_setBit false hn, getLsbD_bitWord hn, BitVec.getLsbD_zero]
    split
    · rfl
    · simpa
  have hserve : serve (k + 1) (s.setIr (bitWord (k + 1))) = enterInterrupt (k + 1) s := by
    rw [serve_of_taken (s := s.setIr (bitWord (k + 1))) (by rw [hbit]; simp) hm, setIr_ir, hclear,
      ← hir]
    rfl
  rw [boundaryMarkII_of_no_reset (by rw [hbit]; simp),
    dispatchDown_skip (k := k + 1) (by omega) fun i hi _ => by rw [hbit]; simp; omega, dispatchDown,
    hserve]
  cases he : enterInterrupt (k + 1) s with
  | stop f => rfl
  | bus u => rfl
  | ok _ u =>
    obtain ⟨-, -, heq, -⟩ := enterInterrupt_ok he
    have hu : u.ir = 0#16 := (congrArg State.ir heq).trans hir
    exact dispatchDown_of_clear (fun i _ => by rw [hu]; exact BitVec.getLsbD_zero) k

/-! ## The reset sequence of the `MarkII` -/

section
variable {s : State} {v : Word} (h0 : s.ir.getLsbD 0 = true)
include h0

theorem boundaryMarkII_of_reset (hv : plainWord s .fetch 0#16 = some v) (heven : isOdd v = false) :
    boundaryMarkII s = .ok () ((resetRegisters (s.setIp v)).setIr 0#16) := by
  rw [boundaryMarkII, if_pos h0, resetMarkII_of_plainWord hv, writeIp_of_even heven, andThen_ok,
    andThen_ok]
  exact dispatchDown_of_clear (fun i _ => BitVec.getLsbD_zero) 15

theorem boundaryMarkII_of_odd_vector (hv : plainWord s .fetch 0#16 = some v)
    (hodd : isOdd v = true) : boundaryMarkII s = .stop .oddPointer := by
  rw [boundaryMarkII, if_pos h0, resetMarkII_of_plainWord hv, writeIp_of_odd hodd, andThen_stop,
    andThen_stop]

theorem boundaryMarkII_of_vector_bus (hbus : busSignalled s 0#16 .word .fetch = true) :
    boundaryMarkII s = .bus s := by
  rw [boundaryMarkII, if_pos h0, resetMarkII, readWord_of_bus isOdd_zero hbus, andThen_bus,
    andThen_bus]

end

/-- IR[0] or the pin RST requests the reset. -/
theorem reset_requested {s : State} (h : s.ir.getLsbD 0 = true ∨ (pinsNow s).rst = true) :
    (samplePins (pinsNow s) (s.setPins s.pins.tail)).ir.getLsbD 0 = true := by
  rw [getLsbD_samplePins]
  rcases h with h | h
  · rw [setPins_ir, h]
    rfl
  · rw [h]
    simp

/-! ## IR and the accesses -/

/-- A result with IR replaced in the state that it holds. -/
def Res.setIr {α : Type} (r : Res α) (w : Word) : Res α :=
  match r with
  | .ok a s => .ok a (s.setIr w)
  | .bus s => .bus (s.setIr w)
  | .stop f => .stop f

/-- An operation neither reads nor writes IR. -/
def IgnoresIr {α : Type} (op : State → Res α) : Prop :=
  ∀ s w, op (s.setIr w) = (op s).setIr w

theorem ignoresIr_ok {α : Type} {a : State → α} {f : State → State}
    (ha : ∀ s w, a (s.setIr w) = a s) (hf : ∀ s w, f (s.setIr w) = (f s).setIr w) :
    IgnoresIr fun s => .ok (a s) (f s) := fun s w => by
  show Res.ok (a (s.setIr w)) (f (s.setIr w)) = .ok (a s) ((f s).setIr w)
  rw [ha, hf]

theorem ignoresIr_andThen {α β : Type} {op : State → Res α} {k : α → State → Res β}
    (hop : IgnoresIr op) (hk : ∀ a, IgnoresIr (k a)) : IgnoresIr fun s => (op s).andThen k := by
  intro s w
  show (op (s.setIr w)).andThen k = ((op s).andThen k).setIr w
  rw [hop s w]
  cases op s with
  | ok a t => exact hk a t w
  | bus t => rfl
  | stop f => rfl

theorem readWord_ignoresIr (k : AccessKind) (a : Word) : IgnoresIr (readWord k a) := by
  intro s w
  have hcell (d : Byte) (x : Word) : cellRead (s.setIr w) d x = cellRead s d x := rfl
  have htouch (x : RegionKind) : wordTouches (s.setIr w) a x = wordTouches s a x := rfl
  have hbus : busSignalled (s.setIr w) a .word k = busSignalled s a .word k := rfl
  simp only [readWord, hcell, htouch, hbus, setIr_draws]
  repeat' split
  all_goals rfl

theorem writeWord_ignoresIr (a v : Word) : IgnoresIr (writeWord a v) := by
  intro s w
  have hcell (m : Memory) (x : Word) (b : Byte) :
      cellWrite (s.setIr w) m x b = cellWrite s m x b := rfl
  have htouch (x : RegionKind) : wordTouches (s.setIr w) a x = wordTouches s a x := rfl
  have hbus : busSignalled (s.setIr w) a .word .write = busSignalled s a .word .write := rfl
  simp only [writeWord, hcell, htouch, hbus, setIr_mem]
  repeat' split
  all_goals rfl

theorem push_ignoresIr (v : Word) : IgnoresIr (push v) :=
  fun s w => writeWord_ignoresIr (s.sp - 2#16) v (s.setSp (s.sp - 2#16)) w

theorem writeIp_ignoresIr (v : Word) : IgnoresIr (writeIp v) := by
  intro s w
  unfold writeIp
  split <;> rfl

/-- Taking an interrupt does not depend on what else is pending. -/
theorem enterInterrupt_ignoresIr (n : Nat) : IgnoresIr (enterInterrupt n) :=
  ignoresIr_andThen (push_ignoresIr _) fun _ =>
    ignoresIr_andThen (fun s w => push_ignoresIr s.ip s w) fun _ =>
    ignoresIr_andThen (readWord_ignoresIr _ _) fun v =>
    ignoresIr_andThen (writeIp_ignoresIr v) fun _ =>
    ignoresIr_ok (fun _ _ => rfl) fun _ _ => rfl

/-! ## A BUS answer behind the entries above -/

/-- A turn of the loop does the same, whatever lower requests are pending. -/
theorem serve_setIr {n : Nat} (hn : n < 16) {s t : State} {w : Word}
    (hw : w.getLsbD n = s.ir.getLsbD n) (h : serve n s = .ok () t) :
    serve n (s.setIr w) = .ok () (t.setIr (setBit w n false)) := by
  rcases serve_ok h with ⟨h0, rfl⟩ | ⟨h1, h4, hfr, rfl⟩ | ⟨h1, hm, he⟩
  · have hsame : setBit w n false = w := by
      apply BitVec.eq_of_getLsbD_eq
      intro i _
      rw [getLsbD_setBit false hn]
      split
      · rename_i hi
        rw [hi, hw, h0]
      · rfl
    rw [serve_of_clear (s := t.setIr w) (hw.trans h0), hsame]
  · exact serve_of_masked (s := s.setIr w) (hw.trans h1) ⟨h4, hfr⟩
  · rw [serve_of_taken (s := s.setIr w) (hw.trans h1) hm]
    have hignore := enterInterrupt_ignoresIr n (s.setIr (setBit s.ir n false)) (setBit w n false)
    rw [he] at hignore
    exact hignore

/-- If the loop over the requests above `n` alone completes in `t`, the loop over all of them comes to
interrupt `n` in `t`, with the requests from `n` down still pending. -/
theorem dispatchDown_above {n m : Nat} (hnm : n ≤ m) (hm : m < 16) {s t : State} {w : Word}
    (hlow : ∀ i, 1 ≤ i → i ≤ n → s.ir.getLsbD i = false)
    (hw : ∀ i, n < i → w.getLsbD i = s.ir.getLsbD i) (h : dispatchDown m s = .ok () t) :
    ∃ w', dispatchDown m (s.setIr w) = dispatchDown n (t.setIr w') ∧
      ∀ i, i ≤ n → w'.getLsbD i = w.getLsbD i := by
  induction m, hnm using Nat.le_induction generalizing s w with
  | base =>
    rw [dispatchDown_skip (k := 0) (Nat.zero_le n) fun i hi => hlow i hi] at h
    cases h
    exact ⟨w, rfl, fun _ _ => rfl⟩
  | succ m hnm ih =>
    obtain ⟨_, u, h1, h2⟩ := andThen_eq_ok.1 h
    have hir := serve_ir hm h1
    obtain ⟨w', heq, hw'⟩ := ih (by omega) (s := u) (w := setBit w (m + 1) false)
      (fun i hi hin => by rw [hir, getLsbD_setBit false hm, if_neg (by omega), hlow i hi hin])
      (fun i hi => by rw [hir, getLsbD_setBit false hm, getLsbD_setBit false hm, hw i hi]) h2
    refine ⟨w', ?_, fun i hi => ?_⟩
    · rw [dispatchDown, serve_setIr hm (hw (m + 1) (by omega)) h1, andThen_ok, heq]
    · rw [hw' i hi, getLsbD_setBit false hm, if_neg (by omega)]

/-- The bits above `n`. -/
theorem getLsbD_above (n i : Nat) :
    (0xFFFE#16 <<< n).getLsbD i = (decide (n < i) && decide (i < 16)) := by
  have hmask : 0xFFFE#16 = ~~~1#16 := by decide
  rw [BitVec.getLsbD_shiftLeft, hmask, BitVec.getLsbD_not, BitVec.getLsbD_one, Bool.eq_iff_iff]
  simp
  omega

/-- An entry meets BUS at its first push, its second push or its table fetch. -/
theorem enterInterrupt_of_bus {n : Nat} {s t : State} (hp : t.platform = s.platform)
    (heven : isOdd t.sp = false)
    (h : busSignalled s (t.sp - 2#16) .word .write = true ∨
      (wordStorable s (t.sp - 2#16) = true ∧ busSignalled s (t.sp - 4#16) .word .write = true) ∨
      (wordStorable s (t.sp - 2#16) = true ∧ wordStorable s (t.sp - 4#16) = true ∧
        busSignalled s (BitVec.ofNat 16 (2 * n)) .word .fetch = true)) :
    ∃ u, enterInterrupt n t = .bus u := by
  have hsub : t.sp - 2#16 - 2#16 = t.sp - 4#16 := by bv_omega
  rw [← busSignalled_congr hp, ← busSignalled_congr hp, ← busSignalled_congr hp,
    ← wordStorable_congr hp, ← wordStorable_congr hp] at h
  rcases h with hbus | ⟨hstore, hbus⟩ | ⟨hstore, hstore', hbus⟩
  · rw [enterInterrupt, push_of_bus heven hbus, andThen_bus]
    exact ⟨_, rfl⟩
  all_goals
    rw [enterInterrupt, push_of_storable _ hstore, andThen_ok]
    generalize hs1 : storedWord (t.sp - 2#16) (bitWord n) (t.setSp (t.sp - 2#16)) = s1
    have hp1 : s1.platform = t.platform := by rw [← hs1, storedWord_platform, setSp_platform]
    have hsp1 : s1.sp = t.sp - 2#16 := by rw [← hs1, storedWord_sp, setSp_sp]
  · rw [push_of_bus (by rw [hsp1, isOdd_sub_two, heven])
      (by rw [hsp1, hsub, busSignalled_congr hp1, hbus]), andThen_bus]
    exact ⟨_, rfl⟩
  · rw [push_of_storable _ (by rw [hsp1, hsub, wordStorable_congr hp1, hstore']), andThen_ok,
      readWord_of_bus (isOdd_ofNat_two_mul n), andThen_bus]
    · exact ⟨_, rfl⟩
    · rw [busSignalled_congr (s := s1) (by rw [storedWord_platform, setSp_platform]),
        busSignalled_congr hp1, hbus]

theorem noBus_eq_ok {α : Type} {r : Res α} {a : α} {t : State} (h : noBus r = .ok a t) :
    r = .ok a t := by
  cases r with
  | bus u => cases h
  | _ => exact h

/-! ## The statements -/

/-- Settles O47: each field is read off the state at power-on. -/
theorem powerOnValues : Obligations.PowerOnValues :=
  fun _ _ => ⟨rfl, rfl, rfl, rfl, fun hv => ⟨if_pos hv, if_pos hv⟩,
    fun hv => ⟨if_neg (by rw [hv]; nofun), if_neg (by rw [hv]; nofun)⟩, rfl⟩

/-- Settles O48: the reset clears IR, so that the dispatch loop behind it finds nothing. -/
theorem resetLoadsTheVector : Obligations.ResetLoadsTheVector := by
  intro s v hv hreset hvector
  have h0 := reset_requested hreset
  have hplain : plainWord (samplePins (pinsNow s) (s.setPins s.pins.tail)) .fetch 0#16 = some v := by
    rw [samplePins_eq]
    exact hvector
  refine ⟨fun heven => ?_, fun hodd => step_of_boundary_stop ?_⟩
  · rw [boundary_eq_noBus hv, boundaryMarkII_of_reset h0 hplain heven, samplePins_eq]
    rfl
  · rw [boundary_eq_noBus hv, boundaryMarkII_of_odd_vector h0 hplain hodd]
    rfl

/-- Settles O49: RST decides. -/
theorem reducedVariantStartsAtZero : Obligations.ReducedVariantStartsAtZero := by
  intro s hv
  rw [boundary_markIIL hv]
  refine ⟨fun h => ?_, fun h => ?_⟩
  · rw [if_pos h]
    rfl
  · rw [h, if_neg Bool.false_ne_true]
    rfl

/-- Settles O52: the loop clears the bits 15 to 1, and the reset bit 0 with all others. -/
theorem boundaryLeavesNothingPending : Obligations.BoundaryLeavesNothingPending := by
  intro s hv
  have hclear (t : State) (ht : boundary s = .ok () t) : t.ir = 0#16 := by
    obtain ⟨r, w, -, hw, hd⟩ := boundary_markII hv ht
    have hw0 : w.ir.getLsbD 0 = false := by
      rcases hw with ⟨h0, rfl⟩ | ⟨-, hreset⟩
      · exact h0
      · obtain ⟨-, heq⟩ := resetMarkII_ok hreset
        rw [heq]
        exact BitVec.getLsbD_zero
    apply BitVec.eq_of_getLsbD_eq
    intro i hi
    rw [dispatchDown_ir 15 (by decide) w t hd i, BitVec.getLsbD_zero]
    split
    · rfl
    · rwa [show i = 0 by omega]
  refine ⟨hclear, fun hpins hmasked => ?_⟩
  have h0 : s.ir.getLsbD 0 = false := Bool.eq_false_iff.2 fun h => by
    obtain ⟨h4, -⟩ := hmasked 0 h
    omega
  obtain ⟨w, hdispatch⟩ := dispatchDown_of_masked hmasked (n := 15) (by decide)
  have hboundary : boundary s = .ok () (s.setIr w) := by
    rw [boundary_of_no_pins hv hpins, boundaryMarkII_of_no_reset h0, hdispatch]
    rfl
  have hw : w = 0#16 := hclear _ hboundary
  rw [hboundary, hw]
  rfl

/-- Settles O54: the pins act by the bits that they set, and one bit alone is one interrupt taken. -/
theorem pinsRequestInterrupts : Obligations.PinsRequestInterrupts := by
  intro s p
  refine ⟨getLsbD_samplePins p s, samplePins_eq p s,
    fun hrst hnmi hfr => samplePins_of_masked hrst hnmi fun _ => hfr, fun rest hv hpins => ?_⟩
  have hboundary : boundary s = noBus (boundaryMarkII (samplePins p (s.setPins rest))) := by
    rw [boundary_eq_noBus hv, pinsNow_cons hpins, hpins]
    rfl
  have hbits (w : Word) (hw : ∀ i, w.getLsbD i = (s.ir.getLsbD i || (i == 0 && p.rst) ||
      (i == 1 && p.nmi) || (i == 7 && p.irq && s.fr.getLsbD 7))) :
      samplePins p (s.setPins rest) = (s.setPins rest).setIr w := by
    have hir : (samplePins p (s.setPins rest)).ir = w := by
      apply BitVec.eq_of_getLsbD_eq
      intro i _
      rw [getLsbD_samplePins, hw i]
      rfl
    rw [samplePins_eq, hir]
    rfl
  refine ⟨?_, fun hir hrst => ⟨fun hnmi hirq => ?_, fun hnmi hirq hfr => ?_, fun hnmi hirq hfr => ?_⟩⟩
  · rw [hboundary, hbits (s.ir ||| (if p.rst then bitWord 0 else 0#16) |||
      (if p.nmi then bitWord 1 else 0#16) ||| (if p.irq && s.fr.getLsbD 7 then bitWord 7 else 0#16))
      fun i => ?_]
    · exact (boundary_eq_noBus (s := { s with pins := noPins :: rest, ir := _ }) hv).symm
    · rw [BitVec.getLsbD_or, BitVec.getLsbD_or, BitVec.getLsbD_or,
        getLsbD_ite_bitWord (n := 0) (by decide), getLsbD_ite_bitWord (n := 1) (by decide),
        getLsbD_ite_bitWord (n := 7) (by decide), Bool.and_assoc]
  · rw [hboundary, hbits (bitWord 1) fun i => ?_,
      boundaryMarkII_of_single (s := s.setPins rest) (by decide) (by decide) hir (.inl (by decide))]
    · rfl
    · rw [getLsbD_bitWord (by decide), hir, hrst, hnmi, hirq, BitVec.getLsbD_zero]
      simp [beq_eq_decide]
  · rw [hboundary, hbits (bitWord 7) fun i => ?_,
      boundaryMarkII_of_single (s := s.setPins rest) (by decide) (by decide) hir (.inr hfr)]
    · rfl
    · rw [getLsbD_bitWord (by decide), hir, hrst, hnmi, hirq, hfr, BitVec.getLsbD_zero]
      simp [beq_eq_decide]
  · rw [hboundary, samplePins_of_masked (s := s.setPins rest) hrst hnmi fun _ => hfr,
      boundaryMarkII_quiet (s := s.setPins rest) hir]
    rfl

/-- Settles O55: nothing is requested, so that the boundary phase does nothing and the halt goes on. -/
theorem haltedMachineStaysAsItIs : Obligations.HaltedMachineStaysAsItIs := by
  intro s hhalted hrst hquiet
  refine step_of_boundary_halted (t := s.setPins s.pins.tail) ?_ hhalted
  cases hv : s.platform.variant with
  | markII =>
    obtain ⟨hir, hnmi, hirq⟩ := hquiet hv
    rw [boundary_eq_noBus hv, samplePins_of_masked (s := s.setPins s.pins.tail) hrst hnmi hirq,
      boundaryMarkII_quiet (s := s.setPins s.pins.tail) hir]
    rfl
  | markIIL =>
    rw [boundary_markIIL hv, hrst, if_neg Bool.false_ne_true]

/-- Settles O56: the loop comes to interrupt n in the state in which the requests above it have been
served, and there its entry meets BUS. -/
theorem busDuringEntryStops : Obligations.BusDuringEntryStops := by
  intro s hv
  refine ⟨fun t n hpins h1 hn h0 hbound hbit hm heven hbus => ?_, fun hreset hbus => ?_⟩
  · have hp : t.platform = s.platform := (boundary_grows hbound).1
    obtain ⟨u, hu⟩ := enterInterrupt_of_bus hp heven hbus
    refine ⟨⟨u, hu⟩, step_of_boundary_stop ?_⟩
    have habove (i : Nat) (hi : n < i) :
        s.ir.getLsbD i = (s.ir &&& (0xFFFE#16 <<< n)).getLsbD i := by
      rw [BitVec.getLsbD_and, getLsbD_above]
      by_cases h16 : i < 16
      · simp [hi, h16]
      · simp [BitVec.getLsbD_of_ge s.ir i (by omega)]
    have hbelow (i : Nat) (hi : i ≤ n) : (s.ir &&& (0xFFFE#16 <<< n)).getLsbD i = false := by
      rw [BitVec.getLsbD_and, getLsbD_above, decide_eq_false (by omega), Bool.false_and,
        Bool.and_false]
    have hdispatch := noBus_eq_ok
      ((boundary_of_no_pins (s := s.setIr (s.ir &&& (0xFFFE#16 <<< n))) hv hpins).symm.trans hbound)
    rw [boundaryMarkII_of_no_reset (hbelow 0 (by omega))] at hdispatch
    obtain ⟨w, hsame, hw⟩ := dispatchDown_above (n := n) (w := s.ir) (by omega) (by decide)
      (fun i _ hi => hbelow i hi) habove hdispatch
    obtain ⟨k, rfl⟩ : ∃ k, n = k + 1 := ⟨n - 1, by omega⟩
    have hserve : serve (k + 1) (t.setIr w) = .bus (u.setIr (setBit w (k + 1) false)) := by
      rw [serve_of_taken (s := t.setIr w) ((hw _ (Nat.le_refl _)).trans hbit) hm]
      exact (enterInterrupt_ignoresIr (k + 1) t _).trans (by rw [hu]; rfl)
    have hloop : dispatchDown 15 s = .bus (u.setIr (setBit w (k + 1) false)) :=
      hsame.trans (by rw [dispatchDown, hserve, andThen_bus])
    rw [boundary_of_no_pins hv hpins, boundaryMarkII_of_no_reset h0, hloop]
    rfl
  · refine step_of_boundary_stop ?_
    rw [boundary_eq_noBus hv, boundaryMarkII_of_vector_bus (reset_requested hreset)]
    · rfl
    · rw [← hbus]
      exact busSignalled_congr (by rw [samplePins_eq]; rfl)

/-- Settles O57: the word that the fetch finds is decoded and executed in the state behind the boundary
phase. -/
theorem stepRunsTheDecodedInstruction : Obligations.StepRunsTheDecodedInstruction := by
  have hstep (s t : State) (w : Word) (hb : boundary s = .ok () t) (hh : t.halted = false)
      (hw : plainWord t .fetch t.ip = some w) (i : Instr) (hi : decodeWord w = .ok i) :
      step s = exec i t := by
    rw [step_of_boundary hb hh, fetchOpcode_of_plainWord hw hi]
  refine ⟨fun s t w hb hh hw => ⟨hstep s t w hb hh hw, fun h15 => ?_⟩,
    fun s w i hir hpins hh hw hi => hstep s s w (boundary_quiet hir hpins) hh hw i hi⟩
  rw [step_of_boundary hb hh, fetchOpcode_of_bit15 hw h15]

end Sys2Proof.Machine
end

section
/-! PROOF. Taking an interrupt, returning from it, and two interrupts at one boundary (60_exceptions.md
R270 to R275). -/

namespace Sys2Proof.Machine

/-! ## Taking an interrupt whose stack is plain memory -/

/-- Memory after an entry: `1 << n` and IP on the stack. -/
def entryMem (n : Nat) (s : State) : Memory :=
  memSetWord (memSetWord s.mem (s.sp - 2#16) (bitWord n)) (s.sp - 4#16) s.ip

/-- The state after an entry that goes to `v`. -/
def entered (n : Nat) (v : Word) (s : State) : State :=
  { s with
    sp := s.sp - 4#16
    mem := entryMem n s
    ip := v
    fr := if 4 ≤ n then setBit s.fr n false else s.fr
    halted := false }

section
variable {s : State} {n : Nat} {v : Word} (h2 : wordWritable s (s.sp - 2#16) = true)
  (h4 : wordWritable s (s.sp - 4#16) = true)
include h2 h4

theorem enterInterrupt_of_even
    (hv : plainWord (s.setMem (entryMem n s)) .fetch (BitVec.ofNat 16 (2 * n)) = some v)
    (heven : isOdd v = false) : enterInterrupt n s = .ok () (entered n v s) := by
  rw [enterInterrupt_of_writable h2 h4 hv, writeIp_of_even heven, andThen_ok]
  rfl

theorem enterInterrupt_of_odd
    (hv : plainWord (s.setMem (entryMem n s)) .fetch (BitVec.ofNat 16 (2 * n)) = some v)
    (hodd : isOdd v = true) : enterInterrupt n s = .stop .oddPointer := by
  rw [enterInterrupt_of_writable h2 h4 hv, writeIp_of_odd hodd, andThen_stop]

/-- An entry leaves the two words on the stack, wherever the table stands. -/
theorem enterInterrupt_mem {t : State} (h : enterInterrupt n s = .ok () t) :
    t.mem = entryMem n s := by
  have hsub : s.sp - 2#16 - 2#16 = s.sp - 4#16 := by bv_omega
  rw [enterInterrupt, push_of_writable _ h2, andThen_ok, push_of_writable, andThen_ok] at h
  · obtain ⟨v, s3, h3, h⟩ := andThen_eq_ok.1 h
    obtain ⟨_, s4, hip, h⟩ := andThen_eq_ok.1 h
    obtain ⟨-, -, hsame, -⟩ := readWord_ok h3
    obtain ⟨-, rfl⟩ := writeIp_ok.1 hip
    cases h
    rw [setHalted_mem, setFr_mem, setIp_mem, hsame.mem_eq]
    simp only [setMem_mem, setMem_sp, setSp_sp, setMem_ip, setSp_ip, hsub, entryMem]
  · simp only [setMem_sp, setSp_sp, hsub]
    exact (wordWritable_congr rfl).trans h4

end

/-! ## Words that share no byte -/

/-- Two words whose addresses lie two bytes or more apart, in both directions around memory. -/
theorem not_inWord_of_apart {a b : Word} (h2 : 2 ≤ (b - a).toNat) (h2' : 2 ≤ (a - b).toNat) :
    ¬ inWord a b.toNat ∧ ¬ inWord a (b + 1#16).toNat := by
  unfold inWord
  constructor <;> bv_omega

theorem memWord_memSetWord_apart (m : Memory) {a b : Word} (v : Word) (h2 : 2 ≤ (b - a).toNat)
    (h2' : 2 ≤ (a - b).toNat) : memWord (memSetWord m a v) b = memWord m b := by
  obtain ⟨hlow, hhigh⟩ := not_inWord_of_apart h2 h2'
  exact memWord_memSetWord_other m v hlow hhigh

/-- The word pushed first stands above the one pushed last. -/
theorem memWord_entryMem (n : Nat) (s : State) :
    memWord (entryMem n s) (s.sp - 4#16) = some s.ip ∧
      memWord (entryMem n s) (s.sp - 2#16) = some (bitWord n) := by
  refine ⟨memWord_memSetWord_same _ _ _, ?_⟩
  rw [entryMem, memWord_memSetWord_apart _ _ (by bv_omega) (by bv_omega), memWord_memSetWord_same]

/-- An entry leaves a word clear of the stack alone. -/
theorem memWord_entryMem_other {n : Nat} {s : State} {a : Word} (h2 : 2 ≤ (a - (s.sp - 2#16)).toNat)
    (h2' : 2 ≤ (s.sp - 2#16 - a).toNat) (h4 : 2 ≤ (a - (s.sp - 4#16)).toNat)
    (h4' : 2 ≤ (s.sp - 4#16 - a).toNat) : memWord (entryMem n s) a = memWord s.mem a := by
  rw [entryMem, memWord_memSetWord_apart _ _ h4 h4', memWord_memSetWord_apart _ _ h2 h2']

/-! ## The return -/

/-- Clearing a bit and or-ing it in again is or-ing it in. -/
theorem or_bitWord_of_cleared {n : Nat} (hn : n < 16) (fr : Word) :
    setBit fr n false ||| bitWord n = fr ||| bitWord n := by
  apply BitVec.eq_of_getLsbD_eq
  intro i _
  rw [BitVec.getLsbD_or, BitVec.getLsbD_or, getLsbD_setBit false hn, getLsbD_bitWord hn]
  by_cases hi : i = n <;> simp [hi]

/-- Or-ing in a bit that is set changes nothing. -/
theorem or_bitWord_of_set {n : Nat} (hn : n < 16) {fr : Word} (h : fr.getLsbD n = true) :
    fr ||| bitWord n = fr := by
  apply BitVec.eq_of_getLsbD_eq
  intro i _
  rw [BitVec.getLsbD_or, getLsbD_bitWord hn]
  by_cases hi : i = n
  · rw [hi, h, Bool.true_or]
  · simp [hi]

/-- The bits of the eight interrupts are not reserved on the `MarkII`. -/
theorem bitWord_and_reserved {n : Nat} (hn : n < 8) : bitWord n &&& 0xFF00#16 = 0#16 := by
  interval_cases n <;> decide

/-- The return idiom: SETIP with both inputs popped. -/
def returnCfg : Cfg := ⟨.always, .pop, .pop, false, false⟩

/-- The return idiom takes the target and the bit from plain memory at the top of the stack. -/
theorem exec_return {s : State} {target bit : Word}
    (htarget : plainWord s .read s.sp = some target)
    (hbit : plainWord s .read (s.sp + 2#16) = some bit) (heven : isOdd target = false)
    (hclean : (s.fr ||| bit) &&& frReserved s.platform.variant = 0#16) :
    exec (.setip returnCfg) s =
      .next { s with ip := target, sp := s.sp + 4#16, fr := s.fr ||| bit } := by
  have hex := executes_of_pop_pop (c := returnCfg) (s := s) rfl rfl rfl htarget hbit
  obtain ⟨hsetip, -⟩ := setipCompletes returnCfg s _ target bit hex
  exact (hsetip heven hclean rfl :)

/-! ## Two entries -/

/-- The loop takes the highest request, if it is not masked, and goes on below it. -/
theorem dispatchDown_of_highest {k N : Nat} {s t : State} (hkN : k + 1 ≤ N)
    (hbit : s.ir.getLsbD (k + 1) = true)
    (habove : ∀ i, k + 1 < i → i ≤ N → s.ir.getLsbD i = false)
    (hm : k + 1 < 4 ∨ s.fr.getLsbD (k + 1) = true)
    (he : enterInterrupt (k + 1) (s.setIr (setBit s.ir (k + 1) false)) = .ok () t) :
    dispatchDown N s = dispatchDown k t := by
  rw [dispatchDown_skip hkN habove, dispatchDown, serve_of_taken hbit hm, he, andThen_ok]

/-- An entry whose stack lies above the interrupt table leaves the table. -/
theorem memWord_entryMem_table {n k : Nat} {s : State} (hk : k < 8) (hstack : 20 ≤ s.sp.toNat) :
    memWord (entryMem n s) (BitVec.ofNat 16 (2 * k)) = memWord s.mem (BitVec.ofNat 16 (2 * k)) :=
  memWord_entryMem_other (by bv_omega) (by bv_omega) (by bv_omega) (by bv_omega)

theorem plainWord_of_memWord {s t : State} {k : AccessKind} {a : Word}
    (hp : t.platform = s.platform) (hm : memWord t.mem a = memWord s.mem a) :
    plainWord t k a = plainWord s k a := by
  unfold plainWord busSignalled readable kindAt
  rw [hp, hm]

/-- An entry on a stack above the interrupt table goes to the table entry that stands there before it. -/
theorem enterInterrupt_of_table {n : Nat} {s : State} {v : Word} (hn : n < 8)
    (hstack : 20 ≤ s.sp.toNat) (h2 : wordWritable s (s.sp - 2#16) = true)
    (h4 : wordWritable s (s.sp - 4#16) = true)
    (hv : plainWord s .fetch (BitVec.ofNat 16 (2 * n)) = some v) (heven : isOdd v = false) :
    enterInterrupt n s = .ok () (entered n v s) :=
  enterInterrupt_of_even h2 h4
    ((plainWord_of_memWord (t := s.setMem (entryMem n s)) (s := s) rfl
      (memWord_entryMem_table hn hstack)).trans hv) heven

/-- The pending bits of two requests. -/
theorem getLsbD_two {m n : Nat} (hm : m < 16) (hn : n < 16) (i : Nat) :
    (bitWord m ||| bitWord n).getLsbD i = (decide (i = m) || decide (i = n)) := by
  rw [BitVec.getLsbD_or, getLsbD_bitWord hm, getLsbD_bitWord hn]

theorem setBit_two {m n : Nat} (hmn : m < n) (hn : n < 16) :
    setBit (bitWord m ||| bitWord n) n false = bitWord m := by
  apply BitVec.eq_of_getLsbD_eq
  intro i _
  rw [getLsbD_setBit false hn, getLsbD_two (by omega) hn, getLsbD_bitWord (by omega)]
  by_cases hi : i = n
  · simp [hi, hmn.ne']
  · simp [hi]

theorem setBit_bitWord {n : Nat} (hn : n < 16) : setBit (bitWord n) n false = 0#16 := by
  apply BitVec.eq_of_getLsbD_eq
  intro i _
  rw [getLsbD_setBit false hn, getLsbD_bitWord hn, BitVec.getLsbD_zero]
  by_cases hi : i = n <;> simp [hi]

/-- An entry masks its own interrupt and no other. -/
theorem getLsbD_entered_fr {n i : Nat} (hn : n < 16) (hi : i ≠ n) (v : Word) (s : State) :
    (entered n v s).fr.getLsbD i = s.fr.getLsbD i := by
  rw [entered]
  dsimp only
  split
  · rw [getLsbD_setBit false hn, if_neg hi]
  · rfl

/-- The loop over two requests takes the higher one, then the lower one. -/
theorem dispatchDown_of_two {m n : Nat} {s : State} {vm vn : Word} (hm : 1 ≤ m) (hmn : m < n)
    (hn : n < 8) (hir : s.ir = bitWord m ||| bitWord n) (hopenm : m < 4 ∨ s.fr.getLsbD m = true)
    (hopenn : n < 4 ∨ s.fr.getLsbD n = true)
    (hentern : enterInterrupt n (s.setIr (bitWord m)) = .ok () (entered n vn (s.setIr (bitWord m))))
    (henterm : enterInterrupt m (entered n vn (s.setIr 0#16)) =
      .ok () (entered m vm (entered n vn (s.setIr 0#16)))) :
    dispatchDown 15 s = .ok () (entered m vm (entered n vn (s.setIr 0#16))) := by
  obtain ⟨j, rfl⟩ : ∃ j, m = j + 1 := ⟨m - 1, by omega⟩
  obtain ⟨k, rfl⟩ : ∃ k, n = k + 1 := ⟨n - 1, by omega⟩
  have hbit (i : Nat) : s.ir.getLsbD i = (decide (i = j + 1) || decide (i = k + 1)) := by
    rw [hir, getLsbD_two (by omega) (by omega)]
  have hbit1 (i : Nat) : (entered (k + 1) vn (s.setIr (bitWord (j + 1)))).ir.getLsbD i =
      decide (i = j + 1) := getLsbD_bitWord (by omega)
  have hclear : setBit (entered (k + 1) vn (s.setIr (bitWord (j + 1)))).ir (j + 1) false = 0#16 :=
    setBit_bitWord (by omega)
  rw [dispatchDown_of_highest (k := k) (by omega) (by simp [hbit])
      (fun i hi _ => by simp [hbit]; omega) hopenn
      (by rw [hir, setBit_two hmn (by omega)]; exact hentern),
    dispatchDown_of_highest (k := j) (by omega) (by simp [hbit1])
      (fun i hi _ => by simp [hbit1]; omega)
      (by rwa [getLsbD_entered_fr (by omega) (by omega)]) (by rw [hclear]; exact henterm)]
  exact dispatchDown_of_clear (s := entered _ _ (entered _ _ (s.setIr 0#16)))
    (fun i _ => BitVec.getLsbD_zero) j

/-- Below a first entry, on a stack above the table, a second one goes to its table entry too. -/
theorem enterInterrupt_second {m n : Nat} {s : State} {vm vn : Word} (hm : m < 8)
    (hstack : 24 ≤ s.sp.toNat) (h6 : wordWritable s (s.sp - 6#16) = true)
    (h8 : wordWritable s (s.sp - 8#16) = true)
    (hvm : plainWord s .fetch (BitVec.ofNat 16 (2 * m)) = some vm) (hem : isOdd vm = false) :
    enterInterrupt m (entered n vn s) = .ok () (entered m vm (entered n vn s)) := by
  have hsub6 : s.sp - 4#16 - 2#16 = s.sp - 6#16 := by bv_omega
  have hsub8 : s.sp - 4#16 - 4#16 = s.sp - 8#16 := by bv_omega
  have hsp : (entered n vn s).sp = s.sp - 4#16 := rfl
  have hp : (entered n vn s).platform = s.platform := rfl
  refine enterInterrupt_of_table hm (by rw [hsp]; bv_omega) ?_ ?_ ?_ hem
  · rw [hsp, hsub6, wordWritable_congr hp, h6]
  · rw [hsp, hsub8, wordWritable_congr hp, h8]
  · rw [plainWord_of_memWord hp (memWord_entryMem_table hm (by omega)), hvm]

/-- Two entries leave four words on the stack, those of the first above those of the second. -/
theorem memWord_two_entries (m n : Nat) (v : Word) (s : State) :
    memWord (entryMem m (entered n v s)) (s.sp - 2#16) = some (bitWord n) ∧
      memWord (entryMem m (entered n v s)) (s.sp - 4#16) = some s.ip ∧
      memWord (entryMem m (entered n v s)) (s.sp - 6#16) = some (bitWord m) ∧
      memWord (entryMem m (entered n v s)) (s.sp - 8#16) = some v := by
  have hsub6 : s.sp - 4#16 - 2#16 = s.sp - 6#16 := by bv_omega
  have hsub8 : s.sp - 4#16 - 4#16 = s.sp - 8#16 := by bv_omega
  have hsp : (entered n v s).sp = s.sp - 4#16 := rfl
  have hkeep {a : Word} (ha : a = s.sp - 2#16 ∨ a = s.sp - 4#16) :
      memWord (entryMem m (entered n v s)) a = memWord (entryMem n s) a := by
    rcases ha with rfl | rfl <;>
      exact memWord_entryMem_other (by rw [hsp]; bv_omega) (by rw [hsp]; bv_omega)
        (by rw [hsp]; bv_omega) (by rw [hsp]; bv_omega)
  obtain ⟨hip, hbit⟩ := memWord_entryMem n s
  obtain ⟨hip', hbit'⟩ := memWord_entryMem m (entered n v s)
  rw [hsp, hsub8] at hip'
  rw [hsp, hsub6] at hbit'
  exact ⟨(hkeep (.inl rfl)).trans hbit, (hkeep (.inr rfl)).trans hip, hbit', hip'⟩

/-! ## The statements -/

/-- Settles O50: the entry is two pushes, a fetch and a write of IP. -/
theorem entrySavesBitAndIp : Obligations.EntrySavesBitAndIp := by
  intro s n v _ _ h2 h4
  dsimp only
  exact fun hv => ⟨enterInterrupt_of_even h2 h4 hv, enterInterrupt_of_odd h2 h4 hv⟩

/-- Settles O51: the return pops what the entry pushed, in the reverse order. -/
theorem returnUndoesEntry : Obligations.ReturnUndoesEntry := by
  intro s t n x hv _ hn hmask hclean heven h2 h4 hbus2 hbus4 hentry
  refine ⟨?_, fun hge => or_bitWord_of_set (by omega) (hmask hge)⟩
  have hmem := enterInterrupt_mem h2 h4 hentry
  obtain ⟨-, -, heq, -⟩ := enterInterrupt_ok hentry
  have hsp : t.sp = s.sp - 4#16 := (congrArg State.sp heq :)
  have hfr : t.fr = if 4 ≤ n then setBit s.fr n false else s.fr := (congrArg State.fr heq :)
  have hp : t.platform = s.platform := (congrArg State.platform heq :)
  have hfrBit : t.fr ||| bitWord n = s.fr ||| bitWord n := by
    rw [hfr]
    split
    · exact or_bitWord_of_cleared (by omega) s.fr
    · rfl
  obtain ⟨hip, hbit⟩ := memWord_entryMem n s
  rw [← hmem] at hip hbit
  have hplain {a v : Word} (hw : wordWritable s a = true)
      (hbus : busSignalled s a .word .read = false) (hm : memWord t.mem a = some v) :
      plainWord { t with ip := x } .read a = some v := by
    obtain ⟨hlow, hhigh⟩ := readable_of_wordWritable hw
    exact plainWord_of_readable (even_of_wordWritable hw) ((busSignalled_congr hp).trans hbus)
      ((readable_congr hp).trans hlow) ((readable_congr hp).trans hhigh) hm
  have hup : s.sp - 4#16 + 2#16 = s.sp - 2#16 := by bv_omega
  have hback : s.sp - 4#16 + 4#16 = s.sp := by bv_omega
  have hreserved : (t.fr ||| bitWord n) &&& frReserved t.platform.variant = 0#16 := by
    rw [hfrBit, hp, hv]
    exact or_and_eq_zero hclean (bitWord_and_reserved hn)
  have hreturn := exec_return (s := { t with ip := x }) (target := s.ip) (bit := bitWord n)
    (by rw [hsp]; exact hplain h4 hbus4 hip) (by rw [hsp, hup]; exact hplain h2 hbus2 hbit) heven
    hreserved
  refine hreturn.trans ?_
  show Host.Outcome.next { t with ip := s.ip, sp := t.sp + 4#16, fr := t.fr ||| bitWord n } = .next _
  rw [hsp, hback, hfrBit]
  rfl

/-- Settles O53: the loop serves the higher interrupt first, so that the lower one interrupts its handler
before it has begun. -/
theorem lowerInterruptRunsFirst : Obligations.LowerInterruptRunsFirst := by
  intro s m n vm vn hv hpins hm1 hmn hn hir hmaskm hmaskn hstack hwrite hvm hem hvn hen
  have hentern := enterInterrupt_of_table (s := s.setIr (bitWord m)) hn (by rw [setIr_sp]; omega)
    (hwrite 2#16 (by simp)) (hwrite 4#16 (by simp)) hvn hen
  have henterm := enterInterrupt_second (s := s.setIr 0#16) (n := n) (vn := vn) (by omega) hstack
    (hwrite 6#16 (by simp)) (hwrite 8#16 (by simp)) hvm hem
  have hdispatch := dispatchDown_of_two hm1 hmn hn hir ((Nat.lt_or_ge m 4).imp_right hmaskm)
    ((Nat.lt_or_ge n 4).imp_right hmaskn) hentern henterm
  have h0 : s.ir.getLsbD 0 = false := by
    rw [hir]
    exact (getLsbD_two (by omega) (by omega) 0).trans (by simp; omega)
  have hsp : s.sp - 4#16 - 4#16 = s.sp - 8#16 := by bv_omega
  refine ⟨entered m vm (entered n vn (s.setIr 0#16)), ?_, rfl, hsp, rfl,
    memWord_two_entries m n vn (s.setIr 0#16)⟩
  rw [boundary_of_no_pins hv hpins, boundaryMarkII_of_no_reset h0, hdispatch]
  rfl

end Sys2Proof.Machine
end
